-- ==== Sys2Proof/Word.lean ====
section
/-! DEFINITION. The word types of the HCE (spec/00_scope.md R10, R12): every value is an unsigned number of a stated width. -/

namespace Sys2Proof

/-- A byte: a symbol, a byte of a byte memory, an error code (R10). -/
abbrev Byte := BitVec 8

/-- A command word or a frequency counter (R9, R90). -/
abbrev Word32 := BitVec 32

/-- DATA, RES, a weight or a code value (R9, R22, R23). -/
abbrev Word64 := BitVec 64

/-- A node index, 0 to 510, or NIL = 511 (R10). -/
abbrev NodeIdx := BitVec 9

end Sys2Proof
end

