-- ==== Sys2Proof/Config.lean ====
section
/-! DEFINITION. What one instance of the HCE fixes: the implementation parameters of spec/00_scope.md R9 and the constants of R9, R25 and R28. -/

namespace Sys2Proof

/-- The implementation parameters of R9, which a model takes as an argument.
BASE_ADDR is OPEN there: no rule reads its value except to place the window. -/
structure Params where
  pqMax    : Nat
  dataMax  : Nat
  bbMax    : Nat
  baseAddr : Nat
  deriving DecidableEq, Repr

/-- The defaults of R9.
DESIGN CHOICE (log 4, unsafe): BASE_ADDR has no default in the spec and stands at 0 here. -/
def Params.default : Params := { pqMax := 511, dataMax := 4096, bbMax := 32768, baseAddr := 0 }

/-- NODE_MAX, the entries of the node arena (R9, R28). -/
abbrev nodeMax : Nat := 511

/-- NSYM, the number of symbols (R9). -/
abbrev nsym : Nat := 256

/-- CODE_W, the longest legal code (R9). -/
abbrev codeW : Nat := 64

/-- NIL, the node index that means "no node" (R9). -/
def nil : NodeIdx := 511

/-- The ID register's constant (spec/10_state.md R25). -/
def idWord : Word64 := 0x4843450000010007

end Sys2Proof
end

