-- ==== Sys2Proof/Syntax.lean ====
section
/-! DEFINITION. The 40 commands of spec/30_encoding.md R94, one constructor per row of spec/opcode_table.json. -/

namespace Sys2Proof

/-- A command with the fields its row names (R94); a field the row does not name is no operand (R93).
A symbol or a byte is `A` itself (R92); every other operand is the unsigned number its field holds.
The operand DATA is no part of the command word: a meaning reads it from DATA_LATCH (R92; log 17). -/
inductive Instr where
  | nop
  | softReset
  | clrSticky
  | regRead (selector : Nat)
  | memWr (byte : Byte) (index : Nat)
  | memRd (index : Nat)
  | outRd (index : Nat)
  | bbNew (capacity : Nat)
  | bbWrite (width : Nat) (numBits : Nat)
  | bbReadBit
  | bbAdvance
  | bbRewind
  | bbSizeBits
  | bbByteOffset
  | bbBitOffset
  | bbGetByte (index : Nat)
  | pqInit (capacity : Nat)
  | pqInsert (node : Nat)
  | pqExtractMin
  | pqSize
  | pqChangePriority (node : Nat)
  | pqReadHeap (heapIndex : Nat)
  | freqClear
  | freqSet (symbol : Byte)
  | freqGet (symbol : Byte)
  | freqCount (length : Nat)
  | nodeNewLeaf (symbol : Byte)
  | nodeSetWeight (node : Nat)
  | nodeRead (field : Nat) (node : Nat)
  | arenaReset
  | treeBuild
  | treeHeight
  | treeFree
  | mapBuild
  | mapGetCode (symbol : Byte)
  | mapGetLen (symbol : Byte)
  | encode (length : Nat)
  | encSym (symbol : Byte)
  | decode (length : Nat)
  | decSym
  deriving DecidableEq, Repr

end Sys2Proof
end

