-- ==== Sys2Proof/WellFormed.lean ====
section
/-! DEFINITION. Which commands a command word can hold (spec/30_encoding.md R91): an operand must fit its field. -/

namespace Sys2Proof

/-- The operand fits field A, bits 23:16 of the command word (R91). -/
def fitsA (n : Nat) : Bool := decide (n < 256)

/-- The operand fits field B, bits 15:0 of the command word (R91). -/
def fitsB (n : Nat) : Bool := decide (n < 65536)

/-- Every operand fits its field. An operand that fits but is out of the command's range is well formed:
it is accepted and fails with its rule's error (R97). -/
def Instr.wellFormed : Instr → Bool
  | .nop => true
  | .softReset => true
  | .clrSticky => true
  | .regRead selector => fitsA selector
  | .memWr _ index => fitsB index
  | .memRd index => fitsB index
  | .outRd index => fitsB index
  | .bbNew capacity => fitsB capacity
  | .bbWrite width numBits => fitsA width && fitsB numBits
  | .bbReadBit => true
  | .bbAdvance => true
  | .bbRewind => true
  | .bbSizeBits => true
  | .bbByteOffset => true
  | .bbBitOffset => true
  | .bbGetByte index => fitsB index
  | .pqInit capacity => fitsB capacity
  | .pqInsert node => fitsB node
  | .pqExtractMin => true
  | .pqSize => true
  | .pqChangePriority node => fitsB node
  | .pqReadHeap heapIndex => fitsB heapIndex
  | .freqClear => true
  | .freqSet _ => true
  | .freqGet _ => true
  | .freqCount length => fitsB length
  | .nodeNewLeaf _ => true
  | .nodeSetWeight node => fitsB node
  | .nodeRead field node => fitsA field && fitsB node
  | .arenaReset => true
  | .treeBuild => true
  | .treeHeight => true
  | .treeFree => true
  | .mapBuild => true
  | .mapGetCode _ => true
  | .mapGetLen _ => true
  | .encode length => fitsB length
  | .encSym _ => true
  | .decode length => fitsB length
  | .decSym => true

end Sys2Proof
end

