-- ==== Sys2Proof/Decode.lean ====
section
/-! DEFINITION. Decoding a command word by its OPC (spec/30_encoding.md R91 to R96), and the encoder written from the same map. -/

namespace Sys2Proof

/-- Why a command word is no command. -/
inductive DecodeError where
  /-- The OPC is one of the 216 reserved values of R96; the engine answers it with IllegalCommand. -/
  | reservedOpcode (opc : Byte)
  deriving DecidableEq, Repr

/-- OPC, bits 31:24 (R91). -/
def opcField (w : Word32) : Byte := w.extractLsb' 24 8

/-- A, bits 23:16 (R91). -/
def aField (w : Word32) : Byte := w.extractLsb' 16 8

/-- B, bits 15:0, as the unsigned number it holds (R91, R92). -/
def bField (w : Word32) : Nat := (w.extractLsb' 0 16).toNat

/-- The opcode map of R94, row by row, on the three fields; every other OPC is reserved (R96). -/
def decodeFields (opc a : Byte) (b : Nat) : Except DecodeError Instr :=
  match opc.toNat with
  | 0x00 => .ok .nop
  | 0x01 => .ok .softReset
  | 0x02 => .ok .clrSticky
  | 0x03 => .ok (.regRead a.toNat)
  | 0x10 => .ok (.memWr a b)
  | 0x11 => .ok (.memRd b)
  | 0x12 => .ok (.outRd b)
  | 0x20 => .ok (.bbNew b)
  | 0x21 => .ok (.bbWrite a.toNat b)
  | 0x22 => .ok .bbReadBit
  | 0x23 => .ok .bbAdvance
  | 0x24 => .ok .bbRewind
  | 0x25 => .ok .bbSizeBits
  | 0x26 => .ok .bbByteOffset
  | 0x27 => .ok .bbBitOffset
  | 0x28 => .ok (.bbGetByte b)
  | 0x30 => .ok (.pqInit b)
  | 0x31 => .ok (.pqInsert b)
  | 0x32 => .ok .pqExtractMin
  | 0x33 => .ok .pqSize
  | 0x34 => .ok (.pqChangePriority b)
  | 0x35 => .ok (.pqReadHeap b)
  | 0x40 => .ok .freqClear
  | 0x41 => .ok (.freqSet a)
  | 0x42 => .ok (.freqGet a)
  | 0x43 => .ok (.freqCount b)
  | 0x44 => .ok (.nodeNewLeaf a)
  | 0x45 => .ok (.nodeSetWeight b)
  | 0x46 => .ok (.nodeRead a.toNat b)
  | 0x47 => .ok .arenaReset
  | 0x50 => .ok .treeBuild
  | 0x51 => .ok .treeHeight
  | 0x52 => .ok .treeFree
  | 0x60 => .ok .mapBuild
  | 0x61 => .ok (.mapGetCode a)
  | 0x62 => .ok (.mapGetLen a)
  | 0x70 => .ok (.encode b)
  | 0x71 => .ok (.encSym a)
  | 0x72 => .ok (.decode b)
  | 0x73 => .ok .decSym
  | _ => .error (.reservedOpcode opc)

/-- Decoding is total and by OPC alone (R95); a field the command does not use is dropped (R93). -/
def decode (w : Word32) : Except DecodeError Instr := decodeFields (opcField w) (aField w) (bField w)

/-- A command word is `(OPC << 24) | (A << 16) | B` (R91). -/
def packWord (opc a b : Nat) : Word32 := BitVec.ofNat 32 (opc <<< 24 ||| a <<< 16 ||| b)

/-- The opcode of a command (R94). -/
def Instr.opcode : Instr → Nat
  | .nop => 0x00
  | .softReset => 0x01
  | .clrSticky => 0x02
  | .regRead _ => 0x03
  | .memWr _ _ => 0x10
  | .memRd _ => 0x11
  | .outRd _ => 0x12
  | .bbNew _ => 0x20
  | .bbWrite _ _ => 0x21
  | .bbReadBit => 0x22
  | .bbAdvance => 0x23
  | .bbRewind => 0x24
  | .bbSizeBits => 0x25
  | .bbByteOffset => 0x26
  | .bbBitOffset => 0x27
  | .bbGetByte _ => 0x28
  | .pqInit _ => 0x30
  | .pqInsert _ => 0x31
  | .pqExtractMin => 0x32
  | .pqSize => 0x33
  | .pqChangePriority _ => 0x34
  | .pqReadHeap _ => 0x35
  | .freqClear => 0x40
  | .freqSet _ => 0x41
  | .freqGet _ => 0x42
  | .freqCount _ => 0x43
  | .nodeNewLeaf _ => 0x44
  | .nodeSetWeight _ => 0x45
  | .nodeRead _ _ => 0x46
  | .arenaReset => 0x47
  | .treeBuild => 0x50
  | .treeHeight => 0x51
  | .treeFree => 0x52
  | .mapBuild => 0x60
  | .mapGetCode _ => 0x61
  | .mapGetLen _ => 0x62
  | .encode _ => 0x70
  | .encSym _ => 0x71
  | .decode _ => 0x72
  | .decSym => 0x73

/-- The value of field A: the operand the command's row names there (R94), 0 where it names none (R93). -/
def Instr.aOperand : Instr → Nat
  | .regRead selector => selector
  | .memWr byte _ => byte.toNat
  | .bbWrite width _ => width
  | .freqSet symbol => symbol.toNat
  | .freqGet symbol => symbol.toNat
  | .nodeNewLeaf symbol => symbol.toNat
  | .nodeRead field _ => field
  | .mapGetCode symbol => symbol.toNat
  | .mapGetLen symbol => symbol.toNat
  | .encSym symbol => symbol.toNat
  | .nop | .softReset | .clrSticky | .memRd _ | .outRd _ | .bbNew _ | .bbReadBit | .bbAdvance | .bbRewind
  | .bbSizeBits | .bbByteOffset | .bbBitOffset | .bbGetByte _ | .pqInit _ | .pqInsert _ | .pqExtractMin | .pqSize
  | .pqChangePriority _ | .pqReadHeap _ | .freqClear | .freqCount _ | .nodeSetWeight _ | .arenaReset | .treeBuild
  | .treeHeight | .treeFree | .mapBuild | .encode _ | .decode _ | .decSym => 0

/-- The value of field B: the operand the command's row names there (R94), 0 where it names none (R93). -/
def Instr.bOperand : Instr → Nat
  | .memWr _ index => index
  | .memRd index => index
  | .outRd index => index
  | .bbNew capacity => capacity
  | .bbWrite _ numBits => numBits
  | .bbGetByte index => index
  | .pqInit capacity => capacity
  | .pqInsert node => node
  | .pqChangePriority node => node
  | .pqReadHeap heapIndex => heapIndex
  | .freqCount length => length
  | .nodeSetWeight node => node
  | .nodeRead _ node => node
  | .encode length => length
  | .decode length => length
  | .nop | .softReset | .clrSticky | .regRead _ | .bbReadBit | .bbAdvance | .bbRewind | .bbSizeBits | .bbByteOffset
  | .bbBitOffset | .pqExtractMin | .pqSize | .freqClear | .freqSet _ | .freqGet _ | .nodeNewLeaf _ | .arenaReset
  | .treeBuild | .treeHeight | .treeFree | .mapBuild | .mapGetCode _ | .mapGetLen _ | .encSym _ | .decSym => 0

/-- The command word of a well-formed command, its unused fields 0 as R93 advises. -/
def encode (i : Instr) : Word32 := packWord i.opcode i.aOperand i.bOperand

/-- The command word an opcode-table row's bits stand for: the low `nbits` bits of `w`, every bit above them 0.
A command word is one 32-bit word, so the table's bit numbers are its own (R90, R91). -/
def tableWord (nbits w : Nat) : Word32 := BitVec.ofNat 32 (w % 2 ^ nbits)

/-- The command the decoder reads from a row's bits, numbered as spec/opcode_table.json numbers them. -/
def decodeTableWord (nbits w : Nat) : Option Instr :=
  match decode (tableWord nbits w) with
  | .ok i => some i
  | .error _ => none

end Sys2Proof
end

