-- ==== Sys2Proof/Machine/State.lean ====
section
/-! DEFINITION. The state of one HCE as plain data (spec/10_state.md R20 to R43), its reset values, and the reasons a step can stop. -/

namespace Sys2Proof.Machine

/-- A byte memory: (address, byte) pairs in one canonical form, see `Memory.wf` in Machine/Ops.lean (spec/20_memory.md R60, R61). -/
abbrev Memory := List Host.Cell

/-- The three byte memories (R61). -/
inductive Space where
  | dataMem
  | outMem
  | bbMem
  deriving DecidableEq, Repr

/-- The error kinds a command can raise (spec/60_exceptions.md R241). Each is a value of STATUS.ERR_CODE, no stop. -/
inductive ErrorKind where
  | allocationFailure
  | invalidArgument
  | emptyStructure
  | symbolNotFound
  | cursorOverrun
  | capacityExceeded
  | codeLengthExceeded
  | illegalCommand
  deriving DecidableEq, Repr

/-- STATUS (spec/10_state.md R24); its reserved bits read 0 and are not stored. -/
structure Status where
  busy       : Bool
  errAny     : Bool
  cmdDropped : Bool
  errCode    : Byte
  deriving DecidableEq, Repr

/-- One entry of the node arena (spec/10_state.md R28). -/
structure Node where
  valid    : Bool
  leaf     : Bool
  inTree   : Bool
  symbol   : Byte
  weight   : Word64
  left     : NodeIdx
  right    : NodeIdx
  heapSlot : BitVec 9
  deriving DecidableEq, Repr

/-- NODE_EMPTY (R28). -/
def Node.empty : Node :=
  { valid := false, leaf := false, inTree := false, symbol := 0, weight := 0, left := nil, right := nil, heapSlot := 0 }

/-- One entry of the encoding map (spec/10_state.md R32). -/
structure CodeEntry where
  valid : Bool
  code  : Word64
  len   : BitVec 7
  deriving DecidableEq, Repr

/-- The entry of a symbol the map was not built for (R32). -/
def CodeEntry.absent : CodeEntry := { valid := false, code := 0, len := 0 }

/-- The engine state: everything of R43 except DATA, CMD_LATCH, DATA_LATCH, STATUS and ID (spec/60_exceptions.md R245).
`heap` stores HEAP[k] at position k - 1 and has room for the largest PQ_MAX (log 9). -/
structure Engine where
  res       : Word64
  freq      : Vector Word32 256
  nodes     : Vector Node 511
  nodeCount : BitVec 10
  root      : NodeIdx
  heap      : Vector NodeIdx 511
  pqSize    : BitVec 9
  pqCap     : BitVec 9
  codeMap   : Vector CodeEntry 256
  bbMem     : Memory
  bbCap     : BitVec 17
  bbTotal   : BitVec 20
  bbByteOff : BitVec 16
  bbBitOff  : BitVec 3
  dataMem   : Memory
  outMem    : Memory
  deriving DecidableEq, Repr

/-- The width of a host access in bits (spec/20_memory.md R66). -/
inductive AccessWidth where
  | w8
  | w16
  | w32
  | w64
  deriving DecidableEq, Repr

/-- One entry of the platform's total order (spec/20_memory.md R73): a host access, the engine's turn to complete the
running command (spec/60_exceptions.md R245), or the reset event (spec/70_reset_and_hazards.md R270).
Hosts are not told apart (log 13). -/
inductive Event where
  | store (width : AccessWidth) (addr : Nat) (value : Word64)
  | load (width : AccessWidth) (addr : Nat)
  | engine
  | reset
  deriving DecidableEq, Repr

/-- The whole machine. `params` never changes (R9). `schedule` (what the platform delivers next, oldest first) and
`busOut` (the answer to the last delivered load) are the model's own fields (logs 1 and 3). -/
structure State where
  params    : Params
  cmdLatch  : Word32
  dataLatch : Word64
  data      : Word64
  status    : Status
  engine    : Engine
  schedule  : List Event
  busOut    : Option Word64
  deriving DecidableEq, Repr

/-- Why a step stops with a fault. Every one is safe (logs 7 and 8): no state that satisfies `Inv` of Safety.lean meets one. -/
inductive Fault where
  /-- Raised by a read or write of NODE[i] with i above 510, which does not exist (R28). Safe. -/
  | noSuchNode (index : Nat)
  /-- Raised by a read or write of HEAP[0] or of HEAP[k] with k above PQ_MAX, which do not exist (R31). Safe. -/
  | noSuchHeapEntry (index : Nat)
  /-- Raised by MemRead or MemWrite of an index at or above the memory's size, where they are not defined (R61). Safe. -/
  | noSuchByte (space : Space) (index : Nat)
  /-- Raised by TREE_HEIGHT, TREE_FREE and MAP_BUILD on an arena whose child links form a cycle, where their recursion does not end. Safe. -/
  | endlessDescent
  /-- Raised by a write that must grow a bit buffer of capacity 0, where doubling does not end. Safe. -/
  | endlessGrowth
  deriving DecidableEq, Repr

/-- Why a step is refused. -/
inductive Refusal where
  /-- Raised by an arm of exec whose command has no meaning yet. Safe. -/
  | notModelled (mnemonic : String)
  /-- Raised by a host access outside the window of BASE_ADDR: the HCE places nothing there (spec/20_memory.md R69; log 6). Safe. -/
  | outsideWindow (addr : Nat)
  deriving DecidableEq, Repr

/-- STATUS after reset (R43). -/
def Status.reset : Status := { busy := false, errAny := false, cmdDropped := false, errCode := 0 }

/-- The engine state after reset (R43). -/
def Engine.reset (p : Params) : Engine where
  res       := 0
  freq      := Vector.replicate 256 0
  nodes     := Vector.replicate 511 Node.empty
  nodeCount := 0
  root      := nil
  heap      := Vector.replicate 511 nil
  pqSize    := 0
  pqCap     := BitVec.ofNat 9 p.pqMax
  codeMap   := Vector.replicate 256 CodeEntry.absent
  bbMem     := []
  bbCap     := 1
  bbTotal   := 0
  bbByteOff := 0
  bbBitOff  := 0
  dataMem   := []
  outMem    := []

/-- An instance with the given parameters right after reset, with nothing pending on its window (R43, R270). -/
def State.resetWith (p : Params) : State where
  params    := p
  cmdLatch  := 0
  dataLatch := 0
  data      := 0
  status    := Status.reset
  engine    := Engine.reset p
  schedule  := []
  busOut    := none

/-- The machine right after reset, with the default parameters of R9. -/
def State.reset : State := State.resetWith Params.default

/-- What a step of the machine answers. -/
abbrev Result := Host.Outcome State Fault Refusal

/-- How a command's rule ends early: by the spec's `raise E` (spec/00_scope.md R14), or by a fault of the model. -/
inductive Stop where
  | raise (kind : ErrorKind)
  | fault (reason : Fault)
  deriving DecidableEq, Repr

/-- A part of a command's rule: it answers a value or stops the command (spec/60_exceptions.md R245). -/
abbrev Run (α : Type) := Except Stop α

end Sys2Proof.Machine
end

