-- ==== Sys2Proof/Machine/Flags.lean ====
section
/-! DEFINITION. Every computation of STATUS the spec gives (spec/10_state.md R24, spec/60_exceptions.md R241, R245): the HCE has no other flags (R40). -/

namespace Sys2Proof.Machine

/-- The error codes of R241. -/
def ErrorKind.code : ErrorKind → Byte
  | .allocationFailure => 1
  | .invalidArgument => 2
  | .emptyStructure => 3
  | .symbolNotFound => 4
  | .cursorOverrun => 5
  | .capacityExceeded => 6
  | .codeLengthExceeded => 7
  | .illegalCommand => 8

/-- The STATUS word a load returns: BUSY in bit 0, ERR_ANY in bit 1, CMD_DROPPED in bit 2, ERR_CODE in bits 15:8, 0 elsewhere (R24). -/
def Status.word (st : Status) : Word64 :=
  BitVec.ofNat 64 (st.busy.toNat + 2 * st.errAny.toNat + 4 * st.cmdDropped.toNat + 256 * st.errCode.toNat)

/-- STATUS after a CMD store is accepted (spec/10_state.md R21). -/
def Status.accepted (st : Status) : Status := { st with busy := true }

/-- STATUS after a CMD store is dropped (R21). -/
def Status.dropped (st : Status) : Status := { st with cmdDropped := true }

/-- STATUS after a command completes (R245). -/
def Status.completed (st : Status) : Status := { st with busy := false, errCode := 0 }

/-- STATUS after a command fails (R245). -/
def Status.failed (st : Status) (kind : ErrorKind) : Status :=
  { st with busy := false, errAny := true, errCode := kind.code }

/-- STATUS after CLR_STICKY completes (spec/46_control.md R227). -/
def Status.cleared (st : Status) : Status := { st.completed with errAny := false, cmdDropped := false }

end Sys2Proof.Machine
end

