-- ==== Sys2Proof/Machine/Ops.lean ====
section
/-! DEFINITION. The named operations over memories, tables and registers, and the two ends of a command:
`State.finish` commits a command's rule and `State.fail` is what the HCE has in place of taking an exception
(spec/60_exceptions.md R245, R248). There is no return from an error (R249). -/

namespace Sys2Proof.Machine

/-- `raise E` of the pseudocode (spec/00_scope.md R14). -/
def raise {α : Type} (kind : ErrorKind) : Run α := .error (.raise kind)

/-- A stop of the model where the spec gives the command no meaning (logs 7 and 8). -/
def stuck {α : Type} (reason : Fault) : Run α := .error (.fault reason)

/-- `ceil8(n)` (R12). -/
def ceil8 (n : Nat) : Nat := (n + 7) / 8

/-! ### Byte memories -/

/-- What an address no pair lists reads as: the reset contents, 0 (spec/10_state.md R43; log 10). -/
def Memory.unlisted : Byte := 0

/-- The byte at address `a`. -/
def Memory.read : Memory → Nat → Byte
  | [], _ => Memory.unlisted
  | (k, b) :: rest, a => if k = a then b else Memory.read rest a

/-- The memory with the byte at address `a` set to `v`, in canonical form. -/
def Memory.write : Memory → Nat → Byte → Memory
  | [], a, v => if v = Memory.unlisted then [] else [(a, v)]
  | (k, b) :: rest, a, v =>
    if a < k then (if v = Memory.unlisted then (k, b) :: rest else (a, v) :: (k, b) :: rest)
    else if a = k then (if v = Memory.unlisted then rest else (a, v) :: rest)
    else (k, b) :: Memory.write rest a v

/-- The canonical form: addresses strictly rising, and no pair that says what an unlisted address reads as anyway. -/
abbrev Memory.wf (m : Memory) : Prop :=
  m.Pairwise (fun x y => x.1 < y.1) ∧ ∀ c ∈ m, c.2 ≠ Memory.unlisted

/-- The number of bytes of a memory (spec/20_memory.md R60). -/
def spaceSize (p : Params) : Space → Nat
  | .dataMem => p.dataMax
  | .outMem => p.dataMax
  | .bbMem => p.bbMax

/-- The contents of a memory. -/
def Engine.space (e : Engine) : Space → Memory
  | .dataMem => e.dataMem
  | .outMem => e.outMem
  | .bbMem => e.bbMem

/-- The engine with one memory replaced. -/
def Engine.withSpace (e : Engine) (sp : Space) (m : Memory) : Engine :=
  match sp with
  | .dataMem => { e with dataMem := m }
  | .outMem => { e with outMem := m }
  | .bbMem => { e with bbMem := m }

/-- `MemRead(space, idx)`, defined only below the size (R61; log 7). -/
def Engine.memRead (p : Params) (e : Engine) (sp : Space) (idx : Nat) : Run Byte :=
  if idx < spaceSize p sp then .ok ((e.space sp).read idx) else stuck (.noSuchByte sp idx)

/-- `MemWrite(space, idx, v)`, defined only below the size (R61; log 7). -/
def Engine.memWrite (p : Params) (e : Engine) (sp : Space) (idx : Nat) (v : Byte) : Run Engine :=
  if idx < spaceSize p sp then .ok (e.withSpace sp ((e.space sp).write idx v)) else stuck (.noSuchByte sp idx)

/-- The bytes DATA_MEM[0 .. n-1], which a command reads after it has checked n against DATA_MAX (spec/45_codec.md R211, spec/43_tree_builder.md R174). -/
def Engine.inputBytes (e : Engine) (n : Nat) : List Byte := (List.range n).map (fun j => e.dataMem.read j)

/-! ### Stream bits -/

/-- The place of stream bit `p` in its byte: 7 - (p mod 8) (spec/20_memory.md R62). -/
def bitInByte (p : Nat) : Nat := 7 - p % 8

/-- `StreamBit(q)` (R62). -/
def Engine.streamBit (p : Params) (e : Engine) (q : Nat) : Run Bool :=
  (fun b => b.getLsbD (bitInByte q)) <$> e.memRead p .bbMem (q / 8)

/-- `SetStreamBit(q, b)`: it ORs, as the rule does (R62). -/
def Engine.setStreamBit (p : Params) (e : Engine) (q : Nat) (b : Bool) : Run Engine := do
  let old ← e.memRead p .bbMem (q / 8)
  e.memWrite p .bbMem (q / 8) (old ||| BitVec.ofNat 8 (b.toNat <<< bitInByte q))

/-! ### Registers -/

/-- `RES <- v`, zero-extended to 64 bits (R13, R23). -/
def Engine.setRes (e : Engine) (v : Nat) : Engine := { e with res := BitVec.ofNat 64 v }

/-- `CUR = 8 * BB_BYTE_OFF + BB_BIT_OFF` (R34). -/
def Engine.cursor (e : Engine) : Nat := 8 * e.bbByteOff.toNat + e.bbBitOff.toNat

/-- The cursor moved to stream position `q` (R125); a count that does not fit its register is cut (log 14). -/
def Engine.setCursor (e : Engine) (q : Nat) : Engine :=
  { e with bbByteOff := BitVec.ofNat 16 (q / 8), bbBitOff := BitVec.ofNat 3 (q % 8) }

/-! ### Tables -/

/-- FREQ[s] (R27). -/
def Engine.freqAt (e : Engine) (s : Byte) : Word32 := e.freq[s.toNat]'s.isLt

/-- `FREQ[s] <- v` (R27). -/
def Engine.setFreq (e : Engine) (s : Byte) (v : Word32) : Engine := { e with freq := e.freq.set s.toNat v s.isLt }

/-- MAP[s] (R32). -/
def Engine.mapAt (e : Engine) (s : Byte) : CodeEntry := e.codeMap[s.toNat]'s.isLt

/-- `MAP[s] <- c` (R32). -/
def Engine.setMap (e : Engine) (s : Byte) (c : CodeEntry) : Engine := { e with codeMap := e.codeMap.set s.toNat c s.isLt }

/-- MAP_COUNT, the number of valid entries, derived (R32). -/
def Engine.mapCount (e : Engine) : Nat := e.codeMap.toList.countP (fun c => c.valid)

/-- All symbols in ascending order (R9, R179). -/
def symbols : List Byte := (List.range 256).map (BitVec.ofNat 8)

/-- NODE[i]; there is no entry above 510 (R28; log 7). -/
def Engine.readNode (e : Engine) (i : Nat) : Run Node :=
  match e.nodes[i]? with
  | some n => .ok n
  | none => stuck (.noSuchNode i)

/-- `NODE[i] <- n`; there is no entry above 510 (R28; log 7). -/
def Engine.writeNode (e : Engine) (i : Nat) (n : Node) : Run Engine :=
  if i < 511 then .ok { e with nodes := e.nodes.setIfInBounds i n } else stuck (.noSuchNode i)

/-- `NODE[i].heap_slot <- k` (R151). -/
def Engine.setSlot (e : Engine) (i : NodeIdx) (k : Nat) : Run Engine := do
  let n ← e.readNode i.toNat
  e.writeNode i.toNat { n with heapSlot := BitVec.ofNat 9 k }

/-- HEAP[k], for k from 1 to PQ_MAX (R31; log 7). -/
def Engine.readHeap (p : Params) (e : Engine) (k : Nat) : Run NodeIdx :=
  if 1 ≤ k ∧ k ≤ p.pqMax then
    match e.heap[k - 1]? with
    | some i => .ok i
    | none => stuck (.noSuchHeapEntry k)
  else stuck (.noSuchHeapEntry k)

/-- `HEAP[k] <- i`, for k from 1 to PQ_MAX (R31; log 7). -/
def Engine.writeHeap (p : Params) (e : Engine) (k : Nat) (i : NodeIdx) : Run Engine :=
  if 1 ≤ k ∧ k ≤ p.pqMax ∧ k ≤ 511 then .ok { e with heap := e.heap.setIfInBounds (k - 1) i } else stuck (.noSuchHeapEntry k)

/-! ### The ends of a command -/

/-- A command fails: the engine state stays as it was and STATUS records the code (R242, R245). -/
def State.fail (s : State) (kind : ErrorKind) : State := { s with status := s.status.failed kind }

/-- A command completes: its engine state is committed and ERR_CODE is 0 (R245). -/
def State.complete (s : State) (e : Engine) : State := { s with engine := e, status := s.status.completed }

/-- The end of a command's rule: commit everything, or nothing but STATUS (R245). -/
def State.finish (s : State) : Run Engine → Result
  | .ok e => .next (s.complete e)
  | .error (.raise kind) => .next (s.fail kind)
  | .error (.fault reason) => .fault reason

/-- Runs a command's rule on the engine state and finishes the command (R245). -/
def State.runRule (s : State) (rule : Params → Engine → Run Engine) : Result := s.finish (rule s.params s.engine)

end Sys2Proof.Machine
end

