-- ==== Sys2Proof/Machine/Operands.lean ====
section
/-! DEFINITION. The operand forms of spec/30_encoding.md R92 and R94 beyond the plain fields: the slices of DATA, and a field B that names a node. -/

namespace Sys2Proof.Machine

/-- The input widths BB_WRITE accepts (spec/41_bitbuffer.md R122). -/
def legalWidth (width : Nat) : Bool := width == 8 || width == 16 || width == 32 || width == 64

/-- `DATA[width-1:0]`, the value as an input of `width` bits (R92, R122). -/
def dataLow (width : Nat) (data : Word64) : Word64 := BitVec.ofNat 64 (data.toNat % 2 ^ width)

/-- `DATA[63:32] = 0` (R92, spec/43_tree_builder.md R172). -/
def dataFits32 (data : Word64) : Bool := data.extractLsb' 32 32 == 0

/-- `DATA[31:0]` (R92, R172). -/
def dataCount (data : Word64) : Word32 := data.extractLsb' 0 32

/-- Field B as an allocated node: `if B > 510 or NODE[B].valid = 0: raise InvalidArgument` (spec/42_priority_queue.md R157, R161, spec/43_tree_builder.md R176). -/
def Engine.validNode (e : Engine) (b : Nat) : Run Node :=
  if 510 < b then raise .invalidArgument
  else do
    let n ← e.readNode b
    if n.valid then .ok n else raise .invalidArgument

end Sys2Proof.Machine
end

