-- ==== Sys2Proof/Machine/BitBuffer.lean ====
section
/-! DEFINITION. The bit-buffer commands (spec/41_bitbuffer.md) and the procedure bb_append of R119. -/

namespace Sys2Proof.Machine

/-- `while c < need: c = 2 * c` (R119). From a capacity of at least 1 it ends within `need` doublings; from 0 it never ends (log 8). -/
def doubleUntil (need : Nat) : Nat → Nat → Run Nat
  | 0, c => if c < need then stuck .endlessGrowth else .ok c
  | fuel + 1, c => if c < need then doubleUntil need fuel (2 * c) else .ok c

/-- The capacity after a write that needs `need` bytes: doubled to the first sufficient value and capped at BB_MAX (R119). -/
def Engine.grownCap (p : Params) (e : Engine) (need : Nat) : Run Nat :=
  if e.bbCap.toNat < need then (fun c => min c p.bbMax) <$> doubleUntil need need e.bbCap.toNat else .ok e.bbCap.toNat

/-- Writes the low `n` bits of `v`, bit n-1 first, at stream positions `q`, `q + 1`, ... (R119, spec/20_memory.md R63). -/
def Engine.writeBits (p : Params) (v : Word64) : Nat → Engine → Nat → Run Engine
  | 0, e, _ => .ok e
  | n + 1, e, q => do
    let e ← e.setStreamBit p q (v.getLsbD n)
    Engine.writeBits p v n e (q + 1)

/-- `bb_append(v, n)` (R119): it appends at BB_TOTAL and leaves the cursor at the end. -/
def Engine.bbAppend (p : Params) (e : Engine) (v : Word64) (n : Nat) : Run Engine :=
  let total := e.bbTotal.toNat + n
  let need := ceil8 total
  if p.bbMax < need then raise .allocationFailure
  else do
    let cap ← e.grownCap p need
    let e ← Engine.writeBits p v n { e with bbCap := BitVec.ofNat 17 cap } e.bbTotal.toNat
    .ok ({ e with bbTotal := BitVec.ofNat 20 total }.setCursor total)

/-- A fresh bit buffer of logical capacity `cap`: the whole physical store zeroed, all offsets 0 (R120). -/
def Engine.freshBuffer (e : Engine) (cap : Nat) : Engine :=
  { e with bbMem := [], bbCap := BitVec.ofNat 17 cap, bbTotal := 0, bbByteOff := 0, bbBitOff := 0 }

/-- BB_NEW (R120). -/
def execBbNew (capacity : Nat) (s : State) : Result := s.runRule fun p e =>
  if p.bbMax < capacity then raise .allocationFailure else .ok (e.freshBuffer (max capacity 1))

/-- BB_WRITE (R122). -/
def execBbWrite (width numBits : Nat) (s : State) : Result := s.runRule fun p e =>
  if !legalWidth width then raise .invalidArgument
  else if width < numBits then raise .invalidArgument
  else e.bbAppend p (dataLow width s.dataLatch) numBits

/-- BB_READ_BIT (R124). -/
def execBbReadBit (s : State) : Result := s.runRule fun p e =>
  if e.bbTotal.toNat ≤ e.cursor then raise .cursorOverrun
  else do
    let b ← e.streamBit p e.cursor
    .ok (e.setRes b.toNat)

/-- BB_ADVANCE (R125). -/
def execBbAdvance (s : State) : Result := s.runRule fun _ e =>
  if e.bbTotal.toNat ≤ e.cursor then raise .cursorOverrun else .ok (e.setCursor (e.cursor + 1))

/-- BB_REWIND (R126). -/
def execBbRewind (s : State) : Result := s.runRule fun _ e => .ok { e with bbByteOff := 0, bbBitOff := 0 }

/-- BB_SIZE_BITS (R127). -/
def execBbSizeBits (s : State) : Result := s.runRule fun _ e => .ok (e.setRes e.bbTotal.toNat)

/-- BB_BYTE_OFFSET (R128). -/
def execBbByteOffset (s : State) : Result := s.runRule fun _ e => .ok (e.setRes e.bbByteOff.toNat)

/-- BB_BIT_OFFSET (R129). -/
def execBbBitOffset (s : State) : Result := s.runRule fun _ e => .ok (e.setRes e.bbBitOff.toNat)

/-- BB_GET_BYTE (R130). -/
def execBbGetByte (index : Nat) (s : State) : Result := s.runRule fun p e =>
  if e.bbCap.toNat ≤ index then raise .invalidArgument
  else do
    let b ← e.memRead p .bbMem index
    .ok (e.setRes b.toNat)

end Sys2Proof.Machine
end

