-- ==== Sys2Proof/Machine/Queue.lean ====
section
/-! DEFINITION. The priority-queue procedures and commands (spec/42_priority_queue.md). -/

namespace Sys2Proof.Machine

/-- `cmp(a, b)`: the weights compared as unsigned 64-bit numbers, with no secondary key (R150). -/
def Engine.cmp (e : Engine) (a b : NodeIdx) : Run Ordering := do
  let x ← e.readNode a.toNat
  let y ← e.readNode b.toNat
  .ok (compare x.weight.toNat y.weight.toNat)

/-- `cmp(HEAP[i], HEAP[j])` (R152, R153). -/
def Engine.cmpHeap (p : Params) (e : Engine) (i j : Nat) : Run Ordering := do
  let a ← e.readHeap p i
  let b ← e.readHeap p j
  e.cmp a b

/-- `swap(i, j)` (R151). -/
def Engine.swap (p : Params) (e : Engine) (i j : Nat) : Run Engine := do
  let a ← e.readHeap p i
  let b ← e.readHeap p j
  let e ← e.writeHeap p i b
  let e ← e.writeHeap p j a
  let e ← e.setSlot b i
  e.setSlot a j

/-- The loop of `sift_up(k)` (R152). `k` halves, so `k` turns are enough. -/
def Engine.siftUpLoop (p : Params) : Nat → Engine → Nat → Run Engine
  | 0, e, _ => .ok e
  | fuel + 1, e, k =>
    if 1 < k then do
      let c ← e.cmpHeap p (k / 2) k
      if c = .gt then do
        let e ← e.swap p k (k / 2)
        Engine.siftUpLoop p fuel e (k / 2)
      else .ok e
    else .ok e

/-- `sift_up(k)` (R152). -/
def Engine.siftUp (p : Params) (e : Engine) (k : Nat) : Run Engine := Engine.siftUpLoop p k e k

/-- The child `sift_down` compares with: the right one only when it is in the heap and strictly less (R153). -/
def Engine.smallerChild (p : Params) (e : Engine) (k : Nat) : Run Nat :=
  if 2 * k + 1 ≤ e.pqSize.toNat then do
    let c ← e.cmpHeap p (2 * k + 1) (2 * k)
    .ok (if c = .lt then 2 * k + 1 else 2 * k)
  else .ok (2 * k)

/-- The loop of `sift_down(k)` (R153). From k at least 1 it grows, so PQ_SIZE turns are enough. -/
def Engine.siftDownLoop (p : Params) : Nat → Engine → Nat → Run Engine
  | 0, e, _ => .ok e
  | fuel + 1, e, k =>
    if e.pqSize.toNat < 2 * k then .ok e
    else do
      let c ← e.smallerChild p k
      let o ← e.cmpHeap p c k
      if o = .lt then do
        let e ← e.swap p k c
        Engine.siftDownLoop p fuel e c
      else .ok e

/-- `sift_down(k)` (R153). -/
def Engine.siftDown (p : Params) (e : Engine) (k : Nat) : Run Engine := Engine.siftDownLoop p e.pqSize.toNat e k

/-- `pq_insert(e)` (R154). -/
def Engine.enqueue (p : Params) (e : Engine) (i : NodeIdx) : Run Engine := do
  let k := e.pqSize.toNat + 1
  let e ← { e with pqSize := BitVec.ofNat 9 k }.writeHeap p k i
  let e ← e.setSlot i k
  e.siftUp p k

/-- `pq_extract()` (R155): the size is reduced before the sift-down, and the removed node's slot is 0. -/
def Engine.dequeue (p : Params) (e : Engine) : Run (NodeIdx × Engine) := do
  let k := e.pqSize.toNat
  let m ← e.readHeap p 1
  let last ← e.readHeap p k
  let e ← e.writeHeap p k nil
  let e := { e with pqSize := BitVec.ofNat 9 (k - 1) }
  let e ← if 1 ≤ k - 1 then do
      let e ← e.writeHeap p 1 last
      let e ← e.setSlot last 1
      e.siftDown p 1
    else Except.ok e
  let e ← e.setSlot m 0
  .ok (m, e)

/-- `for k = 1 .. PQ_MAX: HEAP[k] <- NIL; PQ_SIZE <- 0`. The entries above PQ_MAX do not exist and are NIL too (log 9). -/
def Engine.clearHeap (e : Engine) : Engine := { e with heap := Vector.replicate 511 nil, pqSize := 0 }

/-- `for k = 1 .. n: NODE[HEAP[k]].heap_slot <- 0` (R156). -/
def Engine.clearSlots (p : Params) (e : Engine) (n : Nat) : Run Engine :=
  (List.range' 1 n).foldlM (fun e k => do let i ← e.readHeap p k; e.setSlot i 0) e

/-- PQ_INIT (R156). -/
def execPqInit (capacity : Nat) (s : State) : Result := s.runRule fun p e =>
  if p.pqMax < capacity then raise .allocationFailure
  else do
    let e ← e.clearSlots p e.pqSize.toNat
    .ok { e.clearHeap with pqCap := BitVec.ofNat 9 capacity }

/-- PQ_INSERT (R157). -/
def execPqInsert (node : Nat) (s : State) : Result := s.runRule fun p e => do
  let n ← e.validNode node
  if n.inTree then raise .invalidArgument
  else if n.heapSlot ≠ 0 then raise .invalidArgument
  else if e.pqSize = e.pqCap then raise .capacityExceeded
  else e.enqueue p (BitVec.ofNat 9 node)

/-- PQ_EXTRACT_MIN (R158). -/
def execPqExtractMin (s : State) : Result := s.runRule fun p e =>
  if e.pqSize = 0 then raise .emptyStructure
  else do
    let r ← e.dequeue p
    .ok (r.2.setRes r.1.toNat)

/-- PQ_SIZE (R159). -/
def execPqSize (s : State) : Result := s.runRule fun _ e => .ok (e.setRes e.pqSize.toNat)

/-- The sifting of PQ_CHANGE_PRIORITY at heap index `k`: up when the parent is strictly greater, else down (R161). -/
def Engine.reposition (p : Params) (e : Engine) (k : Nat) : Run Engine := do
  let o ← if 1 < k then e.cmpHeap p (k / 2) k else Except.ok .eq
  if o = .gt then e.siftUp p k else e.siftDown p k

/-- PQ_CHANGE_PRIORITY (R161). -/
def execPqChangePriority (node : Nat) (s : State) : Result := s.runRule fun p e => do
  let n ← e.validNode node
  if n.heapSlot = 0 then raise .invalidArgument else e.reposition p n.heapSlot.toNat

/-- PQ_READ_HEAP (R160). -/
def execPqReadHeap (heapIndex : Nat) (s : State) : Result := s.runRule fun p e =>
  if heapIndex = 0 ∨ e.pqSize.toNat < heapIndex then raise .invalidArgument
  else do
    let i ← e.readHeap p heapIndex
    .ok (e.setRes i.toNat)

end Sys2Proof.Machine
end

