-- ==== Sys2Proof/Machine/Nodes.lean ====
section
/-! DEFINITION. The node arena (spec/43_tree_builder.md R170) and its commands (R175 to R178). -/

namespace Sys2Proof.Machine

/-- `node_alloc(rec)` (R170). -/
def Engine.nodeAlloc (e : Engine) (n : Node) : Run (NodeIdx × Engine) :=
  if e.nodeCount = 511 then raise .allocationFailure
  else do
    let i := e.nodeCount.toNat
    let e ← e.writeNode i n
    .ok (BitVec.ofNat 9 i, { e with nodeCount := BitVec.ofNat 10 (i + 1) })

/-- The record of a new leaf (R175, R179). -/
def Node.newLeaf (inTree : Bool) (symbol : Byte) (weight : Word64) : Node :=
  { valid := true, leaf := true, inTree := inTree, symbol := symbol, weight := weight, left := nil, right := nil, heapSlot := 0 }

/-- The record of a new internal node of the tree (R179). -/
def Node.newInternal (weight : Word64) (left right : NodeIdx) : Node :=
  { valid := true, leaf := false, inTree := true, symbol := 0, weight := weight, left := left, right := right, heapSlot := 0 }

/-- Every node released at once, no tree and an empty queue, PQ_CAP kept (R178). -/
def Engine.clearArena (e : Engine) : Engine :=
  { e.clearHeap with nodes := Vector.replicate 511 Node.empty, nodeCount := 0, root := nil }

/-- NODE_NEW_LEAF (R175). -/
def execNodeNewLeaf (symbol : Byte) (s : State) : Result := s.runRule fun _ e => do
  let r ← e.nodeAlloc (Node.newLeaf false symbol s.dataLatch)
  .ok (r.2.setRes r.1.toNat)

/-- NODE_SET_WEIGHT (R176). -/
def execNodeSetWeight (node : Nat) (s : State) : Result := s.runRule fun _ e => do
  let n ← e.validNode node
  if n.inTree then raise .invalidArgument else e.writeNode node { n with weight := s.dataLatch }

/-- The field of a node NODE_READ reads, zero-extended; a selector above 5 names none (R177). -/
def Node.fieldValue (n : Node) (field : Nat) : Option Nat :=
  match field with
  | 0 => some (4 * n.inTree.toNat + 2 * n.leaf.toNat + n.valid.toNat)
  | 1 => some n.symbol.toNat
  | 2 => some n.weight.toNat
  | 3 => some n.left.toNat
  | 4 => some n.right.toNat
  | 5 => some n.heapSlot.toNat
  | _ => none

/-- NODE_READ (R177). -/
def execNodeRead (field node : Nat) (s : State) : Result := s.runRule fun _ e =>
  if 510 < node then raise .invalidArgument
  else do
    let n ← e.readNode node
    match n.fieldValue field with
    | some v => .ok (e.setRes v)
    | none => raise .invalidArgument

/-- ARENA_RESET (R178). -/
def execArenaReset (s : State) : Result := s.runRule fun _ e => .ok e.clearArena

end Sys2Proof.Machine
end

