-- ==== Sys2Proof/Machine/Tree.lean ====
section
/-! DEFINITION. The tree builder and the other tree commands (spec/43_tree_builder.md R170, R179 to R183). -/

namespace Sys2Proof.Machine

/-- `height(i)` (R170). A path of distinct nodes has at most 511; a longer one goes round a cycle and does not end (log 8).
Like `release` and `assign` it tests `leaf` alone (log 18). -/
def Engine.height (e : Engine) : Nat → Nat → Run Nat
  | 0, _ => stuck .endlessDescent
  | fuel + 1, i => do
    let n ← e.readNode i
    if n.leaf then .ok 0
    else do
      let l ← Engine.height e fuel n.left.toNat
      let r ← Engine.height e fuel n.right.toNat
      .ok (1 + max l r)

/-- `height(ROOT)` (R170). -/
def Engine.rootHeight (e : Engine) : Run Nat := e.height 511 e.root.toNat

/-- One turn of the leaf loop: a leaf of the tree for a symbol with a count, inserted in the queue (R179). -/
def Engine.addLeaf (p : Params) (e : Engine) (s : Byte) : Run Engine :=
  if e.freqAt s = 0 then .ok e
  else do
    let r ← e.nodeAlloc (Node.newLeaf true s ((e.freqAt s).setWidth 64))
    r.2.enqueue p r.1

/-- One merge: the first extracted is the left child, the second the right one (R179). -/
def Engine.mergeOnce (p : Params) (e : Engine) : Run Engine := do
  let a ← e.dequeue p
  let b ← a.2.dequeue p
  let x ← b.2.readNode a.1.toNat
  let y ← b.2.readNode b.1.toNat
  let r ← b.2.nodeAlloc (Node.newInternal (x.weight + y.weight) a.1 b.1)
  r.2.enqueue p r.1

/-- `while PQ_SIZE > 1`: each merge makes the queue one shorter, so PQ_SIZE turns are enough (R179). -/
def Engine.mergeAll (p : Params) : Nat → Engine → Run Engine
  | 0, e => .ok e
  | fuel + 1, e =>
    if 1 < e.pqSize.toNat then do
      let e ← e.mergeOnce p
      Engine.mergeAll p fuel e
    else .ok e

/-- TREE_BUILD after its check (R179). -/
def Engine.buildTree (p : Params) (e : Engine) : Run Engine := do
  let e ← symbols.foldlM (Engine.addLeaf p) { e.clearArena with pqCap := BitVec.ofNat 9 p.pqMax }
  let e ← Engine.mergeAll p e.pqSize.toNat e
  let r ← e.dequeue p
  .ok ({ r.2 with root := r.1 }.setRes r.1.toNat)

/-- TREE_BUILD (R179). -/
def execTreeBuild (s : State) : Result := s.runRule fun p e =>
  if symbols.all (fun c => e.freqAt c == 0) then raise .invalidArgument else e.buildTree p

/-- TREE_HEIGHT (R182). -/
def execTreeHeight (s : State) : Result := s.runRule fun _ e =>
  if e.root = nil then raise .invalidArgument
  else do
    let h ← e.rootHeight
    .ok (e.setRes h)

/-- `release(i)`, post-order (R183); on a cycle it does not end (log 8). -/
def Engine.release : Nat → Engine → Nat → Run Engine
  | 0, _, _ => stuck .endlessDescent
  | fuel + 1, e, i => do
    let n ← e.readNode i
    let e ← if n.leaf then Except.ok e
      else do
        let e ← Engine.release fuel e n.left.toNat
        Engine.release fuel e n.right.toNat
    e.writeNode i Node.empty

/-- TREE_FREE (R183). -/
def execTreeFree (s : State) : Result := s.runRule fun _ e =>
  if e.root = nil then raise .invalidArgument
  else do
    let e ← Engine.release 511 e e.root.toNat
    .ok { e with root := nil }

end Sys2Proof.Machine
end

