-- ==== Sys2Proof/Machine/CodeMap.lean ====
section
/-! DEFINITION. The encoding-map commands (spec/44_encoding_map.md). -/

namespace Sys2Proof.Machine

/-- The entry of a symbol with code `c` of `len` bits (R200). -/
def CodeEntry.present (c : Word64) (len : Nat) : CodeEntry := { valid := true, code := c, len := BitVec.ofNat 7 len }

/-- `assign(i, c, L)` (R200): left appends a 0 bit, right a 1 bit; on a cycle it does not end (log 8). -/
def Engine.assign : Nat → Engine → Nat → Word64 → Nat → Run Engine
  | 0, _, _, _, _ => stuck .endlessDescent
  | fuel + 1, e, i, c, len => do
    let n ← e.readNode i
    if n.leaf then .ok (e.setMap n.symbol (CodeEntry.present c len))
    else do
      let e ← Engine.assign fuel e n.left.toNat (c <<< 1) (len + 1)
      Engine.assign fuel e n.right.toNat (c <<< 1 ||| 1) (len + 1)

/-- `for s = 0 .. 255: MAP[s] <- {valid 0, code 0, len 0}` (R201). -/
def Engine.clearMap (e : Engine) : Engine := { e with codeMap := Vector.replicate 256 CodeEntry.absent }

/-- The map's contents from the tree, after the checks: a one-leaf tree gets the 1-bit code 0 (R201). -/
def Engine.fillMap (e : Engine) (rootNode : Node) : Run Engine :=
  if rootNode.leaf then .ok (e.clearMap.setMap rootNode.symbol (CodeEntry.present 0 1))
  else Engine.assign 511 e.clearMap e.root.toNat 0 0

/-- MAP_BUILD (R201). -/
def execMapBuild (s : State) : Result := s.runRule fun _ e =>
  if e.root = nil then raise .invalidArgument
  else do
    let n ← e.readNode e.root.toNat
    let h ← e.rootHeight
    if !n.leaf && decide (codeW < h) then raise .codeLengthExceeded
    else do
      let e ← e.fillMap n
      .ok (e.setRes e.mapCount)

/-- MAP_GET_CODE (R202). -/
def execMapGetCode (symbol : Byte) (s : State) : Result := s.runRule fun _ e =>
  if !(e.mapAt symbol).valid then raise .symbolNotFound else .ok (e.setRes (e.mapAt symbol).code.toNat)

/-- MAP_GET_LEN (R203). -/
def execMapGetLen (symbol : Byte) (s : State) : Result := s.runRule fun _ e =>
  if !(e.mapAt symbol).valid then raise .symbolNotFound else .ok (e.setRes (e.mapAt symbol).len.toNat)

end Sys2Proof.Machine
end

