-- ==== Sys2Proof/Machine/Codec.lean ====
section
/-! DEFINITION. The codec commands (spec/45_codec.md) and the tree walk of R210. -/

namespace Sys2Proof.Machine

/-- The loop of `walk` from node `i` at stream position `q`, with `left` bits of the stream still unread:
it ends at a leaf, or with CursorOverrun when the bits run out (R210). -/
def Engine.walkLoop (p : Params) (e : Engine) : Nat → Nat → Nat → Run (Byte × Nat)
  | 0, i, q => do
    let n ← e.readNode i
    if n.leaf then .ok (n.symbol, q) else raise .cursorOverrun
  | left + 1, i, q => do
    let n ← e.readNode i
    if n.leaf then .ok (n.symbol, q)
    else do
      let b ← e.streamBit p q
      Engine.walkLoop p e left (if b then n.right.toNat else n.left.toNat) (q + 1)

/-- `walk(q)` (R210): the symbol decoded at stream position `q` and the position after its code.
A one-leaf tree consumes one bit, whose value is not examined. -/
def Engine.walk (p : Params) (e : Engine) (q : Nat) : Run (Byte × Nat) := do
  let n ← e.readNode e.root.toNat
  if n.leaf then (if e.bbTotal.toNat ≤ q then raise .cursorOverrun else .ok (n.symbol, q + 1))
  else Engine.walkLoop p e (e.bbTotal.toNat - q) e.root.toNat q

/-- `total`, the bits ENCODE will write (R211). -/
def Engine.codeBits (e : Engine) (input : List Byte) : Nat := (input.map (fun c => (e.mapAt c).len.toNat)).sum

/-- `bb_append(MAP[c].code, MAP[c].len)` (R211, R212). -/
def Engine.appendCode (p : Params) (e : Engine) (c : Byte) : Run Engine :=
  e.bbAppend p (e.mapAt c).code (e.mapAt c).len.toNat

/-- ENCODE (R211): length, then every symbol, then the size, before any write. -/
def execEncode (length : Nat) (s : State) : Result := s.runRule fun p e =>
  if p.dataMax < length then raise .invalidArgument
  else if (e.inputBytes length).any (fun c => !(e.mapAt c).valid) then raise .symbolNotFound
  else if p.bbMax < ceil8 (e.codeBits (e.inputBytes length)) then raise .allocationFailure
  else do
    let e ← (e.inputBytes length).foldlM (Engine.appendCode p) (e.freshBuffer (max length 1))
    .ok (e.setRes e.bbTotal.toNat)

/-- ENC_SYM (R212). -/
def execEncSym (symbol : Byte) (s : State) : Result := s.runRule fun p e =>
  if !(e.mapAt symbol).valid then raise .symbolNotFound else e.appendCode p symbol

/-- The loop of DECODE: `n` symbols from stream position `q` into OUT_MEM from index `j` (R213). -/
def Engine.decodeLoop (p : Params) : Nat → Engine → Nat → Nat → Run (Engine × Nat)
  | 0, e, _, q => .ok (e, q)
  | n + 1, e, j, q => do
    let r ← e.walk p q
    let e ← e.memWrite p .outMem j r.1
    Engine.decodeLoop p n e (j + 1) r.2

/-- DECODE (R213). -/
def execDecode (length : Nat) (s : State) : Result := s.runRule fun p e =>
  if p.dataMax < length then raise .invalidArgument
  else if e.root = nil then raise .invalidArgument
  else do
    let r ← Engine.decodeLoop p length e 0 0
    .ok ((r.1.setCursor r.2).setRes r.2)

/-- DEC_SYM (R214). -/
def execDecSym (s : State) : Result := s.runRule fun p e =>
  if e.root = nil then raise .invalidArgument
  else do
    let r ← e.walk p e.cursor
    .ok ((e.setCursor r.2).setRes r.1.toNat)

end Sys2Proof.Machine
end

