-- ==== Sys2Proof/Machine/Control.lean ====
section
/-! DEFINITION. The control and data-memory commands (spec/46_control.md). -/

namespace Sys2Proof.Machine

/-- NOP (R225). -/
def execNop (s : State) : Result := s.runRule fun _ e => .ok e

/-- SOFT_RESET (R226): every element takes its reset value except DATA, CMD_LATCH and DATA_LATCH; STATUS is 0. -/
def execSoftReset (s : State) : Result :=
  .next { s with engine := Engine.reset s.params, status := Status.reset }

/-- CLR_STICKY (R227): the two sticky bits are cleared at its end. -/
def execClrSticky (s : State) : Result := .next { s with status := s.status.cleared }

/-- What REG_READ reads (R228); a selector above 8 names nothing. -/
def Engine.regValue (p : Params) (e : Engine) (selector : Nat) : Option Nat :=
  match selector with
  | 0 => some e.bbCap.toNat
  | 1 => some e.pqCap.toNat
  | 2 => some e.nodeCount.toNat
  | 3 => some e.root.toNat
  | 4 => some e.mapCount
  | 5 => some p.dataMax
  | 6 => some p.bbMax
  | 7 => some p.pqMax
  | 8 => some nodeMax
  | _ => none

/-- REG_READ (R228). -/
def execRegRead (selector : Nat) (s : State) : Result := s.runRule fun p e =>
  match e.regValue p selector with
  | some v => .ok (e.setRes v)
  | none => raise .invalidArgument

/-- MEM_WR (R229). -/
def execMemWr (byte : Byte) (index : Nat) (s : State) : Result := s.runRule fun p e =>
  if p.dataMax ≤ index then raise .invalidArgument else e.memWrite p .dataMem index byte

/-- One byte of DATA_MEM or OUT_MEM into RES, after the index check both readers make (R230, R231). -/
def Engine.loadByte (p : Params) (e : Engine) (sp : Space) (index : Nat) : Run Engine :=
  if p.dataMax ≤ index then raise .invalidArgument
  else do
    let b ← e.memRead p sp index
    .ok (e.setRes b.toNat)

/-- MEM_RD (R230). -/
def execMemRd (index : Nat) (s : State) : Result := s.runRule fun p e => e.loadByte p .dataMem index

/-- OUT_RD (R231). -/
def execOutRd (index : Nat) (s : State) : Result := s.runRule fun p e => e.loadByte p .outMem index

end Sys2Proof.Machine
end

