-- ==== Sys2Proof/Machine/Freq.lean ====
section
/-! DEFINITION. The frequency-table commands (spec/43_tree_builder.md R171 to R174). -/

namespace Sys2Proof.Machine

/-- `for s = 0 .. 255: FREQ[s] <- 0`. -/
def Engine.clearFreq (e : Engine) : Engine := { e with freq := Vector.replicate 256 0 }

/-- FREQ_CLEAR (R171). -/
def execFreqClear (s : State) : Result := s.runRule fun _ e => .ok e.clearFreq

/-- FREQ_SET (R172). -/
def execFreqSet (symbol : Byte) (s : State) : Result := s.runRule fun _ e =>
  if !dataFits32 s.dataLatch then raise .invalidArgument else .ok (e.setFreq symbol (dataCount s.dataLatch))

/-- FREQ_GET (R173). -/
def execFreqGet (symbol : Byte) (s : State) : Result := s.runRule fun _ e => .ok (e.setRes (e.freqAt symbol).toNat)

/-- `FREQ[c] <- FREQ[c] + 1` (R174). -/
def Engine.countByte (e : Engine) (c : Byte) : Engine := e.setFreq c (e.freqAt c + 1)

/-- FREQ_COUNT (R174). -/
def execFreqCount (length : Nat) (s : State) : Result := s.runRule fun p e =>
  if p.dataMax < length then raise .invalidArgument
  else .ok ((e.inputBytes length).foldl Engine.countByte e.clearFreq)

end Sys2Proof.Machine
end

