-- ==== Sys2Proof/Machine/Dispatch.lean ====
section
/-! DEFINITION. One arm per command of spec/30_encoding.md R94: the whole `complete` transition of spec/60_exceptions.md R245 for that command; a term no word decodes to follows the same rule (log 16). -/

namespace Sys2Proof.Machine

def exec (i : Instr) (s : State) : Host.Outcome State Fault Refusal :=
  match i with
  | .nop => Sys2Proof.Machine.execNop s
  | .softReset => Sys2Proof.Machine.execSoftReset s
  | .clrSticky => Sys2Proof.Machine.execClrSticky s
  | .regRead selector => Sys2Proof.Machine.execRegRead selector s
  | .memWr byte index => Sys2Proof.Machine.execMemWr byte index s
  | .memRd index => Sys2Proof.Machine.execMemRd index s
  | .outRd index => Sys2Proof.Machine.execOutRd index s
  | .bbNew capacity => Sys2Proof.Machine.execBbNew capacity s
  | .bbWrite width numBits => Sys2Proof.Machine.execBbWrite width numBits s
  | .bbReadBit => Sys2Proof.Machine.execBbReadBit s
  | .bbAdvance => Sys2Proof.Machine.execBbAdvance s
  | .bbRewind => Sys2Proof.Machine.execBbRewind s
  | .bbSizeBits => Sys2Proof.Machine.execBbSizeBits s
  | .bbByteOffset => Sys2Proof.Machine.execBbByteOffset s
  | .bbBitOffset => Sys2Proof.Machine.execBbBitOffset s
  | .bbGetByte index => Sys2Proof.Machine.execBbGetByte index s
  | .pqInit capacity => Sys2Proof.Machine.execPqInit capacity s
  | .pqInsert node => Sys2Proof.Machine.execPqInsert node s
  | .pqExtractMin => Sys2Proof.Machine.execPqExtractMin s
  | .pqSize => Sys2Proof.Machine.execPqSize s
  | .pqChangePriority node => Sys2Proof.Machine.execPqChangePriority node s
  | .pqReadHeap heapIndex => Sys2Proof.Machine.execPqReadHeap heapIndex s
  | .freqClear => Sys2Proof.Machine.execFreqClear s
  | .freqSet symbol => Sys2Proof.Machine.execFreqSet symbol s
  | .freqGet symbol => Sys2Proof.Machine.execFreqGet symbol s
  | .freqCount length => Sys2Proof.Machine.execFreqCount length s
  | .nodeNewLeaf symbol => Sys2Proof.Machine.execNodeNewLeaf symbol s
  | .nodeSetWeight node => Sys2Proof.Machine.execNodeSetWeight node s
  | .nodeRead field node => Sys2Proof.Machine.execNodeRead field node s
  | .arenaReset => Sys2Proof.Machine.execArenaReset s
  | .treeBuild => Sys2Proof.Machine.execTreeBuild s
  | .treeHeight => Sys2Proof.Machine.execTreeHeight s
  | .treeFree => Sys2Proof.Machine.execTreeFree s
  | .mapBuild => Sys2Proof.Machine.execMapBuild s
  | .mapGetCode symbol => Sys2Proof.Machine.execMapGetCode symbol s
  | .mapGetLen symbol => Sys2Proof.Machine.execMapGetLen symbol s
  | .encode length => Sys2Proof.Machine.execEncode length s
  | .encSym symbol => Sys2Proof.Machine.execEncSym symbol s
  | .decode length => Sys2Proof.Machine.execDecode length s
  | .decSym => Sys2Proof.Machine.execDecSym s

end Sys2Proof.Machine
end

