-- ==== Sys2Proof/Machine/Window.lean ====
section
/-! DEFINITION. The host's register window (spec/10_state.md R20 to R25, spec/20_memory.md R66 to R69). -/

namespace Sys2Proof.Machine

/-- What a host access reaches. -/
inductive Target where
  /-- Not the HCE: outside the 0x40 bytes at BASE_ADDR (R60, R69). -/
  | outside
  /-- In the window, but not a 64-bit naturally aligned access of a register (R66), or a reserved offset (R20). -/
  | nothing
  | cmd
  | data
  | res
  | status
  | id
  deriving DecidableEq, Repr

/-- The register at a byte offset of the window (R20). -/
def registerAt (offset : Nat) : Target :=
  match offset with
  | 0x00 => .cmd
  | 0x08 => .data
  | 0x10 => .res
  | 0x18 => .status
  | 0x20 => .id
  | _ => .nothing

/-- The window has 0x40 bytes (R60); an access is in it when its address is. -/
def inWindow (base addr : Nat) : Bool := decide (base ≤ addr) && decide (addr < base + 0x40)

/-- What an access of the given width at the given address reaches: only 64-bit accesses whose address is a multiple of 8 are defined (R66). -/
def target (base : Nat) (width : AccessWidth) (addr : Nat) : Target :=
  if !inWindow base addr then .outside
  else if width = .w64 ∧ addr % 8 = 0 then registerAt (addr - base)
  else .nothing

/-- `accept(w)` (spec/60_exceptions.md R245, spec/10_state.md R21). -/
def State.accept (s : State) (w : Word32) : State :=
  { s with cmdLatch := w, dataLatch := s.data, status := s.status.accepted }

/-- A CMD store: accepted while BUSY = 0, else dropped; bits 63:32 are ignored (R21). -/
def State.storeCmd (s : State) (v : Word64) : State :=
  if s.status.busy then { s with status := s.status.dropped } else s.accept (v.extractLsb' 0 32)

/-- A host store (R20 to R25, R66, R68): only CMD and DATA take it. Outside the window it is not the HCE's (log 6). -/
def State.hostStore (s : State) (width : AccessWidth) (addr : Nat) (v : Word64) : Result :=
  match target s.params.baseAddr width addr with
  | .outside => .refused (.outsideWindow addr)
  | .nothing => .next s
  | .cmd => .next (s.storeCmd v)
  | .data => .next { s with data := v }
  | .res => .next s
  | .status => .next s
  | .id => .next s

/-- What the window answers to a load of a register (R20 to R25): reserved offsets and undefined accesses read 0 (R20, R66). -/
def State.readTarget (s : State) : Target → Word64
  | .outside => 0
  | .nothing => 0
  | .cmd => s.cmdLatch.setWidth 64
  | .data => s.data
  | .res => s.engine.res
  | .status => s.status.word
  | .id => idWord

/-- A host load (R68): it changes nothing of the HCE; its answer is put in the model's busOut (log 3). Outside the window it is not the HCE's (log 6). -/
def State.hostLoad (s : State) (width : AccessWidth) (addr : Nat) : Result :=
  match target s.params.baseAddr width addr with
  | .outside => .refused (.outsideWindow addr)
  | t => .next { s with busOut := some (s.readTarget t) }

/-- The byte a 64-bit register value puts on byte lane `i`, the one of address BASE_ADDR + offset + i (R67). -/
def laneByte (v : Word64) (i : Nat) : Byte := v.extractLsb' (8 * i) 8

/-- The reset event (spec/70_reset_and_hazards.md R270): every state element takes its reset value and a running command is abandoned.
What the platform has still to deliver, and what it last read, are not the HCE's (log 15). -/
def State.hardReset (s : State) : State :=
  { State.resetWith s.params with schedule := s.schedule, busOut := s.busOut }

end Sys2Proof.Machine
end

