-- ==== Sys2Proof/Machine/Complete.lean ====
section
/-! DEFINITION. The engine's `complete` transition on the latched command, and the delivery of one event (spec/60_exceptions.md R244, R245, spec/20_memory.md R73). -/

namespace Sys2Proof.Machine

/-- The end of an accepted word whose OPC is reserved: IllegalCommand and no other effect (spec/30_encoding.md R96, R243). -/
def State.illegalCommand (s : State) : Result := s.finish (raise .illegalCommand)

/-- `complete()` (R245): the OPC of CMD_LATCH is decoded first, then its rule runs. -/
def State.completeCommand (s : State) : Result :=
  match decode s.cmdLatch with
  | .ok i => exec i s
  | .error _ => s.illegalCommand

/-- The engine's turn: `complete` is enabled only while BUSY = 1 (R245); an idle engine keeps all its state (R255). -/
def State.engineTurn (s : State) : Result := if s.status.busy then s.completeCommand else .next s

/-- One event of the platform's total order reaches the machine (R73, R244). -/
def State.deliver (s : State) : Event → Result
  | .store width addr value => s.hostStore width addr value
  | .load width addr => s.hostLoad width addr
  | .engine => s.engineTurn
  | .reset => .next s.hardReset

/-- The machine with an instruction word accepted, and the engine's turn the next event. -/
def State.withAccepted (s : State) (w : Word32) : State := { s.accept w with schedule := .engine :: s.schedule }

end Sys2Proof.Machine
end

