-- ==== Sys2Proof/Machine/Step.lean ====
section
/-! DEFINITION. One step: the oldest event of the schedule is delivered, and with none pending the engine has its turn (logs 1, 2 and 11). -/

namespace Sys2Proof.Machine

/-- One transition of spec/60_exceptions.md R245, or one host access or reset event, in the order of spec/20_memory.md R73.
With nothing pending the engine moves, which is the weak fairness of R246 (log 12). -/
def step (s : State) : Host.Outcome State Fault Refusal :=
  match s.schedule with
  | [] => s.engineTurn
  | ev :: rest => State.deliver { s with schedule := rest } ev

/-- `s` with the instruction whose bits are `w` accepted as the running command, so that the very next step completes it (log 11). -/
def State.withFetchWord (s : State) (nbits w : Nat) : State := s.withAccepted (tableWord nbits w)

end Sys2Proof.Machine
end

