-- ==== Sys2Proof/Safety.lean ====
section
/-! DEFINITION. What counts as a safe run of the HCE: the invariant that holds between events, and the words the claims are stated in. -/

namespace Sys2Proof.Machine

/-! ### The operand columns of the opcode map -/

/-- The command's row of spec/30_encoding.md R94 has an operand in column A. -/
def rowNamesA : Instr → Bool
  | .nop => false
  | .softReset => false
  | .clrSticky => false
  | .regRead _ => true
  | .memWr _ _ => true
  | .memRd _ => false
  | .outRd _ => false
  | .bbNew _ => false
  | .bbWrite _ _ => true
  | .bbReadBit => false
  | .bbAdvance => false
  | .bbRewind => false
  | .bbSizeBits => false
  | .bbByteOffset => false
  | .bbBitOffset => false
  | .bbGetByte _ => false
  | .pqInit _ => false
  | .pqInsert _ => false
  | .pqExtractMin => false
  | .pqSize => false
  | .pqChangePriority _ => false
  | .pqReadHeap _ => false
  | .freqClear => false
  | .freqSet _ => true
  | .freqGet _ => true
  | .freqCount _ => false
  | .nodeNewLeaf _ => true
  | .nodeSetWeight _ => false
  | .nodeRead _ _ => true
  | .arenaReset => false
  | .treeBuild => false
  | .treeHeight => false
  | .treeFree => false
  | .mapBuild => false
  | .mapGetCode _ => true
  | .mapGetLen _ => true
  | .encode _ => false
  | .encSym _ => true
  | .decode _ => false
  | .decSym => false

/-- The command's row of R94 has an operand in column B. -/
def rowNamesB : Instr → Bool
  | .nop => false
  | .softReset => false
  | .clrSticky => false
  | .regRead _ => false
  | .memWr _ _ => true
  | .memRd _ => true
  | .outRd _ => true
  | .bbNew _ => true
  | .bbWrite _ _ => true
  | .bbReadBit => false
  | .bbAdvance => false
  | .bbRewind => false
  | .bbSizeBits => false
  | .bbByteOffset => false
  | .bbBitOffset => false
  | .bbGetByte _ => true
  | .pqInit _ => true
  | .pqInsert _ => true
  | .pqExtractMin => false
  | .pqSize => false
  | .pqChangePriority _ => true
  | .pqReadHeap _ => true
  | .freqClear => false
  | .freqSet _ => false
  | .freqGet _ => false
  | .freqCount _ => true
  | .nodeNewLeaf _ => false
  | .nodeSetWeight _ => true
  | .nodeRead _ _ => true
  | .arenaReset => false
  | .treeBuild => false
  | .treeHeight => false
  | .treeFree => false
  | .mapBuild => false
  | .mapGetCode _ => false
  | .mapGetLen _ => false
  | .encode _ => true
  | .encSym _ => false
  | .decode _ => true
  | .decSym => false

/-! ### How a command ends -/

/-- The command completes and leaves the engine state `e` (spec/60_exceptions.md R245): only the engine state, BUSY and ERR_CODE change. -/
def Completes (i : Instr) (s : State) (e : Engine) : Prop :=
  exec i s = .next { s with engine := e, status := { s.status with busy := false, errCode := 0 } }

/-- The command fails with an error code of R241: nothing but STATUS changes (R245). -/
def FailsWith (i : Instr) (s : State) (code : Byte) : Prop :=
  exec i s = .next { s with status := { s.status with busy := false, errAny := true, errCode := code } }

/-! ### Reading the state -/

/-- NODE[i]; NIL names no node and reads as NODE_EMPTY here. -/
def Engine.nodeAt (e : Engine) (i : NodeIdx) : Node := (e.nodes[i.toNat]?).getD Node.empty

/-- HEAP[k]; an index that does not exist reads as NIL here. -/
def Engine.heapAt (e : Engine) (k : Nat) : NodeIdx := if k = 0 then nil else (e.heap[k - 1]?).getD nil

/-- Stream bit `q` of BB_MEM: bit 7 - (q mod 8) of byte q div 8 (spec/20_memory.md R62). -/
def Engine.bitAt (e : Engine) (q : Nat) : Bool := (e.bbMem.read (q / 8)).getLsbD (7 - q % 8)

/-- The weight of the node at heap index `k`. -/
def Engine.heapWeight (e : Engine) (k : Nat) : Nat := (e.nodeAt (e.heapAt k)).weight.toNat

/-- A node is queued when its position slot is not 0 (spec/10_state.md R28). -/
def Engine.queued (e : Engine) (i : NodeIdx) : Prop := (e.nodeAt i).heapSlot ≠ 0

/-- The symbols with a non-zero count, in ascending order: n of spec/00_scope.md R17 is its length. -/
def Engine.present (e : Engine) : List Byte := symbols.filter (fun c => e.freqAt c ≠ 0)

/-! ### Parameters, memories, bit buffer, map and status -/

/-- The legal parameters of R9, and a window whose registers an aligned access can reach (log 5). -/
structure ParamsOk (p : Params) : Prop where
  pqMax_ge : 256 ≤ p.pqMax
  pqMax_le : p.pqMax ≤ 511
  dataMax_ge : 1 ≤ p.dataMax
  dataMax_le : p.dataMax ≤ p.bbMax
  bbMax_le : p.bbMax ≤ 65535
  base_aligned : p.baseAddr % 8 = 0

/-- A memory is in canonical form and lists no address that does not exist (spec/20_memory.md R60, R61). -/
abbrev MemoryOk (size : Nat) (m : Memory) : Prop := m.wf ∧ ∀ c ∈ m, c.1 < size

/-- The bit-buffer invariants of spec/10_state.md R36, and the range of BB_CAP (R34). -/
structure BufferOk (p : Params) (e : Engine) : Prop where
  memory : MemoryOk p.bbMax e.bbMem
  cursor_le : e.cursor ≤ e.bbTotal.toNat
  cap_ge : 1 ≤ e.bbCap.toNat
  total_le : ceil8 e.bbTotal.toNat ≤ e.bbCap.toNat
  cap_le : e.bbCap.toNat ≤ p.bbMax
  tail_zero : ∀ q, e.bbTotal.toNat ≤ q → e.bitAt q = false

/-- One map entry: absent entries are all 0 (R32), present ones have 1 to 64 bits and a code below 2^len (spec/44_encoding_map.md R204 item 3). -/
abbrev EntryOk (c : CodeEntry) : Prop :=
  if c.valid then 1 ≤ c.len.toNat ∧ c.len.toNat ≤ 64 ∧ c.code.toNat < 2 ^ c.len.toNat else c = CodeEntry.absent

/-- STATUS holds a code of R241, and an error code only with ERR_ANY set (R24). -/
abbrev StatusOk (st : Status) : Prop := st.errCode.toNat ≤ 8 ∧ (st.errCode ≠ 0 → st.errAny = true)

/-- Every element of the engine state has its reset value (spec/10_state.md R43). -/
structure EngineIsReset (p : Params) (e : Engine) : Prop where
  res : e.res = 0
  freq : ∀ c, e.freqAt c = 0
  nodes : ∀ i, e.nodeAt i = ⟨false, false, false, 0, 0, 511, 511, 0⟩
  nodeCount : e.nodeCount = 0
  root : e.root = 511
  heap : ∀ k, e.heapAt k = 511
  pqSize : e.pqSize = 0
  pqCap : e.pqCap.toNat = p.pqMax
  codeMap : ∀ c, e.mapAt c = ⟨false, 0, 0⟩
  bbMem : ∀ a, e.bbMem.read a = 0
  bbCap : e.bbCap = 1
  bbTotal : e.bbTotal = 0
  bbByteOff : e.bbByteOff = 0
  bbBitOff : e.bbBitOff = 0
  dataMem : ∀ a, e.dataMem.read a = 0
  outMem : ∀ a, e.outMem.read a = 0

/-! ### The queue and the arena -/

/-- The queue bounds of spec/42_priority_queue.md R163, the vacated entries of spec/10_state.md R31 and the slot invariant of R162. -/
structure QueueOk (p : Params) (e : Engine) : Prop where
  size_le : e.pqSize.toNat ≤ e.pqCap.toNat
  cap_le : e.pqCap.toNat ≤ p.pqMax
  vacant : ∀ k, e.pqSize.toNat < k → e.heapAt k = nil
  entry_slot : ∀ k, 1 ≤ k → k ≤ e.pqSize.toNat →
    (e.nodeAt (e.heapAt k)).valid = true ∧ (e.nodeAt (e.heapAt k)).heapSlot.toNat = k
  slot_entry : ∀ i, e.queued i →
    (e.nodeAt i).heapSlot.toNat ≤ e.pqSize.toNat ∧ e.heapAt (e.nodeAt i).heapSlot.toNat = i

/-- The heap invariant of R162: no node weighs less than its parent. -/
def HeapOrdered (e : Engine) : Prop := ∀ k, 2 ≤ k → k ≤ e.pqSize.toNat → e.heapWeight (k / 2) ≤ e.heapWeight k

/-- The arena: NODE_COUNT's range (spec/10_state.md R29), the empty entries (R28), and scratch nodes, which are leaves
(spec/43_tree_builder.md R175); between commands only scratch nodes are queued (R183). -/
structure ArenaOk (e : Engine) : Prop where
  count_le : e.nodeCount.toNat ≤ 511
  unallocated : ∀ i : NodeIdx, e.nodeCount.toNat ≤ i.toNat → e.nodeAt i = Node.empty
  freed : ∀ i, (e.nodeAt i).valid = false → e.nodeAt i = Node.empty
  scratch : ∀ i, (e.nodeAt i).valid = true → (e.nodeAt i).inTree = false →
    (e.nodeAt i).leaf = true ∧ (e.nodeAt i).left = nil ∧ (e.nodeAt i).right = nil
  queued_scratch : ∀ i, e.queued i → (e.nodeAt i).inTree = false

/-! ### The tree -/

/-- A binary tree of node indices: every internal node has two children, every leaf none (spec/43_tree_builder.md R181 item 2). -/
inductive Shape where
  | leaf (i : NodeIdx)
  | branch (i : NodeIdx) (l r : Shape)
  deriving DecidableEq, Repr

/-- The index of the top node. -/
def Shape.root : Shape → NodeIdx
  | .leaf i => i
  | .branch i _ _ => i

/-- The indices of all its nodes. -/
def Shape.indices : Shape → List NodeIdx
  | .leaf i => [i]
  | .branch i l r => i :: (l.indices ++ r.indices)

/-- The indices of its leaves, left to right. -/
def Shape.leaves : Shape → List NodeIdx
  | .leaf i => [i]
  | .branch _ l r => l.leaves ++ r.leaves

/-- The height: leaf 0, internal 1 + the larger of the two (spec/43_tree_builder.md R170). -/
def Shape.height : Shape → Nat
  | .leaf _ => 0
  | .branch _ l r => 1 + max l.height r.height

/-- The leaves with the branches that lead to them, left = false, right = true (spec/44_encoding_map.md R200). -/
def Shape.paths : Shape → List (NodeIdx × List Bool)
  | .leaf i => [(i, [])]
  | .branch _ l r => l.paths.map (fun x => (x.1, false :: x.2)) ++ r.paths.map (fun x => (x.1, true :: x.2))

/-- The arena holds the shape: leaves and internal nodes as TREE_BUILD makes them (spec/43_tree_builder.md R179), with the
weight of an internal node the exact sum of its children's (R181 item 3). -/
def Shape.fits (e : Engine) : Shape → Bool
  | .leaf i =>
    (e.nodeAt i).valid && (e.nodeAt i).leaf && (e.nodeAt i).inTree && decide ((e.nodeAt i).left = nil) &&
      decide ((e.nodeAt i).right = nil)
  | .branch i l r =>
    (e.nodeAt i).valid && !(e.nodeAt i).leaf && (e.nodeAt i).inTree && decide ((e.nodeAt i).symbol = 0) &&
      decide ((e.nodeAt i).left = l.root) && decide ((e.nodeAt i).right = r.root) &&
      decide ((e.nodeAt i).weight.toNat = (e.nodeAt l.root).weight.toNat + (e.nodeAt r.root).weight.toNat) &&
      l.fits e && r.fits e

/-- `t` is the tree under ROOT: it holds every node of the tree once, and no symbol twice. -/
structure TreeIs (e : Engine) (t : Shape) : Prop where
  root_eq : t.root = e.root
  fits : t.fits e = true
  nodup : t.indices.Nodup
  all : ∀ i, (e.nodeAt i).inTree = true ↔ i ∈ t.indices
  symbols_nodup : (t.leaves.map (fun i => (e.nodeAt i).symbol)).Nodup

/-- There is no tree and no node of one, or there is exactly one tree, under ROOT (spec/10_state.md R30). -/
def TreeOk (e : Engine) : Prop := (e.root = nil ∧ ∀ i, (e.nodeAt i).inTree = false) ∨ ∃ t, TreeIs e t

/-! ### The invariant -/

/-- The event can reach this instance: its address, if it has one, lies in the window (log 6). -/
def Event.delivered (p : Params) : Event → Bool
  | .store _ addr _ => inWindow p.baseAddr addr
  | .load _ addr => inWindow p.baseAddr addr
  | .engine => true
  | .reset => true

/-- What holds between events, whatever the host does. -/
structure Inv (s : State) : Prop where
  params : ParamsOk s.params
  status : StatusOk s.status
  dataMem : MemoryOk s.params.dataMax s.engine.dataMem
  outMem : MemoryOk s.params.dataMax s.engine.outMem
  buffer : BufferOk s.params s.engine
  codeMap : ∀ c, EntryOk (s.engine.mapAt c)
  queue : QueueOk s.params s.engine
  arena : ArenaOk s.engine
  tree : TreeOk s.engine
  schedule : ∀ ev ∈ s.schedule, Event.delivered s.params ev = true

/-! ### Which part of the engine state a command may write -/

/-- The parts of the engine state; a node is split into its slot, its weight and the rest. -/
inductive Part where
  | res | freq | nodeSlot | nodeWeight | nodeRest | nodeCount | root | heap | pqSize | pqCap | codeMap
  | bbMem | bbCap | bbTotal | cursor | dataMem | outMem
  deriving DecidableEq, Repr

/-- All parts. -/
def Part.all : List Part :=
  [.res, .freq, .nodeSlot, .nodeWeight, .nodeRest, .nodeCount, .root, .heap, .pqSize, .pqCap, .codeMap,
   .bbMem, .bbCap, .bbTotal, .cursor, .dataMem, .outMem]

/-- The two engine states agree on a part. -/
def Part.same (a b : Engine) : Part → Prop
  | .res => a.res = b.res
  | .freq => a.freq = b.freq
  | .nodeSlot => ∀ i, (a.nodeAt i).heapSlot = (b.nodeAt i).heapSlot
  | .nodeWeight => ∀ i, (a.nodeAt i).weight = (b.nodeAt i).weight
  | .nodeRest => ∀ i, { a.nodeAt i with heapSlot := 0, weight := 0 } = { b.nodeAt i with heapSlot := 0, weight := 0 }
  | .nodeCount => a.nodeCount = b.nodeCount
  | .root => a.root = b.root
  | .heap => a.heap = b.heap
  | .pqSize => a.pqSize = b.pqSize
  | .pqCap => a.pqCap = b.pqCap
  | .codeMap => a.codeMap = b.codeMap
  | .bbMem => a.bbMem = b.bbMem
  | .bbCap => a.bbCap = b.bbCap
  | .bbTotal => a.bbTotal = b.bbTotal
  | .cursor => a.bbByteOff = b.bbByteOff ∧ a.bbBitOff = b.bbBitOff
  | .dataMem => a.dataMem = b.dataMem
  | .outMem => a.outMem = b.outMem

/-- The parts each command's rule writes (spec/41_bitbuffer.md to spec/46_control.md). -/
def partsWritten : Instr → List Part
  | .nop => []
  | .softReset => Part.all
  | .clrSticky => []
  | .regRead _ => [.res]
  | .memWr _ _ => [.dataMem]
  | .memRd _ => [.res]
  | .outRd _ => [.res]
  | .bbNew _ => [.bbMem, .bbCap, .bbTotal, .cursor]
  | .bbWrite _ _ => [.bbMem, .bbCap, .bbTotal, .cursor]
  | .bbReadBit => [.res]
  | .bbAdvance => [.cursor]
  | .bbRewind => [.cursor]
  | .bbSizeBits => [.res]
  | .bbByteOffset => [.res]
  | .bbBitOffset => [.res]
  | .bbGetByte _ => [.res]
  | .pqInit _ => [.nodeSlot, .heap, .pqSize, .pqCap]
  | .pqInsert _ => [.nodeSlot, .heap, .pqSize]
  | .pqExtractMin => [.res, .nodeSlot, .heap, .pqSize]
  | .pqSize => [.res]
  | .pqChangePriority _ => [.nodeSlot, .heap]
  | .pqReadHeap _ => [.res]
  | .freqClear => [.freq]
  | .freqSet _ => [.freq]
  | .freqGet _ => [.res]
  | .freqCount _ => [.freq]
  | .nodeNewLeaf _ => [.res, .nodeSlot, .nodeWeight, .nodeRest, .nodeCount]
  | .nodeSetWeight _ => [.nodeWeight]
  | .nodeRead _ _ => [.res]
  | .arenaReset => [.nodeSlot, .nodeWeight, .nodeRest, .nodeCount, .root, .heap, .pqSize]
  | .treeBuild => [.res, .nodeSlot, .nodeWeight, .nodeRest, .nodeCount, .root, .heap, .pqSize, .pqCap]
  | .treeHeight => [.res]
  | .treeFree => [.nodeSlot, .nodeWeight, .nodeRest, .root]
  | .mapBuild => [.res, .codeMap]
  | .mapGetCode _ => [.res]
  | .mapGetLen _ => [.res]
  | .encode _ => [.res, .bbMem, .bbCap, .bbTotal, .cursor]
  | .encSym _ => [.bbMem, .bbCap, .bbTotal, .cursor]
  | .decode _ => [.res, .cursor, .outMem]
  | .decSym => [.res, .cursor]

/-! ### Codes, streams and walks -/

/-- The bits of a path read as a number, first branch most significant (spec/44_encoding_map.md R200). -/
def pathCode (bits : List Bool) : Nat := bits.foldl (fun c b => 2 * c + b.toNat) 0

/-- The path to the leaf that carries a symbol. -/
def Shape.pathOf (e : Engine) (t : Shape) (c : Byte) : Option (List Bool) :=
  (t.paths.find? (fun x => decide ((e.nodeAt x.1).symbol = c))).map (fun x => x.2)

/-- The map entry of a symbol for the tree `t`: its path, or the 1-bit code 0 when the tree is one leaf (R201). -/
def Shape.entry (e : Engine) (t : Shape) (c : Byte) : CodeEntry :=
  match t.pathOf e c with
  | none => { valid := false, code := 0, len := 0 }
  | some bits => { valid := true, code := BitVec.ofNat 64 (pathCode bits), len := BitVec.ofNat 7 (max bits.length 1) }

/-- The bits of a map entry in stream order, first bit = bit len-1 of the code (R202, spec/20_memory.md R63). -/
def CodeEntry.bits (c : CodeEntry) : List Bool := (List.range c.len.toNat).map (fun j => c.code.getLsbD (c.len.toNat - 1 - j))

/-- The stream ENCODE writes for a list of input bytes (spec/45_codec.md R211). -/
def Engine.stream (e : Engine) (input : List Byte) : List Bool := input.flatMap (fun c => (e.mapAt c).bits)

/-- The bits of the stream from position `q` on are `bits`. -/
def Engine.streamHas (e : Engine) (q : Nat) (bits : List Bool) : Prop := ∀ j b, bits[j]? = some b → e.bitAt (q + j) = b

/-- The bits at position `q` lead from ROOT to the leaf `i`, and the next code starts at `q'`; a one-leaf tree consumes one bit (spec/45_codec.md R210). -/
def Shape.leads (e : Engine) (t : Shape) (q : Nat) (i : NodeIdx) (q' : Nat) : Prop :=
  ∃ bits, (i, bits) ∈ t.paths ∧ e.streamHas q bits ∧ q' = q + max bits.length 1

/-- The stream from `q` to `q'` decodes to the symbols `cs`, within the logical length (R213). -/
def Shape.decodesTo (e : Engine) (t : Shape) : List Byte → Nat → Nat → Prop
  | [], q, q' => q = q'
  | c :: cs, q, q' => ∃ i m, t.leads e q i m ∧ (e.nodeAt i).symbol = c ∧ m ≤ e.bbTotal.toNat ∧ t.decodesTo e cs m q'

/-- `b` holds the tree of `a`: the same ROOT, and the same record at every node of the tree (spec/10_state.md R28, R30). -/
def SameTree (a b : Engine) : Prop := b.root = a.root ∧ ∀ i, (a.nodeAt i).inTree = true → b.nodeAt i = a.nodeAt i

/-- `cap` is what a logical capacity `c0` has grown to when `need` bytes are in use (spec/41_bitbuffer.md R121). -/
def GrownTo (bbMax c0 need cap : Nat) : Prop :=
  ∃ k, cap = min bbMax (c0 * 2 ^ k) ∧ need ≤ c0 * 2 ^ k ∧ ∀ j, j < k → c0 * 2 ^ j < need

/-- No code of the map is a prefix of another symbol's code (spec/44_encoding_map.md R204 item 2). -/
def PrefixFree (e : Engine) : Prop :=
  ∀ c d, c ≠ d → (e.mapAt c).valid = true → (e.mapAt d).valid = true → ¬ (e.mapAt c).bits <+: (e.mapAt d).bits

/-- `m` ancestors of heap index `k` moved one place down and the node `i` stands where the last of them stood: what sift-up
of a new last element leaves (spec/42_priority_queue.md R152, R154). -/
def SiftedUp (a b : Engine) (i : NodeIdx) (k m : Nat) : Prop :=
  (∀ j, j < m → 1 ≤ k / 2 ^ (j + 1) ∧ (a.nodeAt i).weight.toNat < a.heapWeight (k / 2 ^ (j + 1))) ∧
  (k / 2 ^ (m + 1) = 0 ∨ a.heapWeight (k / 2 ^ (m + 1)) ≤ (a.nodeAt i).weight.toNat) ∧
  b.heapAt (k / 2 ^ m) = i ∧
  (∀ j, j < m → b.heapAt (k / 2 ^ j) = a.heapAt (k / 2 ^ (j + 1))) ∧
  ∀ h, (∀ j, j ≤ m → h ≠ k / 2 ^ j) → b.heapAt h = a.heapAt h

/-- The child sift-down compares with in a heap of `size` entries: the right one only when it is there and strictly lighter (R153). -/
def Engine.lighterChild (e : Engine) (size k : Nat) : Nat :=
  if 2 * k + 1 ≤ size ∧ e.heapWeight (2 * k + 1) < e.heapWeight (2 * k) then 2 * k + 1 else 2 * k

/-- The heap index `j` levels below `k` on the way sift-down takes (R153). -/
def Engine.downPath (e : Engine) (size k : Nat) : Nat → Nat
  | 0 => k
  | j + 1 => e.lighterChild size (e.downPath size k j)

/-- `m` strictly lighter entries below heap index `k` moved one place up and the node `i` stands where the last of them stood:
what sift-down leaves of a heap of `size` entries (R153, R155). -/
def SiftedDown (a b : Engine) (i : NodeIdx) (size k m : Nat) : Prop :=
  (∀ j, j < m → 2 * a.downPath size k j ≤ size ∧ a.heapWeight (a.downPath size k (j + 1)) < (a.nodeAt i).weight.toNat) ∧
  (size < 2 * a.downPath size k m ∨ (a.nodeAt i).weight.toNat ≤ a.heapWeight (a.downPath size k (m + 1))) ∧
  b.heapAt (a.downPath size k m) = i ∧
  (∀ j, j < m → b.heapAt (a.downPath size k j) = a.heapAt (a.downPath size k (j + 1))) ∧
  ∀ h, h ≤ size → (∀ j, j ≤ m → h ≠ a.downPath size k j) → b.heapAt h = a.heapAt h

end Sys2Proof.Machine
end

