-- ==== Sys2Proof/Certificates/Slice0/Obligations.lean ====
section
/-! DEFINITION. The statements for the provers, family by family; each docstring names the rule of spec/ it formalises. -/

open Sys2Proof Sys2Proof.Machine

/-! ### Encoding -/

/-- Every well-formed command comes back from its command word (spec/30_encoding.md R91 to R95). -/
def Obligations.DecodeEncodeRoundTrip : Prop := ∀ i : Instr, i.wellFormed = true → decode (encode i) = .ok i

/-- A word that decodes gives a well-formed command of the word's OPC, and each operand the command's row names is the word's
field exactly (R91, R92); every word with the same OPC and the same used fields decodes to the same command, whatever its unused
fields hold (R93), and every word with the same OPC decodes to a command of that OPC (R95). -/
def Obligations.DecodingReadsOpcAndUsedFields : Prop :=
  ∀ (w : Word32) (i : Instr), decode w = .ok i →
    i.wellFormed = true ∧ i.opcode = (opcField w).toNat ∧
    (rowNamesA i = true → i.aOperand = (aField w).toNat) ∧ (rowNamesB i = true → i.bOperand = bField w) ∧
    ∀ w' : Word32, opcField w' = opcField w →
      (∃ i', decode w' = .ok i' ∧ i'.opcode = i.opcode) ∧
      ((rowNamesA i = true → aField w' = aField w) → (rowNamesB i = true → bField w' = bField w) → decode w' = .ok i)

/-- Command words written out from the map of R94 decode to the commands they stand for. -/
def Obligations.WordsOfTheOpcodeMapDecode : Prop :=
  decode 0x00000000 = .ok .nop ∧ decode 0x03040000 = .ok (.regRead 4) ∧ decode 0x10410003 = .ok (.memWr 0x41 3) ∧
  decode 0x21080004 = .ok (.bbWrite 8 4) ∧ decode 0x34000002 = .ok (.pqChangePriority 2) ∧
  decode 0x41420000 = .ok (.freqSet 0x42) ∧ decode 0x46050002 = .ok (.nodeRead 5 2) ∧ decode 0x50000000 = .ok .treeBuild ∧
  decode 0x61420000 = .ok (.mapGetCode 0x42) ∧ decode 0x72000006 = .ok (.decode 6)

/-- An accepted word whose OPC is in a range of R96 fails with IllegalCommand when the engine has its turn, and changes nothing else. -/
def Obligations.ReservedOpcodeFailsWithIllegalCommand : Prop :=
  ∀ s : State, s.status.busy = true → s.schedule = [] →
    (let o := (opcField s.cmdLatch).toNat
     (0x04 ≤ o ∧ o ≤ 0x0F) ∨ (0x13 ≤ o ∧ o ≤ 0x1F) ∨ (0x29 ≤ o ∧ o ≤ 0x2F) ∨ (0x36 ≤ o ∧ o ≤ 0x3F) ∨
     (0x48 ≤ o ∧ o ≤ 0x4F) ∨ (0x53 ≤ o ∧ o ≤ 0x5F) ∨ (0x63 ≤ o ∧ o ≤ 0x6F) ∨ 0x74 ≤ o) →
    step s = .next { s with status := { s.status with busy := false, errAny := true, errCode := 8 } }

/-! ### Steps and the host window -/

/-- While BUSY = 1 and the latched word decodes to a command, the engine's turn (the next event, or any step with no event
pending) is that command's `complete` transition (spec/60_exceptions.md R245). -/
def Obligations.StepRunsTheDecodedCommand : Prop :=
  ∀ (s : State) (i : Instr), s.status.busy = true → decode s.cmdLatch = .ok i →
    (s.schedule = [] → step s = exec i s) ∧
    ∀ rest, s.schedule = .engine :: rest → step s = exec i { s with schedule := rest }

/-- With no event pending and BUSY = 0 nothing changes (R255); the engine's turn changes nothing then either. -/
def Obligations.IdleEngineKeepsItsState : Prop :=
  ∀ s : State, s.status.busy = false →
    (s.schedule = [] → step s = .next s) ∧
    ∀ rest, s.schedule = .engine :: rest → step s = .next { s with schedule := rest }

/-- A CMD store (64 bits, aligned, offset 0): accepted while BUSY = 0, dropped while BUSY = 1 (spec/10_state.md R21). -/
def Obligations.CmdStoreIsAcceptedOrDropped : Prop :=
  ∀ (s : State) (v : Word64) (rest : List Event), s.params.baseAddr % 8 = 0 →
    s.schedule = .store .w64 s.params.baseAddr v :: rest →
    (s.status.busy = false → step s = .next { s with
      cmdLatch := BitVec.ofNat 32 v.toNat, dataLatch := s.data, status := { s.status with busy := true }, schedule := rest }) ∧
    (s.status.busy = true → step s = .next { s with status := { s.status with cmdDropped := true }, schedule := rest })

/-- A DATA store changes DATA alone, whether a command runs or not; a store to RES, STATUS, ID or a reserved offset changes nothing (R20, R22 to R25, spec/20_memory.md R68). -/
def Obligations.OtherStoresWriteDataOrNothing : Prop :=
  ∀ (s : State) (off : Nat) (v : Word64) (rest : List Event), s.params.baseAddr % 8 = 0 → off < 0x40 → off % 8 = 0 → off ≠ 0 →
    s.schedule = .store .w64 (s.params.baseAddr + off) v :: rest →
    step s = .next { s with data := if off = 8 then v else s.data, schedule := rest }

/-- An aligned 64-bit load answers the register at its offset and changes nothing of the HCE (R20 to R25, R68); the answer stands in the model's own busOut (log 3). -/
def Obligations.LoadsAnswerTheRegister : Prop :=
  ∀ (s : State) (off : Nat) (rest : List Event), s.params.baseAddr % 8 = 0 → off < 0x40 → off % 8 = 0 →
    s.schedule = .load .w64 (s.params.baseAddr + off) :: rest →
    step s = .next { s with schedule := rest, busOut := some (
      if off = 0x00 then s.cmdLatch.setWidth 64
      else if off = 0x08 then s.data
      else if off = 0x10 then s.engine.res
      else if off = 0x18 then
        BitVec.ofNat 64 (s.status.busy.toNat + 2 * s.status.errAny.toNat + 4 * s.status.cmdDropped.toNat + 256 * s.status.errCode.toNat)
      else if off = 0x20 then 0x4843450000010007
      else 0) }

/-- In the window, a store that is narrower than 64 bits or not 8-byte aligned has no effect, and such a load answers 0 (R66).
That an access belongs to the window when its lowest address does, also one that runs past the window's end, is the model's
choice (log 6); the answer stands in the model's own busOut (log 3). -/
def Obligations.UndefinedAccessesDoNothing : Prop :=
  ∀ (s : State) (width : AccessWidth) (addr : Nat) (v : Word64) (rest : List Event),
    s.params.baseAddr ≤ addr → addr < s.params.baseAddr + 0x40 → (width ≠ .w64 ∨ addr % 8 ≠ 0) →
    (s.schedule = .store width addr v :: rest → step s = .next { s with schedule := rest }) ∧
    (s.schedule = .load width addr :: rest → step s = .next { s with schedule := rest, busOut := some 0 })

/-! ### Reset -/

/-- The reset event gives every state element the value of R43 and abandons a running command (spec/70_reset_and_hazards.md R270).
What the platform has still to deliver, and what it last read, stay: they are the model's own fields (log 15). -/
def Obligations.ResetEventGivesTheResetValues : Prop :=
  ∀ (s : State) (rest : List Event), s.params.pqMax ≤ 511 → s.schedule = .reset :: rest →
    ∃ e, EngineIsReset s.params e ∧
      step s = .next { s with
        cmdLatch := 0, dataLatch := 0, data := 0, status := ⟨false, false, false, 0⟩, engine := e, schedule := rest }

/-- The invariant of the model holds right after reset, for all legal parameters. -/
def Obligations.InvariantHoldsAfterReset : Prop := ∀ p : Params, ParamsOk p → Inv (State.resetWith p)

/-! ### The whole machine -/

/-- Every step keeps the invariant, whatever the host does. -/
def Obligations.StepKeepsTheInvariant : Prop := ∀ s t : State, Inv s → step s = .next t → Inv t

/-- From a state that satisfies the invariant every step answers a next state: `complete` is always defined (R246). -/
def Obligations.StepIsAlwaysDefined : Prop := ∀ s : State, Inv s → ∃ t, step s = .next t

/-- A command that ends clears BUSY and leaves alone DATA, both latches, the parameters and what the platform holds: the engine never writes them (R22, R24). -/
def Obligations.CommandsLeaveTheHostSideAlone : Prop :=
  ∀ (i : Instr) (s t : State), exec i s = .next t →
    t.status.busy = false ∧ t.data = s.data ∧ t.cmdLatch = s.cmdLatch ∧ t.dataLatch = s.dataLatch ∧
    t.params = s.params ∧ t.schedule = s.schedule ∧ t.busOut = s.busOut

/-- A command that ends with an error code has changed nothing but STATUS: the engine state, DATA, both latches and the parameters
are as before, and so is what the platform holds; in STATUS it has cleared BUSY, set ERR_ANY and kept CMD_DROPPED (R242, R245). -/
def Obligations.FailedCommandsChangeOnlyStatus : Prop :=
  ∀ (i : Instr) (s t : State), exec i s = .next t → t.status.errCode ≠ 0 →
    t.engine = s.engine ∧ t.data = s.data ∧ t.cmdLatch = s.cmdLatch ∧ t.dataLatch = s.dataLatch ∧ t.params = s.params ∧
    t.schedule = s.schedule ∧ t.busOut = s.busOut ∧
    t.status.busy = false ∧ t.status.errAny = true ∧ t.status.cmdDropped = s.status.cmdDropped ∧ t.status.errCode.toNat ≤ 8

/-- The frame of every command: each part of the engine state its rule does not write is as before (41 to 46 of spec/). -/
def Obligations.CommandsWriteOnlyTheirParts : Prop :=
  ∀ (i : Instr) (s t : State), exec i s = .next t → ∀ x : Part, x ∉ partsWritten i → Part.same s.engine t.engine x

/-- No command but CLR_STICKY and SOFT_RESET clears ERR_ANY, or changes CMD_DROPPED (R24). -/
def Obligations.StickyBitsStayUntilCleared : Prop :=
  ∀ (i : Instr) (s t : State), i ≠ .clrSticky → i ≠ .softReset → exec i s = .next t →
    (s.status.errAny = true → t.status.errAny = true) ∧ t.status.cmdDropped = s.status.cmdDropped

/-! ### Control and data memories -/

/-- NOP completes and changes nothing else; CLR_STICKY completes and clears the two sticky bits (spec/46_control.md R225, R227). -/
def Obligations.NopCompletesAndClrStickyClears : Prop :=
  ∀ s : State, Completes .nop s s.engine ∧
    exec .clrSticky s = .next { s with status := ⟨false, false, false, 0⟩ }

/-- SOFT_RESET gives the engine its reset values and clears STATUS; DATA and the latches stay (R226, R271). -/
def Obligations.SoftResetKeepsDataAndLatches : Prop :=
  ∀ s : State, s.params.pqMax ≤ 511 → ∃ e, EngineIsReset s.params e ∧
    exec .softReset s = .next { s with engine := e, status := ⟨false, false, false, 0⟩ }

/-- REG_READ reads the register or parameter its selector names; above 8 it fails with InvalidArgument (R228). -/
def Obligations.RegReadReadsItsSelector : Prop :=
  ∀ s : State,
    Completes (.regRead 0) s { s.engine with res := BitVec.ofNat 64 s.engine.bbCap.toNat } ∧
    Completes (.regRead 1) s { s.engine with res := BitVec.ofNat 64 s.engine.pqCap.toNat } ∧
    Completes (.regRead 2) s { s.engine with res := BitVec.ofNat 64 s.engine.nodeCount.toNat } ∧
    Completes (.regRead 3) s { s.engine with res := BitVec.ofNat 64 s.engine.root.toNat } ∧
    Completes (.regRead 4) s { s.engine with res := BitVec.ofNat 64 (symbols.filter (fun c => (s.engine.mapAt c).valid)).length } ∧
    Completes (.regRead 5) s { s.engine with res := BitVec.ofNat 64 s.params.dataMax } ∧
    Completes (.regRead 6) s { s.engine with res := BitVec.ofNat 64 s.params.bbMax } ∧
    Completes (.regRead 7) s { s.engine with res := BitVec.ofNat 64 s.params.pqMax } ∧
    Completes (.regRead 8) s { s.engine with res := 511 } ∧
    ∀ selector, 8 < selector → FailsWith (.regRead selector) s 2

/-- MEM_WR sets one byte of DATA_MEM and no other; an index at or above DATA_MAX fails with InvalidArgument (R229). -/
def Obligations.MemWrSetsOneByte : Prop :=
  ∀ (s : State) (byte : Byte) (index : Nat),
    (s.engine.dataMem.wf → index < s.params.dataMax → ∃ e, Completes (.memWr byte index) s e ∧
      e = { s.engine with dataMem := e.dataMem } ∧ e.dataMem.wf ∧ e.dataMem.read index = byte ∧
      ∀ a, a ≠ index → e.dataMem.read a = s.engine.dataMem.read a) ∧
    (s.params.dataMax ≤ index → FailsWith (.memWr byte index) s 2)

/-- MEM_RD and OUT_RD read one byte of DATA_MEM and OUT_MEM into RES; an index at or above DATA_MAX fails with InvalidArgument (R230, R231). -/
def Obligations.MemRdAndOutRdReadOneByte : Prop :=
  ∀ (s : State) (index : Nat),
    (index < s.params.dataMax →
      Completes (.memRd index) s { s.engine with res := (s.engine.dataMem.read index).setWidth 64 } ∧
      Completes (.outRd index) s { s.engine with res := (s.engine.outMem.read index).setWidth 64 }) ∧
    (s.params.dataMax ≤ index → FailsWith (.memRd index) s 2 ∧ FailsWith (.outRd index) s 2)

/-! ### Bit buffer -/

/-- BB_NEW makes an empty buffer of capacity max(B, 1), every byte 0; above BB_MAX it fails with AllocationFailure (spec/41_bitbuffer.md R120). -/
def Obligations.BbNewMakesAnEmptyBuffer : Prop :=
  ∀ (s : State) (capacity : Nat), ParamsOk s.params →
    (capacity ≤ s.params.bbMax → ∃ e, Completes (.bbNew capacity) s e ∧
      e = { s.engine with bbMem := e.bbMem, bbCap := e.bbCap, bbTotal := 0, bbByteOff := 0, bbBitOff := 0 } ∧
      e.bbCap.toNat = max capacity 1 ∧ ∀ a, e.bbMem.read a = 0) ∧
    (s.params.bbMax < capacity → FailsWith (.bbNew capacity) s 1)

/-- BB_WRITE appends the low B bits of DATA, most significant first, at BB_TOTAL, leaves every other bit, moves the cursor to
the end and grows the capacity by doubling (R119, R121, R122). -/
def Obligations.BbWriteAppendsTheLowBits : Prop :=
  ∀ (s : State) (width numBits : Nat), ParamsOk s.params → BufferOk s.params s.engine →
    (width = 8 ∨ width = 16 ∨ width = 32 ∨ width = 64) → numBits ≤ width →
    (s.engine.bbTotal.toNat + numBits + 7) / 8 ≤ s.params.bbMax →
    ∃ e, Completes (.bbWrite width numBits) s e ∧
      e = { s.engine with bbMem := e.bbMem, bbCap := e.bbCap, bbTotal := e.bbTotal, bbByteOff := e.bbByteOff, bbBitOff := e.bbBitOff } ∧
      e.bbTotal.toNat = s.engine.bbTotal.toNat + numBits ∧
      e.bbByteOff.toNat = e.bbTotal.toNat / 8 ∧ e.bbBitOff.toNat = e.bbTotal.toNat % 8 ∧
      (∀ j, j < numBits → e.bitAt (s.engine.bbTotal.toNat + j) = s.dataLatch.getLsbD (numBits - 1 - j)) ∧
      (∀ q, q < s.engine.bbTotal.toNat → e.bitAt q = s.engine.bitAt q) ∧
      (∀ q, e.bbTotal.toNat ≤ q → e.bitAt q = false) ∧
      GrownTo s.params.bbMax s.engine.bbCap.toNat ((e.bbTotal.toNat + 7) / 8) e.bbCap.toNat

/-- BB_WRITE's errors in check order: a bad width, more bits than the width, then a stream beyond BB_MAX bytes (R121, R122, R243). -/
def Obligations.BbWriteFailsInCheckOrder : Prop :=
  ∀ (s : State) (width numBits : Nat),
    (¬ (width = 8 ∨ width = 16 ∨ width = 32 ∨ width = 64) → FailsWith (.bbWrite width numBits) s 2) ∧
    ((width = 8 ∨ width = 16 ∨ width = 32 ∨ width = 64) → width < numBits → FailsWith (.bbWrite width numBits) s 2) ∧
    ((width = 8 ∨ width = 16 ∨ width = 32 ∨ width = 64) → numBits ≤ width →
      s.params.bbMax < (s.engine.bbTotal.toNat + numBits + 7) / 8 → FailsWith (.bbWrite width numBits) s 1)

/-- BB_READ_BIT reads the bit at the cursor without moving it; at the logical end it fails with CursorOverrun (R124). -/
def Obligations.BbReadBitReadsAtTheCursor : Prop :=
  ∀ s : State,
    (s.engine.cursor < s.engine.bbTotal.toNat → s.engine.bbTotal.toNat ≤ 8 * s.params.bbMax →
      Completes .bbReadBit s { s.engine with res := if s.engine.bitAt s.engine.cursor then 1 else 0 }) ∧
    (s.engine.bbTotal.toNat ≤ s.engine.cursor → FailsWith .bbReadBit s 5)

/-- BB_ADVANCE moves the cursor one bit on, rolling into the next byte at 8; at the logical end it fails with CursorOverrun (R125). -/
def Obligations.BbAdvanceMovesOneBit : Prop :=
  ∀ s : State,
    (s.engine.cursor < s.engine.bbTotal.toNat → s.engine.bbTotal.toNat ≤ 8 * s.params.bbMax → s.params.bbMax ≤ 65535 →
      ∃ e, Completes .bbAdvance s e ∧ e = { s.engine with bbByteOff := e.bbByteOff, bbBitOff := e.bbBitOff } ∧
        8 * e.bbByteOff.toNat + e.bbBitOff.toNat = 8 * s.engine.bbByteOff.toNat + s.engine.bbBitOff.toNat + 1) ∧
    (s.engine.bbTotal.toNat ≤ s.engine.cursor → FailsWith .bbAdvance s 5)

/-- BB_REWIND sets the cursor to 0; the three accessors read BB_TOTAL, BB_BYTE_OFF and BB_BIT_OFF into RES (R126 to R129). -/
def Obligations.BbRewindAndAccessors : Prop :=
  ∀ s : State,
    Completes .bbRewind s { s.engine with bbByteOff := 0, bbBitOff := 0 } ∧
    Completes .bbSizeBits s { s.engine with res := s.engine.bbTotal.setWidth 64 } ∧
    Completes .bbByteOffset s { s.engine with res := s.engine.bbByteOff.setWidth 64 } ∧
    Completes .bbBitOffset s { s.engine with res := s.engine.bbBitOff.setWidth 64 }

/-- BB_GET_BYTE reads a byte below BB_CAP into RES; at or above BB_CAP it fails with InvalidArgument (R130). -/
def Obligations.BbGetByteReadsBelowCapacity : Prop :=
  ∀ (s : State) (index : Nat),
    (s.engine.bbCap.toNat ≤ s.params.bbMax → index < s.engine.bbCap.toNat →
      Completes (.bbGetByte index) s { s.engine with res := (s.engine.bbMem.read index).setWidth 64 }) ∧
    (s.engine.bbCap.toNat ≤ index → FailsWith (.bbGetByte index) s 2)

/-- Only BB_NEW, ENCODE and SOFT_RESET can make the bit buffer shorter (R131). -/
def Obligations.OtherCommandsNeverShortenTheStream : Prop :=
  ∀ (i : Instr) (s t : State), Inv s → (∀ n, i ≠ .bbNew n) → (∀ n, i ≠ .encode n) → i ≠ .softReset →
    exec i s = .next t → s.engine.bbTotal.toNat ≤ t.engine.bbTotal.toNat

/-! ### Priority queue -/

/-- PQ_INIT empties the queue, frees the slots of the queued nodes and sets PQ_CAP; above PQ_MAX it fails with
AllocationFailure; after capacity 0 every PQ_INSERT of a node that is allocated and no tree node fails with CapacityExceeded,
whatever the host has latched by then (spec/42_priority_queue.md R156). -/
def Obligations.PqInitEmptiesTheQueue : Prop :=
  ∀ (s : State) (capacity : Nat), ParamsOk s.params → QueueOk s.params s.engine →
    (capacity ≤ s.params.pqMax → ∃ e, Completes (.pqInit capacity) s e ∧
      e = { s.engine with nodes := e.nodes, heap := e.heap, pqSize := 0, pqCap := e.pqCap } ∧
      e.pqCap.toNat = capacity ∧ (∀ k, e.heapAt k = nil) ∧
      (∀ i, e.nodeAt i = { s.engine.nodeAt i with heapSlot := 0 }) ∧
      (capacity = 0 → ∀ (u : State) (node : Nat), u.engine = e → node ≤ 510 → (e.nodeAt (BitVec.ofNat 9 node)).valid = true →
        (e.nodeAt (BitVec.ofNat 9 node)).inTree = false → FailsWith (.pqInsert node) u 6)) ∧
    (s.params.pqMax < capacity → FailsWith (.pqInit capacity) s 1)

/-- PQ_INSERT appends the node and sifts it up past every strictly heavier ancestor, keeping every queued node's slot; its
errors come in check order (R152, R154, R157). -/
def Obligations.PqInsertSiftsUp : Prop :=
  ∀ (s : State) (node : Nat), ParamsOk s.params → QueueOk s.params s.engine →
    let i := BitVec.ofNat 9 node
    (node ≤ 510 → (s.engine.nodeAt i).valid = true → (s.engine.nodeAt i).inTree = false → ¬ s.engine.queued i →
      s.engine.pqSize ≠ s.engine.pqCap → ∃ e, Completes (.pqInsert node) s e ∧
        e = { s.engine with nodes := e.nodes, heap := e.heap, pqSize := e.pqSize } ∧
        e.pqSize.toNat = s.engine.pqSize.toNat + 1 ∧ QueueOk s.params e ∧
        (∀ j, e.nodeAt j = { s.engine.nodeAt j with heapSlot := (e.nodeAt j).heapSlot }) ∧
        (∀ j, e.queued j ↔ s.engine.queued j ∨ j = i) ∧
        ∃ m, SiftedUp s.engine e i (s.engine.pqSize.toNat + 1) m) ∧
    (510 < node ∨ (s.engine.nodeAt i).valid = false → FailsWith (.pqInsert node) s 2) ∧
    (node ≤ 510 → (s.engine.nodeAt i).valid = true → (s.engine.nodeAt i).inTree = true ∨ s.engine.queued i →
      FailsWith (.pqInsert node) s 2) ∧
    (node ≤ 510 → (s.engine.nodeAt i).valid = true → (s.engine.nodeAt i).inTree = false → ¬ s.engine.queued i →
      s.engine.pqSize = s.engine.pqCap → FailsWith (.pqInsert node) s 6)

/-- PQ_EXTRACT_MIN answers the node at HEAP[1], whose slot becomes 0, and sifts the last node down from the root over the
reduced heap; an empty queue fails with EmptyStructure (R153, R155, R158). -/
def Obligations.PqExtractMinSiftsDown : Prop :=
  ∀ s : State, ParamsOk s.params → QueueOk s.params s.engine →
    (1 ≤ s.engine.pqSize.toNat → ∃ e, Completes .pqExtractMin s e ∧
      e = { s.engine with res := (s.engine.heapAt 1).setWidth 64, nodes := e.nodes, heap := e.heap, pqSize := e.pqSize } ∧
      e.pqSize.toNat = s.engine.pqSize.toNat - 1 ∧ QueueOk s.params e ∧
      (∀ j, e.nodeAt j = { s.engine.nodeAt j with heapSlot := (e.nodeAt j).heapSlot }) ∧
      (∀ j, e.queued j ↔ s.engine.queued j ∧ j ≠ s.engine.heapAt 1) ∧
      (2 ≤ s.engine.pqSize.toNat → ∃ m, SiftedDown s.engine e (s.engine.heapAt s.engine.pqSize.toNat) (s.engine.pqSize.toNat - 1) 1 m)) ∧
    (s.engine.pqSize = 0 → FailsWith .pqExtractMin s 3)

/-- On an ordered heap the node PQ_EXTRACT_MIN answers weighs no more than any queued node (R158). -/
def Obligations.PqExtractMinAnswersAMinimum : Prop :=
  ∀ s : State, ParamsOk s.params → QueueOk s.params s.engine → HeapOrdered s.engine → 1 ≤ s.engine.pqSize.toNat →
    ∃ e m, Completes .pqExtractMin s e ∧ e.res = m.setWidth 64 ∧ s.engine.queued m ∧
      ∀ i, s.engine.queued i → (s.engine.nodeAt m).weight.toNat ≤ (s.engine.nodeAt i).weight.toNat

/-- PQ_CHANGE_PRIORITY moves a queued node up when its parent is strictly heavier, else down; a node that is not allocated or
not queued fails with InvalidArgument (R152, R153, R161). -/
def Obligations.PqChangePrioritySiftsTheNode : Prop :=
  ∀ (s : State) (node : Nat), ParamsOk s.params → QueueOk s.params s.engine →
    let i := BitVec.ofNat 9 node
    let k := (s.engine.nodeAt i).heapSlot.toNat
    (node ≤ 510 → (s.engine.nodeAt i).valid = true → s.engine.queued i → ∃ e, Completes (.pqChangePriority node) s e ∧
      e = { s.engine with nodes := e.nodes, heap := e.heap } ∧ QueueOk s.params e ∧
      (∀ j, e.nodeAt j = { s.engine.nodeAt j with heapSlot := (e.nodeAt j).heapSlot }) ∧
      (∀ j, e.queued j ↔ s.engine.queued j) ∧
      if 1 < k ∧ s.engine.heapWeight k < s.engine.heapWeight (k / 2) then ∃ m, SiftedUp s.engine e i k m
      else ∃ m, SiftedDown s.engine e i s.engine.pqSize.toNat k m) ∧
    (510 < node ∨ (s.engine.nodeAt i).valid = false → FailsWith (.pqChangePriority node) s 2) ∧
    (node ≤ 510 → (s.engine.nodeAt i).valid = true → ¬ s.engine.queued i → FailsWith (.pqChangePriority node) s 2)

/-- PQ_SIZE reads the size; PQ_READ_HEAP reads HEAP[k] for 1 <= k <= PQ_SIZE and fails with InvalidArgument for any other k (R159, R160). -/
def Obligations.PqSizeAndReadHeapReadTheQueue : Prop :=
  ∀ s : State, Completes .pqSize s { s.engine with res := s.engine.pqSize.setWidth 64 } ∧
    ∀ k, (1 ≤ k → k ≤ s.engine.pqSize.toNat → ParamsOk s.params → QueueOk s.params s.engine →
        Completes (.pqReadHeap k) s { s.engine with res := (s.engine.heapAt k).setWidth 64 }) ∧
      (k = 0 ∨ s.engine.pqSize.toNat < k → FailsWith (.pqReadHeap k) s 2)

/-- Every command but NODE_SET_WEIGHT keeps the heap order (R162). -/
def Obligations.HeapOrderIsKept : Prop :=
  ∀ (i : Instr) (s t : State), Inv s → HeapOrdered s.engine → (∀ n, i ≠ .nodeSetWeight n) → exec i s = .next t →
    HeapOrdered t.engine

/-- A NODE_SET_WEIGHT followed directly by the PQ_CHANGE_PRIORITY of the same node restores the heap order, whatever word and
operand were latched for the second command (R162, R280). -/
def Obligations.ChangePriorityRestoresHeapOrder : Prop :=
  ∀ (s t u : State) (node : Nat) (w : Word32) (d : Word64), Inv s → HeapOrdered s.engine →
    exec (.nodeSetWeight node) s = .next t →
    exec (.pqChangePriority node) { t with cmdLatch := w, dataLatch := d, status := { t.status with busy := true } } = .next u →
    HeapOrdered u.engine

/-! ### Frequency table and nodes -/

/-- FREQ_CLEAR clears every counter, FREQ_SET sets one to a 32-bit count and fails with InvalidArgument on a wider one, FREQ_GET reads one (spec/43_tree_builder.md R171 to R173). -/
def Obligations.FreqCommandsSetAndReadCounters : Prop :=
  ∀ s : State,
    (∃ e, Completes .freqClear s e ∧ e = { s.engine with freq := e.freq } ∧ ∀ c, e.freqAt c = 0) ∧
    ∀ symbol,
      (s.dataLatch.toNat < 2 ^ 32 → ∃ e, Completes (.freqSet symbol) s e ∧ e = { s.engine with freq := e.freq } ∧
        (e.freqAt symbol).toNat = s.dataLatch.toNat ∧ ∀ c, c ≠ symbol → e.freqAt c = s.engine.freqAt c) ∧
      (2 ^ 32 ≤ s.dataLatch.toNat → FailsWith (.freqSet symbol) s 2) ∧
      Completes (.freqGet symbol) s { s.engine with res := (s.engine.freqAt symbol).setWidth 64 }

/-- FREQ_COUNT counts how often each byte stands in DATA_MEM[0 .. B-1]; above DATA_MAX it fails with InvalidArgument (R174). -/
def Obligations.FreqCountCountsTheInput : Prop :=
  ∀ (s : State) (length : Nat), ParamsOk s.params →
    (length ≤ s.params.dataMax → ∃ e, Completes (.freqCount length) s e ∧ e = { s.engine with freq := e.freq } ∧
      ∀ c, (e.freqAt c).toNat = ((List.range length).filter (fun j => s.engine.dataMem.read j = c)).length) ∧
    (s.params.dataMax < length → FailsWith (.freqCount length) s 2)

/-- NODE_NEW_LEAF makes a scratch leaf at NODE_COUNT and answers its index; a full arena fails with AllocationFailure (R170, R175). -/
def Obligations.NodeNewLeafAllocates : Prop :=
  ∀ (s : State) (symbol : Byte),
    (s.engine.nodeCount.toNat < 511 → ∃ e, Completes (.nodeNewLeaf symbol) s e ∧
      e = { s.engine with res := s.engine.nodeCount.setWidth 64, nodes := e.nodes, nodeCount := e.nodeCount } ∧
      e.nodeCount.toNat = s.engine.nodeCount.toNat + 1 ∧
      e.nodeAt (s.engine.nodeCount.setWidth 9) = ⟨true, true, false, symbol, s.dataLatch, 511, 511, 0⟩ ∧
      ∀ i, i ≠ s.engine.nodeCount.setWidth 9 → e.nodeAt i = s.engine.nodeAt i) ∧
    (s.engine.nodeCount = 511 → FailsWith (.nodeNewLeaf symbol) s 1)

/-- NODE_SET_WEIGHT sets the weight of an allocated scratch node and nothing else; any other operand fails with InvalidArgument (R176). -/
def Obligations.NodeSetWeightSetsOneWeight : Prop :=
  ∀ (s : State) (node : Nat),
    let i := BitVec.ofNat 9 node
    (node ≤ 510 → (s.engine.nodeAt i).valid = true → (s.engine.nodeAt i).inTree = false → ∃ e, Completes (.nodeSetWeight node) s e ∧
      e = { s.engine with nodes := e.nodes } ∧ e.nodeAt i = { s.engine.nodeAt i with weight := s.dataLatch } ∧
      ∀ j, j ≠ i → e.nodeAt j = s.engine.nodeAt j) ∧
    (510 < node ∨ (s.engine.nodeAt i).valid = false ∨ (s.engine.nodeAt i).inTree = true → FailsWith (.nodeSetWeight node) s 2)

/-- NODE_READ reads the field its selector names; an index above 510 or a selector above 5 fails with InvalidArgument (R177). -/
def Obligations.NodeReadReadsTheField : Prop :=
  ∀ (s : State) (node : Nat),
    let n := s.engine.nodeAt (BitVec.ofNat 9 node)
    (node ≤ 510 →
      Completes (.nodeRead 0 node) s { s.engine with res := BitVec.ofNat 64 (4 * n.inTree.toNat + 2 * n.leaf.toNat + n.valid.toNat) } ∧
      Completes (.nodeRead 1 node) s { s.engine with res := n.symbol.setWidth 64 } ∧
      Completes (.nodeRead 2 node) s { s.engine with res := n.weight } ∧
      Completes (.nodeRead 3 node) s { s.engine with res := n.left.setWidth 64 } ∧
      Completes (.nodeRead 4 node) s { s.engine with res := n.right.setWidth 64 } ∧
      Completes (.nodeRead 5 node) s { s.engine with res := n.heapSlot.setWidth 64 } ∧
      ∀ field, 5 < field → FailsWith (.nodeRead field node) s 2) ∧
    (510 < node → ∀ field, FailsWith (.nodeRead field node) s 2)

/-- ARENA_RESET empties every node and the queue, and there is no tree; PQ_CAP stays (R178). -/
def Obligations.ArenaResetReleasesEveryNode : Prop :=
  ∀ s : State, ∃ e, Completes .arenaReset s e ∧
    e = { s.engine with nodes := e.nodes, nodeCount := 0, root := 511, heap := e.heap, pqSize := 0 } ∧
    (∀ i, e.nodeAt i = Node.empty) ∧ ∀ k, e.heapAt k = nil

/-! ### Tree -/

/-- TREE_BUILD on n distinct symbols makes one leaf per symbol in ascending order and one tree of 2n-1 nodes under ROOT = 2n-2,
whose weight is the sum of the counts, and leaves the queue empty with capacity PQ_MAX; with every counter 0 it fails with
InvalidArgument and changes nothing else, the old tree included (R179 to R181). The tree is a function of FREQ alone: every
state with the same counts gets the same NODE table and ROOT (R181 item 5). Equal counts: "ABCD" gives the tree of vector T4 of
spec/95_test_vectors.md, node 4 over A and D, node 5 over C and B. -/
def Obligations.TreeBuildMakesTheTree : Prop :=
  ∀ s : State, ParamsOk s.params →
    (s.engine.present ≠ [] → ∃ e t, Completes .treeBuild s e ∧
      e = { s.engine with res := e.res, nodes := e.nodes, nodeCount := e.nodeCount, root := e.root, heap := e.heap, pqSize := 0, pqCap := e.pqCap } ∧
      e.pqCap.toNat = s.params.pqMax ∧ (∀ k, e.heapAt k = nil) ∧ (∀ i, ¬ e.queued i) ∧
      TreeIs e t ∧ t.leaves.length = s.engine.present.length ∧
      e.nodeCount.toNat = 2 * s.engine.present.length - 1 ∧ e.root.toNat = 2 * s.engine.present.length - 2 ∧
      e.res = e.root.setWidth 64 ∧
      (∀ j c, s.engine.present[j]? = some c →
        e.nodeAt (BitVec.ofNat 9 j) = ⟨true, true, true, c, (s.engine.freqAt c).setWidth 64, 511, 511, 0⟩) ∧
      (∀ i : NodeIdx, e.nodeCount.toNat ≤ i.toNat → e.nodeAt i = Node.empty) ∧
      (e.nodeAt e.root).weight.toNat = (s.engine.present.map (fun c => (s.engine.freqAt c).toNat)).sum ∧
      ∀ s' : State, ParamsOk s'.params → s'.engine.freq = s.engine.freq →
        ∃ e', Completes .treeBuild s' e' ∧ e'.nodes = e.nodes ∧ e'.nodeCount = e.nodeCount ∧ e'.root = e.root) ∧
    ((∀ c : Byte, s.engine.freqAt c = if 0x41 ≤ c.toNat ∧ c.toNat ≤ 0x44 then 1 else 0) → ∃ e, Completes .treeBuild s e ∧ e.root = 6 ∧
      e.nodeAt 4 = ⟨true, false, true, 0, 2, 0, 3, 0⟩ ∧ e.nodeAt 5 = ⟨true, false, true, 0, 2, 2, 1, 0⟩ ∧
      e.nodeAt 6 = ⟨true, false, true, 0, 4, 4, 5, 0⟩) ∧
    ((∀ c, s.engine.freqAt c = 0) → FailsWith .treeBuild s 2)

/-- Each internal node TREE_BUILD makes joins the two lightest nodes that had no parent then, the lighter one left: both children
existed then, so their indices are lower (R181 item 1), and every other tree node of a lower index whose parent is made later
weighs no less (R179, R181 item 4). -/
def Obligations.TreeBuildMergesTheTwoLightest : Prop :=
  ∀ s t : State, ParamsOk s.params → exec .treeBuild s = .next t → t.status.errCode = 0 →
    ∀ i, (t.engine.nodeAt i).inTree = true → (t.engine.nodeAt i).leaf = false →
      let l := (t.engine.nodeAt i).left
      let r := (t.engine.nodeAt i).right
      l.toNat < i.toNat ∧ r.toNat < i.toNat ∧ l ≠ r ∧ (t.engine.nodeAt l).inTree = true ∧ (t.engine.nodeAt r).inTree = true ∧
      (t.engine.nodeAt l).weight.toNat ≤ (t.engine.nodeAt r).weight.toNat ∧
      ∀ j, (t.engine.nodeAt j).inTree = true → j.toNat < i.toNat → j ≠ l → j ≠ r →
        (∀ k, (t.engine.nodeAt k).inTree = true → (t.engine.nodeAt k).left = j ∨ (t.engine.nodeAt k).right = j → i.toNat < k.toNat) →
        (t.engine.nodeAt r).weight.toNat ≤ (t.engine.nodeAt j).weight.toNat

/-- TREE_HEIGHT answers the height of the tree (R170, R182). -/
def Obligations.TreeHeightAnswersTheHeight : Prop :=
  ∀ (s : State) (t : Shape), TreeIs s.engine t → Completes .treeHeight s { s.engine with res := BitVec.ofNat 64 t.height }

/-- TREE_FREE empties every node of the tree, sets ROOT to NIL and leaves every other node and NODE_COUNT alone (R183). -/
def Obligations.TreeFreeReleasesTheTree : Prop :=
  ∀ (s : State) (t : Shape), TreeIs s.engine t → ∃ e, Completes .treeFree s e ∧
    e = { s.engine with nodes := e.nodes, root := 511 } ∧
    ∀ i, e.nodeAt i = if (s.engine.nodeAt i).inTree then Node.empty else s.engine.nodeAt i

/-- With ROOT = NIL the commands that need a tree fail with InvalidArgument (R182, R183, spec/44_encoding_map.md R201, spec/45_codec.md R213, R214). -/
def Obligations.TreeCommandsFailWithoutATree : Prop :=
  ∀ s : State, s.engine.root = nil →
    FailsWith .treeHeight s 2 ∧ FailsWith .treeFree s 2 ∧ FailsWith .mapBuild s 2 ∧ FailsWith .decSym s 2 ∧
    ∀ length, FailsWith (.decode length) s 2

/-! ### Encoding map -/

/-- MAP_BUILD records for each leaf's symbol its path from ROOT, or the 1-bit code 0 for a one-leaf tree, every other entry
absent, and answers the number of leaves; a tree deeper than 64 fails with CodeLengthExceeded (R200, R201). -/
def Obligations.MapBuildRecordsThePaths : Prop :=
  ∀ (s : State) (t : Shape), TreeIs s.engine t →
    (t.height ≤ 64 → ∃ e, Completes .mapBuild s e ∧ e = { s.engine with res := BitVec.ofNat 64 t.leaves.length, codeMap := e.codeMap } ∧
      ∀ c, e.mapAt c = t.entry s.engine c) ∧
    (64 < t.height → FailsWith .mapBuild s 7)

/-- The map MAP_BUILD makes is prefix-free (R204 item 2). -/
def Obligations.MapBuildIsPrefixFree : Prop :=
  ∀ s t : State, Inv s → exec .mapBuild s = .next t → t.status.errCode = 0 → PrefixFree t.engine

/-- MAP_GET_CODE and MAP_GET_LEN read a symbol's entry; an absent symbol fails with SymbolNotFound (R202, R203). -/
def Obligations.MapGetReadsTheEntry : Prop :=
  ∀ (s : State) (symbol : Byte),
    ((s.engine.mapAt symbol).valid = true →
      Completes (.mapGetCode symbol) s { s.engine with res := (s.engine.mapAt symbol).code } ∧
      Completes (.mapGetLen symbol) s { s.engine with res := (s.engine.mapAt symbol).len.setWidth 64 }) ∧
    ((s.engine.mapAt symbol).valid = false → FailsWith (.mapGetCode symbol) s 4 ∧ FailsWith (.mapGetLen symbol) s 4)

/-! ### Codec -/

/-- ENCODE writes the codes of DATA_MEM[0 .. B-1] in order into a fresh buffer of initial capacity max(B, 1) and answers the number of bits (R211). -/
def Obligations.EncodeWritesTheCodes : Prop :=
  ∀ (s : State) (length : Nat), ParamsOk s.params →
    let input := (List.range length).map (fun j => s.engine.dataMem.read j)
    let bits := s.engine.stream input
    length ≤ s.params.dataMax → (∀ c ∈ input, (s.engine.mapAt c).valid = true) → (bits.length + 7) / 8 ≤ s.params.bbMax →
    ∃ e, Completes (.encode length) s e ∧
      e = { s.engine with res := BitVec.ofNat 64 bits.length, bbMem := e.bbMem, bbCap := e.bbCap, bbTotal := e.bbTotal,
                          bbByteOff := e.bbByteOff, bbBitOff := e.bbBitOff } ∧
      e.bbTotal.toNat = bits.length ∧ e.bbByteOff.toNat = bits.length / 8 ∧ e.bbBitOff.toNat = bits.length % 8 ∧
      e.streamHas 0 bits ∧ (∀ q, bits.length ≤ q → e.bitAt q = false) ∧
      GrownTo s.params.bbMax (max length 1) ((bits.length + 7) / 8) e.bbCap.toNat

/-- ENCODE's errors in check order, before any write: the length, a symbol without an entry, a stream beyond BB_MAX bytes (R211, R243). -/
def Obligations.EncodeFailsInCheckOrder : Prop :=
  ∀ (s : State) (length : Nat),
    let input := (List.range length).map (fun j => s.engine.dataMem.read j)
    (s.params.dataMax < length → FailsWith (.encode length) s 2) ∧
    (length ≤ s.params.dataMax → (∃ c ∈ input, (s.engine.mapAt c).valid = false) → FailsWith (.encode length) s 4) ∧
    (length ≤ s.params.dataMax → (∀ c ∈ input, (s.engine.mapAt c).valid = true) →
      s.params.bbMax < ((s.engine.stream input).length + 7) / 8 → FailsWith (.encode length) s 1)

/-- ENC_SYM appends one symbol's code at BB_TOTAL and leaves every other bit; an absent symbol fails with SymbolNotFound, a
stream beyond BB_MAX bytes with AllocationFailure (R119, R212). -/
def Obligations.EncSymAppendsOneCode : Prop :=
  ∀ (s : State) (symbol : Byte), ParamsOk s.params → BufferOk s.params s.engine →
    let bits := (s.engine.mapAt symbol).bits
    ((s.engine.mapAt symbol).valid = true → (s.engine.bbTotal.toNat + bits.length + 7) / 8 ≤ s.params.bbMax →
      ∃ e, Completes (.encSym symbol) s e ∧
        e = { s.engine with bbMem := e.bbMem, bbCap := e.bbCap, bbTotal := e.bbTotal, bbByteOff := e.bbByteOff, bbBitOff := e.bbBitOff } ∧
        e.bbTotal.toNat = s.engine.bbTotal.toNat + bits.length ∧
        e.bbByteOff.toNat = e.bbTotal.toNat / 8 ∧ e.bbBitOff.toNat = e.bbTotal.toNat % 8 ∧
        e.streamHas s.engine.bbTotal.toNat bits ∧ (∀ q, q < s.engine.bbTotal.toNat → e.bitAt q = s.engine.bitAt q) ∧
        (∀ q, e.bbTotal.toNat ≤ q → e.bitAt q = false) ∧
        GrownTo s.params.bbMax s.engine.bbCap.toNat ((e.bbTotal.toNat + 7) / 8) e.bbCap.toNat) ∧
    ((s.engine.mapAt symbol).valid = false → FailsWith (.encSym symbol) s 4) ∧
    ((s.engine.mapAt symbol).valid = true → s.params.bbMax < (s.engine.bbTotal.toNat + bits.length + 7) / 8 →
      FailsWith (.encSym symbol) s 1)

/-- DECODE walks the tree from stream position 0 once per output byte, writes the symbols to OUT_MEM[0 .. B-1] and no other byte,
and answers the number of bits consumed; a length above DATA_MAX fails with InvalidArgument, a stream that ends too soon with CursorOverrun (R210, R213). -/
def Obligations.DecodeWalksTheStream : Prop :=
  ∀ (s : State) (t : Shape) (length : Nat), ParamsOk s.params → BufferOk s.params s.engine → s.engine.outMem.wf → TreeIs s.engine t →
    (length ≤ s.params.dataMax → ∀ cs q, cs.length = length → t.decodesTo s.engine cs 0 q →
      ∃ e, Completes (.decode length) s e ∧
        e = { s.engine with res := BitVec.ofNat 64 q, outMem := e.outMem, bbByteOff := e.bbByteOff, bbBitOff := e.bbBitOff } ∧
        e.cursor = q ∧ (∀ j c, cs[j]? = some c → e.outMem.read j = c) ∧
        ∀ a, length ≤ a → e.outMem.read a = s.engine.outMem.read a) ∧
    (length ≤ s.params.dataMax → (¬ ∃ cs q, cs.length = length ∧ t.decodesTo s.engine cs 0 q) → FailsWith (.decode length) s 5) ∧
    (s.params.dataMax < length → FailsWith (.decode length) s 2)

/-- DEC_SYM walks the tree once from the cursor, answers the symbol and leaves the cursor after its code; a stream that ends
within the code fails with CursorOverrun (R210, R214). -/
def Obligations.DecSymWalksOneCode : Prop :=
  ∀ (s : State) (t : Shape), ParamsOk s.params → BufferOk s.params s.engine → TreeIs s.engine t →
    (∀ i q, t.leads s.engine s.engine.cursor i q → q ≤ s.engine.bbTotal.toNat →
      ∃ e, Completes .decSym s e ∧
        e = { s.engine with res := (s.engine.nodeAt i).symbol.setWidth 64, bbByteOff := e.bbByteOff, bbBitOff := e.bbBitOff } ∧
        e.cursor = q) ∧
    ((∀ i q, t.leads s.engine s.engine.cursor i q → s.engine.bbTotal.toNat < q) → FailsWith .decSym s 5)

/-- Round trip: once MAP_BUILD and then ENCODE have completed, DECODE of the same length completes, gives back the input bytes and
answers ENCODE's number of bits (R215). Between the commands anything may happen, accept transitions (R245) and other commands
among it, that leaves the tree, MAP and DATA_MEM alone before ENCODE, and the tree and the stream after it. -/
def Obligations.DecodeUndoesEncode : Prop :=
  ∀ (s s₁ u₁ s₂ u₂ : State) (length : Nat), Inv s → exec .mapBuild s = .next s₁ → s₁.status.errCode = 0 →
    u₁.params = s₁.params → SameTree s₁.engine u₁.engine → u₁.engine.codeMap = s₁.engine.codeMap → u₁.engine.dataMem = s₁.engine.dataMem →
    exec (.encode length) u₁ = .next s₂ → s₂.status.errCode = 0 →
    u₂.params = s₂.params → SameTree s₂.engine u₂.engine → u₂.engine.bbMem = s₂.engine.bbMem → u₂.engine.bbTotal = s₂.engine.bbTotal →
    u₂.engine.outMem.wf →
    ∃ e, Completes (.decode length) u₂ e ∧ e.res = s₂.engine.res ∧
      ∀ j, j < length → e.outMem.read j = s.engine.dataMem.read j

/-! ### The map over runs -/

/-- No code of MAP is ever a prefix of another: so it is right after reset, and every step that starts in the invariant keeps it so,
whatever the host does (R204 items 2 and 5). -/
def Obligations.EveryStepKeepsTheMapPrefixFree : Prop :=
  (∀ p : Params, PrefixFree (State.resetWith p).engine) ∧
  ∀ s t : State, Inv s → PrefixFree s.engine → step s = .next t → PrefixFree t.engine
end

