-- ==== Sys2Proof/Laws/State.lean ====
section
/-! SUPPORT. One lemma per field per named update of State and Engine, all true by rfl, so that no proof unfolds an update. -/

namespace Sys2Proof.Machine

/-! ### State -/

@[simp] theorem State.complete_params (s : State) (e : Engine) : (s.complete e).params = s.params := rfl
@[simp] theorem State.complete_cmdLatch (s : State) (e : Engine) : (s.complete e).cmdLatch = s.cmdLatch := rfl
@[simp] theorem State.complete_dataLatch (s : State) (e : Engine) : (s.complete e).dataLatch = s.dataLatch := rfl
@[simp] theorem State.complete_data (s : State) (e : Engine) : (s.complete e).data = s.data := rfl
@[simp] theorem State.complete_status (s : State) (e : Engine) : (s.complete e).status = s.status.completed := rfl
@[simp] theorem State.complete_engine (s : State) (e : Engine) : (s.complete e).engine = e := rfl
@[simp] theorem State.complete_schedule (s : State) (e : Engine) : (s.complete e).schedule = s.schedule := rfl
@[simp] theorem State.complete_busOut (s : State) (e : Engine) : (s.complete e).busOut = s.busOut := rfl

@[simp] theorem State.fail_params (s : State) (k : ErrorKind) : (s.fail k).params = s.params := rfl
@[simp] theorem State.fail_cmdLatch (s : State) (k : ErrorKind) : (s.fail k).cmdLatch = s.cmdLatch := rfl
@[simp] theorem State.fail_dataLatch (s : State) (k : ErrorKind) : (s.fail k).dataLatch = s.dataLatch := rfl
@[simp] theorem State.fail_data (s : State) (k : ErrorKind) : (s.fail k).data = s.data := rfl
@[simp] theorem State.fail_status (s : State) (k : ErrorKind) : (s.fail k).status = s.status.failed k := rfl
@[simp] theorem State.fail_engine (s : State) (k : ErrorKind) : (s.fail k).engine = s.engine := rfl
@[simp] theorem State.fail_schedule (s : State) (k : ErrorKind) : (s.fail k).schedule = s.schedule := rfl
@[simp] theorem State.fail_busOut (s : State) (k : ErrorKind) : (s.fail k).busOut = s.busOut := rfl

@[simp] theorem State.accept_params (s : State) (w : Word32) : (s.accept w).params = s.params := rfl
@[simp] theorem State.accept_cmdLatch (s : State) (w : Word32) : (s.accept w).cmdLatch = w := rfl
@[simp] theorem State.accept_dataLatch (s : State) (w : Word32) : (s.accept w).dataLatch = s.data := rfl
@[simp] theorem State.accept_data (s : State) (w : Word32) : (s.accept w).data = s.data := rfl
@[simp] theorem State.accept_status (s : State) (w : Word32) : (s.accept w).status = s.status.accepted := rfl
@[simp] theorem State.accept_engine (s : State) (w : Word32) : (s.accept w).engine = s.engine := rfl
@[simp] theorem State.accept_schedule (s : State) (w : Word32) : (s.accept w).schedule = s.schedule := rfl
@[simp] theorem State.accept_busOut (s : State) (w : Word32) : (s.accept w).busOut = s.busOut := rfl

@[simp] theorem State.withAccepted_params (s : State) (w : Word32) : (s.withAccepted w).params = s.params := rfl
@[simp] theorem State.withAccepted_cmdLatch (s : State) (w : Word32) : (s.withAccepted w).cmdLatch = w := rfl
@[simp] theorem State.withAccepted_dataLatch (s : State) (w : Word32) : (s.withAccepted w).dataLatch = s.data := rfl
@[simp] theorem State.withAccepted_data (s : State) (w : Word32) : (s.withAccepted w).data = s.data := rfl
@[simp] theorem State.withAccepted_status (s : State) (w : Word32) : (s.withAccepted w).status = s.status.accepted := rfl
@[simp] theorem State.withAccepted_engine (s : State) (w : Word32) : (s.withAccepted w).engine = s.engine := rfl
@[simp] theorem State.withAccepted_schedule (s : State) (w : Word32) : (s.withAccepted w).schedule = .engine :: s.schedule := rfl
@[simp] theorem State.withAccepted_busOut (s : State) (w : Word32) : (s.withAccepted w).busOut = s.busOut := rfl

@[simp] theorem State.hardReset_params (s : State) : (s.hardReset).params = s.params := rfl
@[simp] theorem State.hardReset_cmdLatch (s : State) : (s.hardReset).cmdLatch = 0 := rfl
@[simp] theorem State.hardReset_dataLatch (s : State) : (s.hardReset).dataLatch = 0 := rfl
@[simp] theorem State.hardReset_data (s : State) : (s.hardReset).data = 0 := rfl
@[simp] theorem State.hardReset_status (s : State) : (s.hardReset).status = Status.reset := rfl
@[simp] theorem State.hardReset_engine (s : State) : (s.hardReset).engine = Engine.reset s.params := rfl
@[simp] theorem State.hardReset_schedule (s : State) : (s.hardReset).schedule = s.schedule := rfl
@[simp] theorem State.hardReset_busOut (s : State) : (s.hardReset).busOut = s.busOut := rfl

/-! ### Status -/

@[simp] theorem Status.completed_busy (st : Status) : (st.completed).busy = false := rfl
@[simp] theorem Status.completed_errAny (st : Status) : (st.completed).errAny = st.errAny := rfl
@[simp] theorem Status.completed_cmdDropped (st : Status) : (st.completed).cmdDropped = st.cmdDropped := rfl
@[simp] theorem Status.completed_errCode (st : Status) : (st.completed).errCode = 0 := rfl

@[simp] theorem Status.failed_busy (st : Status) (k : ErrorKind) : (st.failed k).busy = false := rfl
@[simp] theorem Status.failed_errAny (st : Status) (k : ErrorKind) : (st.failed k).errAny = true := rfl
@[simp] theorem Status.failed_cmdDropped (st : Status) (k : ErrorKind) : (st.failed k).cmdDropped = st.cmdDropped := rfl
@[simp] theorem Status.failed_errCode (st : Status) (k : ErrorKind) : (st.failed k).errCode = k.code := rfl

@[simp] theorem Status.accepted_busy (st : Status) : (st.accepted).busy = true := rfl
@[simp] theorem Status.accepted_errAny (st : Status) : (st.accepted).errAny = st.errAny := rfl
@[simp] theorem Status.accepted_cmdDropped (st : Status) : (st.accepted).cmdDropped = st.cmdDropped := rfl
@[simp] theorem Status.accepted_errCode (st : Status) : (st.accepted).errCode = st.errCode := rfl

@[simp] theorem Status.dropped_busy (st : Status) : (st.dropped).busy = st.busy := rfl
@[simp] theorem Status.dropped_errAny (st : Status) : (st.dropped).errAny = st.errAny := rfl
@[simp] theorem Status.dropped_cmdDropped (st : Status) : (st.dropped).cmdDropped = true := rfl
@[simp] theorem Status.dropped_errCode (st : Status) : (st.dropped).errCode = st.errCode := rfl

@[simp] theorem Status.cleared_busy (st : Status) : (st.cleared).busy = false := rfl
@[simp] theorem Status.cleared_errAny (st : Status) : (st.cleared).errAny = false := rfl
@[simp] theorem Status.cleared_cmdDropped (st : Status) : (st.cleared).cmdDropped = false := rfl
@[simp] theorem Status.cleared_errCode (st : Status) : (st.cleared).errCode = 0 := rfl

/-! ### Engine -/

@[simp] theorem Engine.setRes_res (e : Engine) (v : Nat) : (e.setRes v).res = BitVec.ofNat 64 v := rfl
@[simp] theorem Engine.setRes_freq (e : Engine) (v : Nat) : (e.setRes v).freq = e.freq := rfl
@[simp] theorem Engine.setRes_nodes (e : Engine) (v : Nat) : (e.setRes v).nodes = e.nodes := rfl
@[simp] theorem Engine.setRes_nodeCount (e : Engine) (v : Nat) : (e.setRes v).nodeCount = e.nodeCount := rfl
@[simp] theorem Engine.setRes_root (e : Engine) (v : Nat) : (e.setRes v).root = e.root := rfl
@[simp] theorem Engine.setRes_heap (e : Engine) (v : Nat) : (e.setRes v).heap = e.heap := rfl
@[simp] theorem Engine.setRes_pqSize (e : Engine) (v : Nat) : (e.setRes v).pqSize = e.pqSize := rfl
@[simp] theorem Engine.setRes_pqCap (e : Engine) (v : Nat) : (e.setRes v).pqCap = e.pqCap := rfl
@[simp] theorem Engine.setRes_codeMap (e : Engine) (v : Nat) : (e.setRes v).codeMap = e.codeMap := rfl
@[simp] theorem Engine.setRes_bbMem (e : Engine) (v : Nat) : (e.setRes v).bbMem = e.bbMem := rfl
@[simp] theorem Engine.setRes_bbCap (e : Engine) (v : Nat) : (e.setRes v).bbCap = e.bbCap := rfl
@[simp] theorem Engine.setRes_bbTotal (e : Engine) (v : Nat) : (e.setRes v).bbTotal = e.bbTotal := rfl
@[simp] theorem Engine.setRes_bbByteOff (e : Engine) (v : Nat) : (e.setRes v).bbByteOff = e.bbByteOff := rfl
@[simp] theorem Engine.setRes_bbBitOff (e : Engine) (v : Nat) : (e.setRes v).bbBitOff = e.bbBitOff := rfl
@[simp] theorem Engine.setRes_dataMem (e : Engine) (v : Nat) : (e.setRes v).dataMem = e.dataMem := rfl
@[simp] theorem Engine.setRes_outMem (e : Engine) (v : Nat) : (e.setRes v).outMem = e.outMem := rfl

@[simp] theorem Engine.setCursor_res (e : Engine) (q : Nat) : (e.setCursor q).res = e.res := rfl
@[simp] theorem Engine.setCursor_freq (e : Engine) (q : Nat) : (e.setCursor q).freq = e.freq := rfl
@[simp] theorem Engine.setCursor_nodes (e : Engine) (q : Nat) : (e.setCursor q).nodes = e.nodes := rfl
@[simp] theorem Engine.setCursor_nodeCount (e : Engine) (q : Nat) : (e.setCursor q).nodeCount = e.nodeCount := rfl
@[simp] theorem Engine.setCursor_root (e : Engine) (q : Nat) : (e.setCursor q).root = e.root := rfl
@[simp] theorem Engine.setCursor_heap (e : Engine) (q : Nat) : (e.setCursor q).heap = e.heap := rfl
@[simp] theorem Engine.setCursor_pqSize (e : Engine) (q : Nat) : (e.setCursor q).pqSize = e.pqSize := rfl
@[simp] theorem Engine.setCursor_pqCap (e : Engine) (q : Nat) : (e.setCursor q).pqCap = e.pqCap := rfl
@[simp] theorem Engine.setCursor_codeMap (e : Engine) (q : Nat) : (e.setCursor q).codeMap = e.codeMap := rfl
@[simp] theorem Engine.setCursor_bbMem (e : Engine) (q : Nat) : (e.setCursor q).bbMem = e.bbMem := rfl
@[simp] theorem Engine.setCursor_bbCap (e : Engine) (q : Nat) : (e.setCursor q).bbCap = e.bbCap := rfl
@[simp] theorem Engine.setCursor_bbTotal (e : Engine) (q : Nat) : (e.setCursor q).bbTotal = e.bbTotal := rfl
@[simp] theorem Engine.setCursor_bbByteOff (e : Engine) (q : Nat) : (e.setCursor q).bbByteOff = BitVec.ofNat 16 (q / 8) := rfl
@[simp] theorem Engine.setCursor_bbBitOff (e : Engine) (q : Nat) : (e.setCursor q).bbBitOff = BitVec.ofNat 3 (q % 8) := rfl
@[simp] theorem Engine.setCursor_dataMem (e : Engine) (q : Nat) : (e.setCursor q).dataMem = e.dataMem := rfl
@[simp] theorem Engine.setCursor_outMem (e : Engine) (q : Nat) : (e.setCursor q).outMem = e.outMem := rfl

@[simp] theorem Engine.setFreq_res (e : Engine) (c : Byte) (v : Word32) : (e.setFreq c v).res = e.res := rfl
@[simp] theorem Engine.setFreq_freq (e : Engine) (c : Byte) (v : Word32) : (e.setFreq c v).freq = e.freq.set c.toNat v c.isLt := rfl
@[simp] theorem Engine.setFreq_nodes (e : Engine) (c : Byte) (v : Word32) : (e.setFreq c v).nodes = e.nodes := rfl
@[simp] theorem Engine.setFreq_nodeCount (e : Engine) (c : Byte) (v : Word32) : (e.setFreq c v).nodeCount = e.nodeCount := rfl
@[simp] theorem Engine.setFreq_root (e : Engine) (c : Byte) (v : Word32) : (e.setFreq c v).root = e.root := rfl
@[simp] theorem Engine.setFreq_heap (e : Engine) (c : Byte) (v : Word32) : (e.setFreq c v).heap = e.heap := rfl
@[simp] theorem Engine.setFreq_pqSize (e : Engine) (c : Byte) (v : Word32) : (e.setFreq c v).pqSize = e.pqSize := rfl
@[simp] theorem Engine.setFreq_pqCap (e : Engine) (c : Byte) (v : Word32) : (e.setFreq c v).pqCap = e.pqCap := rfl
@[simp] theorem Engine.setFreq_codeMap (e : Engine) (c : Byte) (v : Word32) : (e.setFreq c v).codeMap = e.codeMap := rfl
@[simp] theorem Engine.setFreq_bbMem (e : Engine) (c : Byte) (v : Word32) : (e.setFreq c v).bbMem = e.bbMem := rfl
@[simp] theorem Engine.setFreq_bbCap (e : Engine) (c : Byte) (v : Word32) : (e.setFreq c v).bbCap = e.bbCap := rfl
@[simp] theorem Engine.setFreq_bbTotal (e : Engine) (c : Byte) (v : Word32) : (e.setFreq c v).bbTotal = e.bbTotal := rfl
@[simp] theorem Engine.setFreq_bbByteOff (e : Engine) (c : Byte) (v : Word32) : (e.setFreq c v).bbByteOff = e.bbByteOff := rfl
@[simp] theorem Engine.setFreq_bbBitOff (e : Engine) (c : Byte) (v : Word32) : (e.setFreq c v).bbBitOff = e.bbBitOff := rfl
@[simp] theorem Engine.setFreq_dataMem (e : Engine) (c : Byte) (v : Word32) : (e.setFreq c v).dataMem = e.dataMem := rfl
@[simp] theorem Engine.setFreq_outMem (e : Engine) (c : Byte) (v : Word32) : (e.setFreq c v).outMem = e.outMem := rfl

@[simp] theorem Engine.setMap_res (e : Engine) (c : Byte) (m : CodeEntry) : (e.setMap c m).res = e.res := rfl
@[simp] theorem Engine.setMap_freq (e : Engine) (c : Byte) (m : CodeEntry) : (e.setMap c m).freq = e.freq := rfl
@[simp] theorem Engine.setMap_nodes (e : Engine) (c : Byte) (m : CodeEntry) : (e.setMap c m).nodes = e.nodes := rfl
@[simp] theorem Engine.setMap_nodeCount (e : Engine) (c : Byte) (m : CodeEntry) : (e.setMap c m).nodeCount = e.nodeCount := rfl
@[simp] theorem Engine.setMap_root (e : Engine) (c : Byte) (m : CodeEntry) : (e.setMap c m).root = e.root := rfl
@[simp] theorem Engine.setMap_heap (e : Engine) (c : Byte) (m : CodeEntry) : (e.setMap c m).heap = e.heap := rfl
@[simp] theorem Engine.setMap_pqSize (e : Engine) (c : Byte) (m : CodeEntry) : (e.setMap c m).pqSize = e.pqSize := rfl
@[simp] theorem Engine.setMap_pqCap (e : Engine) (c : Byte) (m : CodeEntry) : (e.setMap c m).pqCap = e.pqCap := rfl
@[simp] theorem Engine.setMap_codeMap (e : Engine) (c : Byte) (m : CodeEntry) : (e.setMap c m).codeMap = e.codeMap.set c.toNat m c.isLt := rfl
@[simp] theorem Engine.setMap_bbMem (e : Engine) (c : Byte) (m : CodeEntry) : (e.setMap c m).bbMem = e.bbMem := rfl
@[simp] theorem Engine.setMap_bbCap (e : Engine) (c : Byte) (m : CodeEntry) : (e.setMap c m).bbCap = e.bbCap := rfl
@[simp] theorem Engine.setMap_bbTotal (e : Engine) (c : Byte) (m : CodeEntry) : (e.setMap c m).bbTotal = e.bbTotal := rfl
@[simp] theorem Engine.setMap_bbByteOff (e : Engine) (c : Byte) (m : CodeEntry) : (e.setMap c m).bbByteOff = e.bbByteOff := rfl
@[simp] theorem Engine.setMap_bbBitOff (e : Engine) (c : Byte) (m : CodeEntry) : (e.setMap c m).bbBitOff = e.bbBitOff := rfl
@[simp] theorem Engine.setMap_dataMem (e : Engine) (c : Byte) (m : CodeEntry) : (e.setMap c m).dataMem = e.dataMem := rfl
@[simp] theorem Engine.setMap_outMem (e : Engine) (c : Byte) (m : CodeEntry) : (e.setMap c m).outMem = e.outMem := rfl

@[simp] theorem Engine.clearFreq_res (e : Engine) : (e.clearFreq).res = e.res := rfl
@[simp] theorem Engine.clearFreq_freq (e : Engine) : (e.clearFreq).freq = Vector.replicate 256 0 := rfl
@[simp] theorem Engine.clearFreq_nodes (e : Engine) : (e.clearFreq).nodes = e.nodes := rfl
@[simp] theorem Engine.clearFreq_nodeCount (e : Engine) : (e.clearFreq).nodeCount = e.nodeCount := rfl
@[simp] theorem Engine.clearFreq_root (e : Engine) : (e.clearFreq).root = e.root := rfl
@[simp] theorem Engine.clearFreq_heap (e : Engine) : (e.clearFreq).heap = e.heap := rfl
@[simp] theorem Engine.clearFreq_pqSize (e : Engine) : (e.clearFreq).pqSize = e.pqSize := rfl
@[simp] theorem Engine.clearFreq_pqCap (e : Engine) : (e.clearFreq).pqCap = e.pqCap := rfl
@[simp] theorem Engine.clearFreq_codeMap (e : Engine) : (e.clearFreq).codeMap = e.codeMap := rfl
@[simp] theorem Engine.clearFreq_bbMem (e : Engine) : (e.clearFreq).bbMem = e.bbMem := rfl
@[simp] theorem Engine.clearFreq_bbCap (e : Engine) : (e.clearFreq).bbCap = e.bbCap := rfl
@[simp] theorem Engine.clearFreq_bbTotal (e : Engine) : (e.clearFreq).bbTotal = e.bbTotal := rfl
@[simp] theorem Engine.clearFreq_bbByteOff (e : Engine) : (e.clearFreq).bbByteOff = e.bbByteOff := rfl
@[simp] theorem Engine.clearFreq_bbBitOff (e : Engine) : (e.clearFreq).bbBitOff = e.bbBitOff := rfl
@[simp] theorem Engine.clearFreq_dataMem (e : Engine) : (e.clearFreq).dataMem = e.dataMem := rfl
@[simp] theorem Engine.clearFreq_outMem (e : Engine) : (e.clearFreq).outMem = e.outMem := rfl

@[simp] theorem Engine.clearMap_res (e : Engine) : (e.clearMap).res = e.res := rfl
@[simp] theorem Engine.clearMap_freq (e : Engine) : (e.clearMap).freq = e.freq := rfl
@[simp] theorem Engine.clearMap_nodes (e : Engine) : (e.clearMap).nodes = e.nodes := rfl
@[simp] theorem Engine.clearMap_nodeCount (e : Engine) : (e.clearMap).nodeCount = e.nodeCount := rfl
@[simp] theorem Engine.clearMap_root (e : Engine) : (e.clearMap).root = e.root := rfl
@[simp] theorem Engine.clearMap_heap (e : Engine) : (e.clearMap).heap = e.heap := rfl
@[simp] theorem Engine.clearMap_pqSize (e : Engine) : (e.clearMap).pqSize = e.pqSize := rfl
@[simp] theorem Engine.clearMap_pqCap (e : Engine) : (e.clearMap).pqCap = e.pqCap := rfl
@[simp] theorem Engine.clearMap_codeMap (e : Engine) : (e.clearMap).codeMap = Vector.replicate 256 CodeEntry.absent := rfl
@[simp] theorem Engine.clearMap_bbMem (e : Engine) : (e.clearMap).bbMem = e.bbMem := rfl
@[simp] theorem Engine.clearMap_bbCap (e : Engine) : (e.clearMap).bbCap = e.bbCap := rfl
@[simp] theorem Engine.clearMap_bbTotal (e : Engine) : (e.clearMap).bbTotal = e.bbTotal := rfl
@[simp] theorem Engine.clearMap_bbByteOff (e : Engine) : (e.clearMap).bbByteOff = e.bbByteOff := rfl
@[simp] theorem Engine.clearMap_bbBitOff (e : Engine) : (e.clearMap).bbBitOff = e.bbBitOff := rfl
@[simp] theorem Engine.clearMap_dataMem (e : Engine) : (e.clearMap).dataMem = e.dataMem := rfl
@[simp] theorem Engine.clearMap_outMem (e : Engine) : (e.clearMap).outMem = e.outMem := rfl

@[simp] theorem Engine.clearHeap_res (e : Engine) : (e.clearHeap).res = e.res := rfl
@[simp] theorem Engine.clearHeap_freq (e : Engine) : (e.clearHeap).freq = e.freq := rfl
@[simp] theorem Engine.clearHeap_nodes (e : Engine) : (e.clearHeap).nodes = e.nodes := rfl
@[simp] theorem Engine.clearHeap_nodeCount (e : Engine) : (e.clearHeap).nodeCount = e.nodeCount := rfl
@[simp] theorem Engine.clearHeap_root (e : Engine) : (e.clearHeap).root = e.root := rfl
@[simp] theorem Engine.clearHeap_heap (e : Engine) : (e.clearHeap).heap = Vector.replicate 511 nil := rfl
@[simp] theorem Engine.clearHeap_pqSize (e : Engine) : (e.clearHeap).pqSize = 0 := rfl
@[simp] theorem Engine.clearHeap_pqCap (e : Engine) : (e.clearHeap).pqCap = e.pqCap := rfl
@[simp] theorem Engine.clearHeap_codeMap (e : Engine) : (e.clearHeap).codeMap = e.codeMap := rfl
@[simp] theorem Engine.clearHeap_bbMem (e : Engine) : (e.clearHeap).bbMem = e.bbMem := rfl
@[simp] theorem Engine.clearHeap_bbCap (e : Engine) : (e.clearHeap).bbCap = e.bbCap := rfl
@[simp] theorem Engine.clearHeap_bbTotal (e : Engine) : (e.clearHeap).bbTotal = e.bbTotal := rfl
@[simp] theorem Engine.clearHeap_bbByteOff (e : Engine) : (e.clearHeap).bbByteOff = e.bbByteOff := rfl
@[simp] theorem Engine.clearHeap_bbBitOff (e : Engine) : (e.clearHeap).bbBitOff = e.bbBitOff := rfl
@[simp] theorem Engine.clearHeap_dataMem (e : Engine) : (e.clearHeap).dataMem = e.dataMem := rfl
@[simp] theorem Engine.clearHeap_outMem (e : Engine) : (e.clearHeap).outMem = e.outMem := rfl

@[simp] theorem Engine.clearArena_res (e : Engine) : (e.clearArena).res = e.res := rfl
@[simp] theorem Engine.clearArena_freq (e : Engine) : (e.clearArena).freq = e.freq := rfl
@[simp] theorem Engine.clearArena_nodes (e : Engine) : (e.clearArena).nodes = Vector.replicate 511 Node.empty := rfl
@[simp] theorem Engine.clearArena_nodeCount (e : Engine) : (e.clearArena).nodeCount = 0 := rfl
@[simp] theorem Engine.clearArena_root (e : Engine) : (e.clearArena).root = nil := rfl
@[simp] theorem Engine.clearArena_heap (e : Engine) : (e.clearArena).heap = Vector.replicate 511 nil := rfl
@[simp] theorem Engine.clearArena_pqSize (e : Engine) : (e.clearArena).pqSize = 0 := rfl
@[simp] theorem Engine.clearArena_pqCap (e : Engine) : (e.clearArena).pqCap = e.pqCap := rfl
@[simp] theorem Engine.clearArena_codeMap (e : Engine) : (e.clearArena).codeMap = e.codeMap := rfl
@[simp] theorem Engine.clearArena_bbMem (e : Engine) : (e.clearArena).bbMem = e.bbMem := rfl
@[simp] theorem Engine.clearArena_bbCap (e : Engine) : (e.clearArena).bbCap = e.bbCap := rfl
@[simp] theorem Engine.clearArena_bbTotal (e : Engine) : (e.clearArena).bbTotal = e.bbTotal := rfl
@[simp] theorem Engine.clearArena_bbByteOff (e : Engine) : (e.clearArena).bbByteOff = e.bbByteOff := rfl
@[simp] theorem Engine.clearArena_bbBitOff (e : Engine) : (e.clearArena).bbBitOff = e.bbBitOff := rfl
@[simp] theorem Engine.clearArena_dataMem (e : Engine) : (e.clearArena).dataMem = e.dataMem := rfl
@[simp] theorem Engine.clearArena_outMem (e : Engine) : (e.clearArena).outMem = e.outMem := rfl

@[simp] theorem Engine.freshBuffer_res (e : Engine) (cap : Nat) : (e.freshBuffer cap).res = e.res := rfl
@[simp] theorem Engine.freshBuffer_freq (e : Engine) (cap : Nat) : (e.freshBuffer cap).freq = e.freq := rfl
@[simp] theorem Engine.freshBuffer_nodes (e : Engine) (cap : Nat) : (e.freshBuffer cap).nodes = e.nodes := rfl
@[simp] theorem Engine.freshBuffer_nodeCount (e : Engine) (cap : Nat) : (e.freshBuffer cap).nodeCount = e.nodeCount := rfl
@[simp] theorem Engine.freshBuffer_root (e : Engine) (cap : Nat) : (e.freshBuffer cap).root = e.root := rfl
@[simp] theorem Engine.freshBuffer_heap (e : Engine) (cap : Nat) : (e.freshBuffer cap).heap = e.heap := rfl
@[simp] theorem Engine.freshBuffer_pqSize (e : Engine) (cap : Nat) : (e.freshBuffer cap).pqSize = e.pqSize := rfl
@[simp] theorem Engine.freshBuffer_pqCap (e : Engine) (cap : Nat) : (e.freshBuffer cap).pqCap = e.pqCap := rfl
@[simp] theorem Engine.freshBuffer_codeMap (e : Engine) (cap : Nat) : (e.freshBuffer cap).codeMap = e.codeMap := rfl
@[simp] theorem Engine.freshBuffer_bbMem (e : Engine) (cap : Nat) : (e.freshBuffer cap).bbMem = [] := rfl
@[simp] theorem Engine.freshBuffer_bbCap (e : Engine) (cap : Nat) : (e.freshBuffer cap).bbCap = BitVec.ofNat 17 cap := rfl
@[simp] theorem Engine.freshBuffer_bbTotal (e : Engine) (cap : Nat) : (e.freshBuffer cap).bbTotal = 0 := rfl
@[simp] theorem Engine.freshBuffer_bbByteOff (e : Engine) (cap : Nat) : (e.freshBuffer cap).bbByteOff = 0 := rfl
@[simp] theorem Engine.freshBuffer_bbBitOff (e : Engine) (cap : Nat) : (e.freshBuffer cap).bbBitOff = 0 := rfl
@[simp] theorem Engine.freshBuffer_dataMem (e : Engine) (cap : Nat) : (e.freshBuffer cap).dataMem = e.dataMem := rfl
@[simp] theorem Engine.freshBuffer_outMem (e : Engine) (cap : Nat) : (e.freshBuffer cap).outMem = e.outMem := rfl

end Sys2Proof.Machine
end

