-- ==== Sys2Proof/Laws/Run.lean ====
section
/-! SUPPORT. How a command's rule runs: sequencing, the two ways to stop, and the inversion of `State.finish` and of a step. -/

namespace Sys2Proof.Machine

/-! ### Sequencing -/

@[simp] theorem Run.ok_bind {α β : Type} (a : α) (f : α → Run β) : ((Except.ok a : Run α) >>= f) = f a := rfl

@[simp] theorem Run.error_bind {α β : Type} (x : Stop) (f : α → Run β) : ((Except.error x : Run α) >>= f) = Except.error x := rfl

@[simp] theorem Run.raise_bind {α β : Type} (k : ErrorKind) (f : α → Run β) : ((raise k : Run α) >>= f) = raise k := rfl

@[simp] theorem Run.stuck_bind {α β : Type} (r : Fault) (f : α → Run β) : ((stuck r : Run α) >>= f) = stuck r := rfl

@[simp] theorem Run.map_ok {α β : Type} (f : α → β) (a : α) : (f <$> (Except.ok a : Run α)) = Except.ok (f a) := rfl

@[simp] theorem Run.map_stuck {α β : Type} (f : α → β) (r : Fault) : (f <$> (stuck r : Run α)) = stuck r := rfl

/-- A sequence answers exactly when its first part does and the rest does on that answer. -/
theorem Run.bind_eq_ok {α β : Type} {x : Run α} {f : α → Run β} {b : β} :
    (x >>= f) = .ok b ↔ ∃ a, x = .ok a ∧ f a = .ok b := by
  cases x with
  | ok a => simp
  | error y => simp

theorem Run.map_eq_ok {α β : Type} {x : Run α} {f : α → β} {b : β} :
    (f <$> x) = (.ok b : Run β) ↔ ∃ a, x = .ok a ∧ f a = b := by
  cases x with
  | ok a => simp
  | error y => exact ⟨fun h => (by cases h), fun h => (by obtain ⟨a, h, _⟩ := h; cases h)⟩

@[simp] theorem raise_ne_ok {α : Type} {k : ErrorKind} {a : α} : (raise k : Run α) ≠ .ok a := by simp [raise]

@[simp] theorem stuck_ne_ok {α : Type} {r : Fault} {a : α} : (stuck r : Run α) ≠ .ok a := by simp [stuck]

@[simp] theorem ite_raise_eq_ok {α : Type} {c : Prop} [Decidable c] {k : ErrorKind} {x : Run α} {a : α} :
    (if c then raise k else x) = .ok a ↔ ¬ c ∧ x = .ok a := by
  by_cases h : c <;> simp [h]

/-! ### The end of a command -/

@[simp] theorem State.finish_ok (s : State) (e : Engine) : s.finish (.ok e) = .next (s.complete e) := rfl

@[simp] theorem State.finish_raise (s : State) (k : ErrorKind) : s.finish (raise k) = .next (s.fail k) := rfl

@[simp] theorem State.finish_stuck (s : State) (r : Fault) : s.finish (stuck r) = .fault r := rfl

/-- All a finished rule can do: it committed an engine state, or it failed and changed nothing but STATUS (R245). -/
theorem State.finish_eq_next {s t : State} {r : Run Engine} (h : s.finish r = .next t) :
    (∃ e, r = .ok e ∧ t = s.complete e) ∨ ∃ k, r = raise k ∧ t = s.fail k := by
  match r, h with
  | .ok e, h => exact .inl ⟨e, rfl, by simpa [State.finish] using h.symm⟩
  | .error (.raise k), h => exact .inr ⟨k, rfl, by simpa [State.finish] using h.symm⟩
  | .error (.fault _), h => simp [State.finish] at h

theorem State.runRule_eq_next {s t : State} {rule : Params → Engine → Run Engine} (h : s.runRule rule = .next t) :
    (∃ e, rule s.params s.engine = .ok e ∧ t = s.complete e) ∨ ∃ k, rule s.params s.engine = raise k ∧ t = s.fail k :=
  State.finish_eq_next h

theorem State.runRule_ok {s : State} {rule : Params → Engine → Run Engine} {e : Engine} (h : rule s.params s.engine = .ok e) :
    s.runRule rule = .next (s.complete e) := by simp [State.runRule, h]

theorem State.runRule_raise {s : State} {rule : Params → Engine → Run Engine} {k : ErrorKind} (h : rule s.params s.engine = raise k) :
    s.runRule rule = .next (s.fail k) := by simp [State.runRule, h]

/-- The error codes lie in 1 to 8 (R241). -/
theorem ErrorKind.code_range (k : ErrorKind) : 1 ≤ k.code.toNat ∧ k.code.toNat ≤ 8 := by cases k <;> decide

theorem ErrorKind.code_ne_zero (k : ErrorKind) : k.code ≠ 0 := by cases k <;> decide

/-! ### A step -/

theorem step_idle_schedule {s : State} (h : s.schedule = []) : step s = s.engineTurn := by simp [step, h]

theorem step_event {s : State} {ev : Event} {rest : List Event} (h : s.schedule = ev :: rest) :
    step s = State.deliver { s with schedule := rest } ev := by simp [step, h]

/-- All an engine turn can do: run the decoded command, fail on a reserved OPC, or idle (R245, R255). -/
theorem State.engineTurn_eq_next {s t : State} (h : s.engineTurn = .next t) :
    (s.status.busy = true ∧ ∃ i, decode s.cmdLatch = .ok i ∧ exec i s = .next t) ∨
    (s.status.busy = true ∧ (∃ x, decode s.cmdLatch = .error x) ∧ t = s.fail .illegalCommand) ∨
    (s.status.busy = false ∧ t = s) := by
  unfold State.engineTurn at h
  by_cases hb : s.status.busy = true
  · simp only [hb, if_true, State.completeCommand] at h
    cases hd : decode s.cmdLatch with
    | ok i => exact .inl ⟨hb, i, rfl, by simpa [hd] using h⟩
    | error x =>
      refine .inr (.inl ⟨hb, ⟨x, rfl⟩, ?_⟩)
      simpa [hd, State.illegalCommand] using h.symm
  · simp only [hb] at h
    exact .inr (.inr ⟨by simpa using hb, by simpa using h.symm⟩)

end Sys2Proof.Machine
end

