-- ==== Sys2Proof/Laws/Memory.lean ====
section
/-! SUPPORT. The laws of the byte memories: read after write, and the canonical form every operation keeps (spec/20_memory.md R61). -/

namespace Sys2Proof.Machine

namespace Memory

@[simp] theorem read_nil (a : Nat) : Memory.read [] a = 0 := rfl

theorem wf_nil : Memory.wf [] := by simp [Memory.wf]

theorem wf_tail {c : Host.Cell} {m : Memory} (h : Memory.wf (c :: m)) : Memory.wf m :=
  ⟨h.1.of_cons, fun x hx => h.2 x (List.mem_cons_of_mem _ hx)⟩

theorem head_lt {c : Host.Cell} {m : Memory} (h : Memory.wf (c :: m)) : ∀ x ∈ m, c.1 < x.1 := by
  have := h.1
  simp only [List.pairwise_cons] at this
  exact this.1

/-- An address below every listed one reads as unlisted. -/
theorem read_of_lt (m : Memory) {a : Nat} (h : ∀ x ∈ m, a < x.1) : m.read a = 0 := by
  induction m with
  | nil => rfl
  | cons c m ih =>
    have hc := h c (by simp)
    simp only [Memory.read]
    rw [if_neg (by omega), ih (fun x hx => h x (List.mem_cons_of_mem _ hx))]

/-- Read after write at the same address. -/
theorem read_write_same {m : Memory} (hm : m.wf) (a : Nat) (v : Byte) : (m.write a v).read a = v := by
  induction m with
  | nil =>
    simp only [Memory.write]
    split
    · rename_i hv; simp [hv, unlisted]
    · simp [Memory.read]
  | cons c m ih =>
    obtain ⟨k, b⟩ := c
    have hlt := head_lt hm
    simp only [Memory.write]
    split
    · rename_i hak
      split
      · rename_i hv
        rw [hv, Memory.read, if_neg (by omega)]
        exact read_of_lt m (fun x hx => Nat.lt_trans hak (hlt x hx))
      · simp [Memory.read]
    · split
      · rename_i hak
        subst hak
        split
        · rename_i hv
          rw [hv]
          exact read_of_lt m hlt
        · simp [Memory.read]
      · rename_i h1 h2
        rw [Memory.read, if_neg (fun h => h2 h.symm), ih (wf_tail hm)]

/-- A write leaves every other address alone. -/
theorem read_write_other (m : Memory) {a x : Nat} (h : x ≠ a) (v : Byte) : (m.write a v).read x = m.read x := by
  induction m with
  | nil =>
    simp only [Memory.write]
    split
    · rfl
    · simp [Memory.read, Ne.symm h, unlisted]
  | cons c m ih =>
    obtain ⟨k, b⟩ := c
    simp only [Memory.write]
    split
    · split
      · rfl
      · simp [Memory.read, Ne.symm h]
    · split
      · rename_i hak
        subst hak
        split <;> simp [Memory.read, Ne.symm h]
      · simp only [Memory.read, ih]

theorem read_write {m : Memory} (hm : m.wf) (a x : Nat) (v : Byte) :
    (m.write a v).read x = if x = a then v else m.read x := by
  by_cases h : x = a
  · subst h; simp [read_write_same hm]
  · simp [h, read_write_other]

/-- Where the pairs of a written memory come from. -/
theorem mem_write {m : Memory} {a : Nat} {v : Byte} {c : Host.Cell} (h : c ∈ m.write a v) : c = (a, v) ∨ c ∈ m := by
  induction m with
  | nil =>
    simp only [Memory.write] at h
    split at h <;> simp_all
  | cons d m ih =>
    obtain ⟨k, b⟩ := d
    simp only [Memory.write] at h
    split at h
    · split at h <;> simp_all
    · split at h
      · split at h
        · exact .inr (List.mem_cons_of_mem _ h)
        · rcases List.mem_cons.mp h with h | h
          · exact .inl h
          · exact .inr (List.mem_cons_of_mem _ h)
      · rcases List.mem_cons.mp h with h | h
        · exact .inr (by simp [h])
        · rcases ih h with h | h
          · exact .inl h
          · exact .inr (List.mem_cons_of_mem _ h)

/-- A write keeps the canonical form. -/
theorem wf_write {m : Memory} (hm : m.wf) (a : Nat) (v : Byte) : (m.write a v).wf := by
  induction m with
  | nil => by_cases hv : v = unlisted <;> simp [Memory.write, hv, Memory.wf]
  | cons c m ih =>
    obtain ⟨k, b⟩ := c
    have hlt := head_lt hm
    have hb := hm.2 (k, b) (by simp)
    have ht := wf_tail hm
    simp only [Memory.write]
    split
    · rename_i hak
      split
      · exact hm
      · rename_i hv
        refine ⟨List.pairwise_cons.mpr ⟨?_, hm.1⟩, ?_⟩
        · intro x hx
          rcases List.mem_cons.mp hx with h | h
          · subst h; exact hak
          · exact Nat.lt_trans hak (hlt x h)
        · intro x hx
          rcases List.mem_cons.mp hx with h | h
          · subst h; exact hv
          · exact hm.2 x h
    · split
      · rename_i h1 hak
        subst hak
        split
        · exact ht
        · rename_i hv
          refine ⟨List.pairwise_cons.mpr ⟨hlt, ht.1⟩, ?_⟩
          intro x hx
          rcases List.mem_cons.mp hx with h | h
          · subst h; exact hv
          · exact ht.2 x h
      · rename_i h1 h2
        have ihw := ih ht
        refine ⟨List.pairwise_cons.mpr ⟨?_, ihw.1⟩, ?_⟩
        · intro x hx
          rcases mem_write hx with h | h
          · subst h; show k < a; omega
          · exact hlt x h
        · intro x hx
          rcases List.mem_cons.mp hx with h | h
          · subst h; exact hb
          · exact ihw.2 x h

/-- Two canonical memories that read alike everywhere are the same list. -/
theorem eq_of_read {m n : Memory} (hm : m.wf) (hn : n.wf) (h : ∀ a, m.read a = n.read a) : m = n := by
  induction m generalizing n with
  | nil =>
    cases n with
    | nil => rfl
    | cons d n =>
      have := h d.1
      simp [Memory.read] at this
      exact absurd this.symm (hn.2 d (by simp))
  | cons c m ih =>
    cases n with
    | nil =>
      have := h c.1
      simp [Memory.read] at this
      exact absurd this (hm.2 c (by simp))
    | cons d n =>
      obtain ⟨k, b⟩ := c
      obtain ⟨l, b'⟩ := d
      have h1 := head_lt hm
      have h2 := head_lt hn
      have hkl : k = l := by
        rcases Nat.lt_trichotomy k l with hlt | heq | hgt
        · have hk := h k
          simp only [Memory.read, if_true] at hk
          rw [if_neg (by omega), read_of_lt n (fun x hx => Nat.lt_trans hlt (h2 x hx))] at hk
          exact absurd hk (hm.2 (k, b) (by simp))
        · exact heq
        · have hk := h l
          simp only [Memory.read, if_true] at hk
          rw [if_neg (by omega), read_of_lt m (fun x hx => Nat.lt_trans hgt (h1 x hx))] at hk
          exact absurd hk.symm (hn.2 (l, b') (by simp))
      subst hkl
      have hb : b = b' := by simpa [Memory.read] using h k
      subst hb
      rw [ih (wf_tail hm) (wf_tail hn)]
      intro a
      by_cases ha : a = k
      · subst ha; rw [read_of_lt m h1, read_of_lt n h2]
      · simpa [Memory.read, Ne.symm ha] using h a

end Memory

theorem MemoryOk.nil (size : Nat) : MemoryOk size [] := ⟨Memory.wf_nil, by simp⟩

/-- A write below the size keeps a memory in order. -/
theorem MemoryOk.write {size : Nat} {m : Memory} (h : MemoryOk size m) {a : Nat} (ha : a < size) (v : Byte) :
    MemoryOk size (m.write a v) := by
  refine ⟨Memory.wf_write h.1 a v, fun c hc => ?_⟩
  rcases Memory.mem_write hc with hc | hc
  · rw [hc]; exact ha
  · exact h.2 c hc

/-! ### MemRead and MemWrite -/

@[simp] theorem spaceSize_dataMem (p : Params) : spaceSize p .dataMem = p.dataMax := rfl
@[simp] theorem spaceSize_outMem (p : Params) : spaceSize p .outMem = p.dataMax := rfl
@[simp] theorem spaceSize_bbMem (p : Params) : spaceSize p .bbMem = p.bbMax := rfl

@[simp] theorem Engine.space_dataMem (e : Engine) : e.space .dataMem = e.dataMem := rfl
@[simp] theorem Engine.space_outMem (e : Engine) : e.space .outMem = e.outMem := rfl
@[simp] theorem Engine.space_bbMem (e : Engine) : e.space .bbMem = e.bbMem := rfl

@[simp] theorem Engine.withSpace_dataMem (e : Engine) (m : Memory) : e.withSpace .dataMem m = { e with dataMem := m } := rfl
@[simp] theorem Engine.withSpace_outMem (e : Engine) (m : Memory) : e.withSpace .outMem m = { e with outMem := m } := rfl
@[simp] theorem Engine.withSpace_bbMem (e : Engine) (m : Memory) : e.withSpace .bbMem m = { e with bbMem := m } := rfl

/-- All a MemRead can do (R61). -/
theorem Engine.memRead_eq_ok {p : Params} {e : Engine} {sp : Space} {idx : Nat} {b : Byte} :
    e.memRead p sp idx = .ok b ↔ idx < spaceSize p sp ∧ (e.space sp).read idx = b := by
  by_cases h : idx < spaceSize p sp <;> simp [Engine.memRead, h]

/-- All a MemWrite can do (R61). -/
theorem Engine.memWrite_eq_ok {p : Params} {e e' : Engine} {sp : Space} {idx : Nat} {v : Byte} :
    e.memWrite p sp idx v = .ok e' ↔ idx < spaceSize p sp ∧ e.withSpace sp ((e.space sp).write idx v) = e' := by
  by_cases h : idx < spaceSize p sp <;> simp [Engine.memWrite, h]

theorem Engine.memRead_ok {p : Params} {e : Engine} {sp : Space} {idx : Nat} (h : idx < spaceSize p sp) :
    e.memRead p sp idx = .ok ((e.space sp).read idx) := Engine.memRead_eq_ok.mpr ⟨h, rfl⟩

theorem Engine.memWrite_ok {p : Params} {e : Engine} {sp : Space} {idx : Nat} {v : Byte} (h : idx < spaceSize p sp) :
    e.memWrite p sp idx v = .ok (e.withSpace sp ((e.space sp).write idx v)) := Engine.memWrite_eq_ok.mpr ⟨h, rfl⟩

end Sys2Proof.Machine
end

