-- ==== Sys2Proof/Laws/Tables.lean ====
section
/-! SUPPORT. The laws of the engine's tables: what reading an entry after writing one gives, and when an access succeeds. -/

namespace Sys2Proof.Machine

/-! ### FREQ and MAP -/

theorem symbol_toNat_inj {c d : Byte} : c.toNat = d.toNat ↔ c = d := BitVec.toNat_inj

theorem Engine.freqAt_setFreq (e : Engine) (c d : Byte) (v : Word32) :
    (e.setFreq c v).freqAt d = if d = c then v else e.freqAt d := by
  by_cases h : d = c
  · subst h; simp [Engine.freqAt]
  · have : c.toNat ≠ d.toNat := fun hh => h (symbol_toNat_inj.mp hh).symm
    simp [Engine.freqAt, h, this]

@[simp] theorem Engine.freqAt_clearFreq (e : Engine) (c : Byte) : e.clearFreq.freqAt c = 0 := by simp [Engine.freqAt]

theorem Engine.mapAt_setMap (e : Engine) (c d : Byte) (m : CodeEntry) :
    (e.setMap c m).mapAt d = if d = c then m else e.mapAt d := by
  by_cases h : d = c
  · subst h; simp [Engine.mapAt]
  · have : c.toNat ≠ d.toNat := fun hh => h (symbol_toNat_inj.mp hh).symm
    simp [Engine.mapAt, h, this]

@[simp] theorem Engine.mapAt_clearMap (e : Engine) (c : Byte) : e.clearMap.mapAt c = CodeEntry.absent := by simp [Engine.mapAt]

theorem mem_symbols (c : Byte) : c ∈ symbols := by
  simp only [symbols, List.mem_map, List.mem_range]
  exact ⟨c.toNat, c.isLt, by simp⟩

theorem symbols_nodup : symbols.Nodup := by
  refine List.Nodup.map_on ?_ List.nodup_range
  intro x hx y hy h
  simp only [List.mem_range] at hx hy
  have := congrArg BitVec.toNat h
  simpa [Nat.mod_eq_of_lt, hx, hy] using this

/-! ### NODE -/

/-- The engine with NODE[i] set to `n`. -/
def Engine.putNode (e : Engine) (i : NodeIdx) (n : Node) : Engine := { e with nodes := e.nodes.setIfInBounds i.toNat n }

theorem nil_toNat : nil.toNat = 511 := rfl

/-- An index other than NIL names an entry. -/
theorem NodeIdx.lt_of_ne_nil {i : NodeIdx} (h : i ≠ nil) : i.toNat < 511 := by
  have h1 : i.toNat < 512 := i.isLt
  have h2 : i.toNat ≠ 511 := fun hh => h (BitVec.eq_of_toNat_eq (by rw [hh]; rfl))
  omega

theorem NodeIdx.ne_nil_of_lt {i : NodeIdx} (h : i.toNat < 511) : i ≠ nil := by
  intro hh; subst hh; exact absurd h (by decide)

@[simp] theorem Engine.nodeAt_nil (e : Engine) : e.nodeAt nil = Node.empty := by
  have : e.nodes[nil.toNat]? = none := Vector.getElem?_eq_none (by decide)
  rw [Engine.nodeAt, this]; rfl

/-- An allocated entry is no NIL. -/
theorem Engine.lt_of_valid {e : Engine} {i : NodeIdx} (h : (e.nodeAt i).valid = true) : i.toNat < 511 := by
  apply NodeIdx.lt_of_ne_nil
  intro hh; subst hh; simp [Node.empty] at h

theorem Engine.lt_of_queued {e : Engine} {i : NodeIdx} (h : e.queued i) : i.toNat < 511 := by
  apply NodeIdx.lt_of_ne_nil
  intro hh; subst hh; simp [Engine.queued, Node.empty] at h

theorem Engine.readNode_ok (e : Engine) {i : NodeIdx} (h : i.toNat < 511) : e.readNode i.toNat = .ok (e.nodeAt i) := by
  have : e.nodes[i.toNat]? = some e.nodes[i.toNat] := Vector.getElem?_eq_getElem h
  simp [Engine.readNode, Engine.nodeAt, this]

theorem Engine.readNode_nat (e : Engine) {b : Nat} (h : b < 511) : e.readNode b = .ok (e.nodeAt (BitVec.ofNat 9 b)) := by
  have hb : (BitVec.ofNat 9 b).toNat = b := by simp; omega
  have := e.readNode_ok (i := BitVec.ofNat 9 b) (by omega)
  rwa [hb] at this

/-- All a read of NODE can do (R28). -/
theorem Engine.readNode_eq_ok {e : Engine} {i : Nat} {n : Node} :
    e.readNode i = .ok n ↔ i < 511 ∧ n = e.nodeAt (BitVec.ofNat 9 i) := by
  by_cases h : i < 511
  · rw [e.readNode_nat h]
    simp only [h, true_and, Except.ok.injEq]
    exact eq_comm
  · simp [Engine.readNode, h]

theorem Engine.writeNode_ok (e : Engine) {i : NodeIdx} (h : i.toNat < 511) (n : Node) :
    e.writeNode i.toNat n = .ok (e.putNode i n) := by simp [Engine.writeNode, h, Engine.putNode]

/-- All a write of NODE can do (R28). -/
theorem Engine.writeNode_eq_ok {e e' : Engine} {i : Nat} {n : Node} :
    e.writeNode i n = .ok e' ↔ i < 511 ∧ e' = e.putNode (BitVec.ofNat 9 i) n := by
  by_cases h : i < 511
  · have hb : (BitVec.ofNat 9 i).toNat = i := by simp; omega
    have := e.writeNode_ok (i := BitVec.ofNat 9 i) (by omega) n
    rw [hb] at this
    rw [this]
    simp only [h, true_and, Except.ok.injEq]
    exact eq_comm
  · simp [Engine.writeNode, h]

theorem Engine.nodeAt_putNode (e : Engine) {i : NodeIdx} (h : i.toNat < 511) (n : Node) (j : NodeIdx) :
    (e.putNode i n).nodeAt j = if j = i then n else e.nodeAt j := by
  by_cases hj : j = i
  · subst hj
    simp [Engine.putNode, Engine.nodeAt, h]
  · have : i.toNat ≠ j.toNat := fun hh => hj (BitVec.eq_of_toNat_eq hh).symm
    simp [Engine.putNode, Engine.nodeAt, this, hj]

/-- Engines with the same NODE table read alike. -/
theorem Engine.nodeAt_congr {a b : Engine} (h : a.nodes = b.nodes) (i : NodeIdx) : a.nodeAt i = b.nodeAt i := by
  simp [Engine.nodeAt, h]

/-- The record of a node with another slot. -/
def Node.withSlot (n : Node) (k : Nat) : Node := { n with heapSlot := BitVec.ofNat 9 k }

/-- All a slot write can do (R151). -/
theorem Engine.setSlot_ok (e : Engine) {i : NodeIdx} (h : i.toNat < 511) (k : Nat) :
    e.setSlot i k = .ok (e.putNode i ((e.nodeAt i).withSlot k)) := by
  simp [Engine.setSlot, e.readNode_ok h, e.writeNode_ok h, Node.withSlot]

theorem Engine.setSlot_eq_ok {e e' : Engine} {i : NodeIdx} {k : Nat} :
    e.setSlot i k = .ok e' ↔ i.toNat < 511 ∧ e' = e.putNode i ((e.nodeAt i).withSlot k) := by
  by_cases h : i.toNat < 511
  · rw [e.setSlot_ok h]
    simp only [h, true_and, Except.ok.injEq]
    exact eq_comm
  · simp [Engine.setSlot, Engine.readNode, h]

/-! ### HEAP -/

/-- The engine with HEAP[k] set to `i`. -/
def Engine.putHeap (e : Engine) (k : Nat) (i : NodeIdx) : Engine := { e with heap := e.heap.setIfInBounds (k - 1) i }

@[simp] theorem Engine.heapAt_zero (e : Engine) : e.heapAt 0 = nil := by simp [Engine.heapAt]

theorem Engine.readHeap_ok {p : Params} (e : Engine) {k : Nat} (h1 : 1 ≤ k) (h2 : k ≤ p.pqMax) (hp : p.pqMax ≤ 511) :
    e.readHeap p k = .ok (e.heapAt k) := by
  have hk : k - 1 < 511 := by omega
  have : e.heap[k - 1]? = some e.heap[k - 1] := Vector.getElem?_eq_getElem hk
  simp [Engine.readHeap, h1, h2, Engine.heapAt, this, show k ≠ 0 by omega]

/-- All a read of HEAP can do (R31). -/
theorem Engine.readHeap_eq_ok {p : Params} {e : Engine} {k : Nat} {i : NodeIdx} (h : e.readHeap p k = .ok i) :
    1 ≤ k ∧ k ≤ p.pqMax ∧ k ≤ 511 ∧ i = e.heapAt k := by
  unfold Engine.readHeap at h
  split at h
  · rename_i hk
    by_cases hlt : k - 1 < 511
    · have : e.heap[k - 1]? = some e.heap[k - 1] := Vector.getElem?_eq_getElem hlt
      simp only [this, Except.ok.injEq] at h
      exact ⟨hk.1, hk.2, by omega, by simp [Engine.heapAt, this, h, show k ≠ 0 by omega]⟩
    · have : e.heap[k - 1]? = none := Vector.getElem?_eq_none (by omega)
      simp [this] at h
  · simp at h

theorem Engine.writeHeap_ok {p : Params} (e : Engine) {k : Nat} (h1 : 1 ≤ k) (h2 : k ≤ p.pqMax) (hp : p.pqMax ≤ 511) (i : NodeIdx) :
    e.writeHeap p k i = .ok (e.putHeap k i) := by
  simp [Engine.writeHeap, h1, h2, Engine.putHeap, show k ≤ 511 by omega]

/-- All a write of HEAP can do (R31). -/
theorem Engine.writeHeap_eq_ok {p : Params} {e e' : Engine} {k : Nat} {i : NodeIdx} :
    e.writeHeap p k i = .ok e' ↔ (1 ≤ k ∧ k ≤ p.pqMax ∧ k ≤ 511) ∧ e' = e.putHeap k i := by
  by_cases h : 1 ≤ k ∧ k ≤ p.pqMax ∧ k ≤ 511
  · simp only [Engine.writeHeap, h, and_self, if_true, Except.ok.injEq, Engine.putHeap, true_and]
    exact eq_comm
  · simp [Engine.writeHeap, h]

theorem Engine.heapAt_putHeap (e : Engine) {k : Nat} (h1 : 1 ≤ k) (h2 : k ≤ 511) (i : NodeIdx) (l : Nat) :
    (e.putHeap k i).heapAt l = if l = k then i else e.heapAt l := by
  by_cases hl : l = k
  · subst hl
    simp [Engine.putHeap, Engine.heapAt, show l ≠ 0 by omega, show l - 1 < 511 by omega]
  · by_cases h0 : l = 0
    · subst h0; simp [Engine.heapAt, show (0 : Nat) ≠ k by omega]
    · simp [Engine.putHeap, Engine.heapAt, hl, h0, show k - 1 ≠ l - 1 by omega]

theorem Engine.heapAt_congr {a b : Engine} (h : a.heap = b.heap) (k : Nat) : a.heapAt k = b.heapAt k := by
  simp [Engine.heapAt, h]

@[simp] theorem Engine.nodeAt_putHeap (e : Engine) (k : Nat) (i j : NodeIdx) : (e.putHeap k i).nodeAt j = e.nodeAt j := rfl

@[simp] theorem Engine.heapAt_putNode (e : Engine) (i : NodeIdx) (n : Node) (k : Nat) : (e.putNode i n).heapAt k = e.heapAt k := rfl

@[simp] theorem Engine.pqSize_putNode (e : Engine) (i : NodeIdx) (n : Node) : (e.putNode i n).pqSize = e.pqSize := rfl

@[simp] theorem Engine.pqSize_putHeap (e : Engine) (k : Nat) (i : NodeIdx) : (e.putHeap k i).pqSize = e.pqSize := rfl

@[simp] theorem Engine.heapAt_clearHeap (e : Engine) (k : Nat) : e.clearHeap.heapAt k = nil := by
  by_cases h : k = 0
  · simp [Engine.heapAt, h]
  · by_cases h2 : k - 1 < 511 <;> simp [Engine.heapAt, h, h2]

theorem Engine.nodeAt_replicate {e : Engine} (h : e.nodes = Vector.replicate 511 Node.empty) (i : NodeIdx) :
    e.nodeAt i = Node.empty := by
  by_cases h2 : i.toNat < 511 <;> simp [Engine.nodeAt, h, h2]

@[simp] theorem Engine.nodeAt_clearArena (e : Engine) (i : NodeIdx) : e.clearArena.nodeAt i = Node.empty :=
  Engine.nodeAt_replicate rfl i

@[simp] theorem Engine.heapAt_clearArena (e : Engine) (k : Nat) : e.clearArena.heapAt k = nil := Engine.heapAt_clearHeap e k

/-! ### Allocated nodes as operands -/

/-- All `validNode` can do (R157, R161, R176). -/
theorem Engine.validNode_cases (e : Engine) (b : Nat) :
    (510 < b ∨ (e.nodeAt (BitVec.ofNat 9 b)).valid = false) ∧ e.validNode b = raise .invalidArgument ∨
    b ≤ 510 ∧ (e.nodeAt (BitVec.ofNat 9 b)).valid = true ∧ e.validNode b = .ok (e.nodeAt (BitVec.ofNat 9 b)) := by
  by_cases hb : 510 < b
  · exact .inl ⟨.inl hb, by simp [Engine.validNode, hb]⟩
  · by_cases hv : (e.nodeAt (BitVec.ofNat 9 b)).valid = true
    · exact .inr ⟨by omega, hv, by simp [Engine.validNode, hb, e.readNode_nat (show b < 511 by omega), hv]⟩
    · exact .inl ⟨.inr (by simpa using hv), by simp [Engine.validNode, hb, e.readNode_nat (show b < 511 by omega), hv]⟩

end Sys2Proof.Machine
end

