-- ==== Sys2Proof/Laws/BitBuffer.lean ====
section
/-! SUPPORT. The laws of the bit buffer: one stream bit, a run of bits, the capacity, and what `bbAppend` does (spec/41_bitbuffer.md R119). -/

namespace Sys2Proof.Machine

/-! ### One stream bit -/

theorem Engine.bitAt_congr {a b : Engine} (h : a.bbMem = b.bbMem) (q : Nat) : a.bitAt q = b.bitAt q := by
  simp [Engine.bitAt, h]

/-- A stream bit that exists can be read (R62). -/
theorem Engine.streamBit_ok {p : Params} (e : Engine) {q : Nat} (h : q < 8 * p.bbMax) : e.streamBit p q = .ok (e.bitAt q) := by
  have hq : q / 8 < spaceSize p .bbMem := by simp; omega
  simp [Engine.streamBit, Engine.memRead_ok hq, Engine.bitAt, bitInByte]

/-- All a stream-bit read can do. -/
theorem Engine.streamBit_eq_ok {p : Params} {e : Engine} {q : Nat} {b : Bool} :
    e.streamBit p q = .ok b ↔ q < 8 * p.bbMax ∧ e.bitAt q = b := by
  by_cases h : q < 8 * p.bbMax
  · simp [e.streamBit_ok h, h]
  · have : ¬ q / 8 < p.bbMax := by omega
    simp [Engine.streamBit, Engine.memRead, this, h]

/-- The bits of a byte with one bit set by OR. -/
theorem getLsbD_or_bit (old : Byte) (b : Bool) {k i : Nat} (hi : i < 8) :
    (old ||| BitVec.ofNat 8 (b.toNat <<< k)).getLsbD i = (old.getLsbD i || (b && decide (i = k))) := by
  rw [BitVec.getLsbD_or, BitVec.getLsbD_ofNat]
  cases b with
  | false => simp
  | true =>
    have h1 : (Bool.toNat true <<< k) = 2 ^ k := by simp [Nat.shiftLeft_eq]
    rw [h1, Nat.testBit_two_pow]
    simp [hi, eq_comm]

/-- SetStreamBit ORs one bit and leaves every other (R62). -/
theorem Engine.setStreamBit_ok {p : Params} (e : Engine) (hm : MemoryOk p.bbMax e.bbMem) {q : Nat} (h : q < 8 * p.bbMax) (b : Bool) :
    ∃ e', e.setStreamBit p q b = .ok e' ∧ e' = { e with bbMem := e'.bbMem } ∧ MemoryOk p.bbMax e'.bbMem ∧
      ∀ x, e'.bitAt x = if x = q then (e.bitAt q || b) else e.bitAt x := by
  have hq : q / 8 < spaceSize p .bbMem := by simp; omega
  refine ⟨_, by simp [Engine.setStreamBit, Engine.memRead_ok hq, Engine.memWrite_ok hq]; rfl, rfl, hm.write (by simpa using hq) _, ?_⟩
  intro x
  have hk : bitInByte q < 8 := by unfold bitInByte; omega
  have hi : 7 - x % 8 < 8 := by omega
  simp only [Engine.bitAt]
  rw [Memory.read_write hm.1]
  by_cases hx : x / 8 = q / 8
  · rw [if_pos hx, getLsbD_or_bit _ _ hi, hx]
    by_cases hxq : x = q
    · subst hxq; simp [bitInByte]
    · have hne : 7 - x % 8 ≠ bitInByte q := by unfold bitInByte; omega
      simp [hxq, hne]
  · have hxq : x ≠ q := fun hh => hx (by rw [hh])
    simp [hx, hxq]

/-! ### A run of bits -/

/-- Writing the low `n` bits of `v` from position `q` ORs bit n-1-j onto position q+j and leaves every other bit (R63, R119). -/
theorem Engine.writeBits_ok {p : Params} (v : Word64) (n : Nat) (e : Engine) (q : Nat) (hm : MemoryOk p.bbMax e.bbMem)
    (h : q + n ≤ 8 * p.bbMax) :
    ∃ e', Engine.writeBits p v n e q = .ok e' ∧ e' = { e with bbMem := e'.bbMem } ∧ MemoryOk p.bbMax e'.bbMem ∧
      ∀ x, e'.bitAt x = if q ≤ x ∧ x < q + n then (e.bitAt x || v.getLsbD (n - 1 - (x - q))) else e.bitAt x := by
  induction n generalizing e q with
  | zero => exact ⟨e, rfl, rfl, hm, fun x => by rw [if_neg (by omega)]⟩
  | succ n ih =>
    obtain ⟨e1, h1, hf1, hm1, hb1⟩ := e.setStreamBit_ok hm (q := q) (by omega) (v.getLsbD n)
    obtain ⟨e2, h2, hf2, hm2, hb2⟩ := ih e1 (q + 1) hm1 (by omega)
    refine ⟨e2, by simp [Engine.writeBits, h1, h2], by rw [hf2, hf1], hm2, ?_⟩
    intro x
    rw [hb2, hb1]
    rcases Nat.lt_trichotomy x q with hx | hx | hx
    · simp [show ¬ (q + 1 ≤ x) by omega, show ¬ (q ≤ x) by omega, show x ≠ q by omega]
    · subst hx; simp
    · by_cases hx2 : x < q + (n + 1)
      · simp [show x < q + 1 + n by omega, show q + 1 ≤ x by omega, show q ≤ x by omega, hx2, show x ≠ q by omega,
          show n - 1 - (x - (q + 1)) = n - (x - q) by omega]
      · simp [show ¬ x < q + 1 + n by omega, hx2, show x ≠ q by omega]

/-! ### The capacity -/

/-- The doubling loop ends at the first sufficient value (R119, R121). -/
theorem doubleUntil_ok (need fuel c : Nat) (hc : 1 ≤ c) (hf : need ≤ c + fuel) :
    ∃ k, doubleUntil need fuel c = .ok (c * 2 ^ k) ∧ need ≤ c * 2 ^ k ∧ ∀ j, j < k → c * 2 ^ j < need := by
  induction fuel generalizing c with
  | zero => exact ⟨0, by simp [doubleUntil]; omega, by omega, by omega⟩
  | succ fuel ih =>
    by_cases h : c < need
    · obtain ⟨k, h1, h2, h3⟩ := ih (2 * c) (by omega) (by omega)
      have hpow : ∀ m : Nat, 2 * c * 2 ^ m = c * 2 ^ (m + 1) := fun m => by rw [Nat.pow_succ]; ring
      refine ⟨k + 1, by simp [doubleUntil, h, h1, hpow], by rw [← hpow]; exact h2, ?_⟩
      intro j hj
      cases j with
      | zero => simpa using h
      | succ j => rw [← hpow]; exact h3 j (by omega)
    · exact ⟨0, by simp [doubleUntil, h], by omega, by omega⟩

/-- The capacity after a write that needs `need` bytes (R119, R121). -/
theorem Engine.grownCap_ok {p : Params} (e : Engine) {need : Nat} (h1 : 1 ≤ e.bbCap.toNat) (h2 : e.bbCap.toNat ≤ p.bbMax)
    (hn : need ≤ p.bbMax) :
    ∃ c, e.grownCap p need = .ok c ∧ GrownTo p.bbMax e.bbCap.toNat need c ∧ need ≤ c ∧ c ≤ p.bbMax ∧ e.bbCap.toNat ≤ c := by
  by_cases h : e.bbCap.toNat < need
  · obtain ⟨k, hk1, hk2, hk3⟩ := doubleUntil_ok need need e.bbCap.toNat h1 (by omega)
    refine ⟨min (e.bbCap.toNat * 2 ^ k) p.bbMax, by simp [Engine.grownCap, h, hk1], ⟨k, Nat.min_comm _ _, hk2, hk3⟩, by omega, by omega, ?_⟩
    have : e.bbCap.toNat * 1 ≤ e.bbCap.toNat * 2 ^ k := Nat.mul_le_mul_left _ (Nat.one_le_two_pow)
    omega
  · exact ⟨e.bbCap.toNat, by simp [Engine.grownCap, h], ⟨0, by omega, by omega, by omega⟩, by omega, by omega, by omega⟩

/-! ### The cursor -/

theorem Engine.cursor_setCursor (e : Engine) {q : Nat} (h : q / 8 < 65536) : (e.setCursor q).cursor = q := by
  simp [Engine.cursor, Nat.mod_eq_of_lt h]
  omega

@[simp] theorem Engine.cursor_setRes (e : Engine) (v : Nat) : (e.setRes v).cursor = e.cursor := rfl

/-! ### bb_append -/

theorem BufferOk.bit_lt {p : Params} {e : Engine} (h : BufferOk p e) {q : Nat} (hq : q < e.bbTotal.toNat) : q < 8 * p.bbMax := by
  have h1 := h.total_le
  have h2 := h.cap_le
  unfold ceil8 at h1
  omega

/-- All `bb_append` can do when the bits fit in BB_MAX bytes (R119). -/
theorem Engine.bbAppend_ok {p : Params} {e : Engine} (hp : ParamsOk p) (hb : BufferOk p e) (v : Word64) {n : Nat}
    (hn : ceil8 (e.bbTotal.toNat + n) ≤ p.bbMax) :
    ∃ e', e.bbAppend p v n = .ok e' ∧
      e' = { e with bbMem := e'.bbMem, bbCap := e'.bbCap, bbTotal := e'.bbTotal, bbByteOff := e'.bbByteOff, bbBitOff := e'.bbBitOff } ∧
      e'.bbTotal.toNat = e.bbTotal.toNat + n ∧ e'.bbByteOff.toNat = e'.bbTotal.toNat / 8 ∧ e'.bbBitOff.toNat = e'.bbTotal.toNat % 8 ∧
      (∀ x, e'.bitAt x = if e.bbTotal.toNat ≤ x ∧ x < e.bbTotal.toNat + n then v.getLsbD (n - 1 - (x - e.bbTotal.toNat)) else e.bitAt x) ∧
      GrownTo p.bbMax e.bbCap.toNat (ceil8 e'.bbTotal.toNat) e'.bbCap.toNat ∧ BufferOk p e' := by
  have hmax := hp.bbMax_le
  obtain ⟨c, hc1, hc2, hc3, hc4, hc5⟩ := e.grownCap_ok hb.cap_ge hb.cap_le hn
  obtain ⟨e1, h1, hf1, hm1, hb1⟩ := Engine.writeBits_ok (p := p) v n { e with bbCap := BitVec.ofNat 17 c } e.bbTotal.toNat
    hb.memory (by unfold ceil8 at hn; omega)
  have ht : (BitVec.ofNat 20 (e.bbTotal.toNat + n)).toNat = e.bbTotal.toNat + n := by
    rw [BitVec.toNat_ofNat, Nat.mod_eq_of_lt]; unfold ceil8 at hn; omega
  have hcap : (BitVec.ofNat 17 c).toNat = c := by rw [BitVec.toNat_ofNat, Nat.mod_eq_of_lt]; omega
  have hy : (BitVec.ofNat 16 ((e.bbTotal.toNat + n) / 8)).toNat = (e.bbTotal.toNat + n) / 8 := by
    rw [BitVec.toNat_ofNat, Nat.mod_eq_of_lt]; unfold ceil8 at hn; omega
  have hz : (BitVec.ofNat 3 ((e.bbTotal.toNat + n) % 8)).toNat = (e.bbTotal.toNat + n) % 8 := by
    rw [BitVec.toNat_ofNat, Nat.mod_eq_of_lt]; omega
  have hbits : ∀ x, e1.bitAt x = if e.bbTotal.toNat ≤ x ∧ x < e.bbTotal.toNat + n then v.getLsbD (n - 1 - (x - e.bbTotal.toNat))
      else e.bitAt x := by
    intro x
    rw [hb1]
    by_cases hx : e.bbTotal.toNat ≤ x ∧ x < e.bbTotal.toNat + n
    · have : ({ e with bbCap := BitVec.ofNat 17 c } : Engine).bitAt x = false := hb.tail_zero x hx.1
      simp [hx, this]
    · rw [if_neg hx, if_neg hx]; rfl
  have he1 : e1.bbCap = BitVec.ofNat 17 c := by rw [hf1]
  refine ⟨{ e1 with bbTotal := BitVec.ofNat 20 (e.bbTotal.toNat + n) }.setCursor (e.bbTotal.toNat + n), ?_, ?_, ?_, ?_, ?_, ?_, ?_, ?_⟩
  · simp [Engine.bbAppend, Nat.not_lt.mpr hn, hc1, h1]
  · rw [hf1]; rfl
  · simpa using ht
  · simp [ht, hy]
  · simp [ht, hz]
  · exact hbits
  · simpa [ht, he1, hcap] using hc2
  · refine ⟨hm1, ?_, ?_, ?_, ?_, ?_⟩
    · rw [Engine.cursor_setCursor _ (by unfold ceil8 at hn; omega)]; simp [ht]
    · simp [he1, hcap]; have := hb.cap_ge; omega
    · simp [ht, he1, hcap]; exact hc3
    · simp [he1, hcap]; exact hc4
    · intro x hx
      have hx' : e.bbTotal.toNat + n ≤ x := by simpa [ht] using hx
      have : (({ e1 with bbTotal := BitVec.ofNat 20 (e.bbTotal.toNat + n) } : Engine).setCursor (e.bbTotal.toNat + n)).bitAt x = e1.bitAt x := rfl
      rw [this, hbits, if_neg (by omega)]
      exact hb.tail_zero x (by omega)

/-- `bb_append` fails with AllocationFailure exactly when the stream would need more than BB_MAX bytes (R121). -/
theorem Engine.bbAppend_raise {p : Params} {e : Engine} {v : Word64} {n : Nat} (h : p.bbMax < ceil8 (e.bbTotal.toNat + n)) :
    e.bbAppend p v n = raise .allocationFailure := by simp [Engine.bbAppend, h]

/-- A fresh buffer satisfies the bit-buffer invariants (R120). -/
theorem Engine.freshBuffer_ok {p : Params} (hp : ParamsOk p) (e : Engine) {cap : Nat} (h1 : 1 ≤ cap) (h2 : cap ≤ p.bbMax) :
    BufferOk p (e.freshBuffer cap) ∧ (e.freshBuffer cap).bbCap.toNat = cap := by
  have hmax := hp.bbMax_le
  have hcap : (BitVec.ofNat 17 cap).toNat = cap := by rw [BitVec.toNat_ofNat, Nat.mod_eq_of_lt]; omega
  refine ⟨⟨MemoryOk.nil _, by simp [Engine.cursor], ?_, by simp [ceil8], ?_, fun q _ => by simp [Engine.bitAt]⟩, hcap⟩
  · simpa [hcap] using h1
  · simpa [hcap] using h2

end Sys2Proof.Machine
end

