-- ==== Sys2Proof/Laws/Queue.lean ====
section
/-! SUPPORT. The laws of the heap procedures (spec/42_priority_queue.md R150 to R155): what a swap, a sift, an insertion and an
extraction do to the heap and to the slots. -/

namespace Sys2Proof.Machine

/-- Every heap entry is an allocated node whose slot is its own heap index (R162). -/
def EntriesOk (e : Engine) : Prop := ∀ k, 1 ≤ k → k ≤ e.pqSize.toNat →
  (e.nodeAt (e.heapAt k)).valid = true ∧ (e.nodeAt (e.heapAt k)).heapSlot.toNat = k

/-- The node stands somewhere in the heap. -/
def Engine.inHeap (e : Engine) (i : NodeIdx) : Prop := ∃ k, 1 ≤ k ∧ k ≤ e.pqSize.toNat ∧ e.heapAt k = i

/-- What sifting may do: move the entries of the heap among themselves and follow with their slots. -/
structure Moved (a b : Engine) : Prop where
  frame : b = { a with nodes := b.nodes, heap := b.heap }
  nodes : ∀ i, b.nodeAt i = { a.nodeAt i with heapSlot := (b.nodeAt i).heapSlot }
  others : ∀ i, ¬ a.inHeap i → b.nodeAt i = a.nodeAt i
  entries : ∀ i, b.inHeap i ↔ a.inHeap i
  outside : ∀ k, (k = 0 ∨ a.pqSize.toNat < k) → b.heapAt k = a.heapAt k

theorem Moved.refl (a : Engine) : Moved a a := ⟨rfl, fun _ => rfl, fun _ _ => rfl, fun _ => Iff.rfl, fun _ _ => rfl⟩

theorem Moved.pqSize {a b : Engine} (h : Moved a b) : b.pqSize = a.pqSize := by rw [h.frame]

theorem Moved.weight {a b : Engine} (h : Moved a b) (i : NodeIdx) : (b.nodeAt i).weight = (a.nodeAt i).weight := by rw [h.nodes]

theorem Moved.valid {a b : Engine} (h : Moved a b) (i : NodeIdx) : (b.nodeAt i).valid = (a.nodeAt i).valid := by rw [h.nodes]

theorem Moved.trans {a b c : Engine} (h1 : Moved a b) (h2 : Moved b c) : Moved a c where
  frame := by rw [h2.frame, h1.frame]
  nodes i := by rw [h2.nodes, h1.nodes]
  others i hi := by rw [h2.others i (fun h => hi ((h1.entries i).mp h)), h1.others i hi]
  entries i := (h2.entries i).trans (h1.entries i)
  outside k hk := by rw [h2.outside k (by rw [h1.pqSize]; exact hk), h1.outside k hk]

theorem EntriesOk.lt {e : Engine} (h : EntriesOk e) {k : Nat} (h1 : 1 ≤ k) (h2 : k ≤ e.pqSize.toNat) : (e.heapAt k).toNat < 511 :=
  Engine.lt_of_valid (h k h1 h2).1

/-- Two heap indices hold different nodes. -/
theorem EntriesOk.inj {e : Engine} (h : EntriesOk e) {j k : Nat} (hj1 : 1 ≤ j) (hj2 : j ≤ e.pqSize.toNat) (hk1 : 1 ≤ k)
    (hk2 : k ≤ e.pqSize.toNat) (heq : e.heapAt j = e.heapAt k) : j = k := by
  rw [← (h j hj1 hj2).2, ← (h k hk1 hk2).2, heq]

theorem slot_toNat {k : Nat} (h : k ≤ 511) : (BitVec.ofNat 9 k).toNat = k := by
  rw [BitVec.toNat_ofNat, Nat.mod_eq_of_lt]; omega

/-! ### Comparing -/

/-- Comparing two heap entries compares their weights as numbers (R150). -/
theorem Engine.cmpHeap_ok {p : Params} {e : Engine} (he : EntriesOk e) (hp : p.pqMax ≤ 511) (hs : e.pqSize.toNat ≤ p.pqMax) {i j : Nat}
    (hi1 : 1 ≤ i) (hi2 : i ≤ e.pqSize.toNat) (hj1 : 1 ≤ j) (hj2 : j ≤ e.pqSize.toNat) :
    e.cmpHeap p i j = .ok (compare (e.heapWeight i) (e.heapWeight j)) := by
  simp [Engine.cmpHeap, Engine.cmp, e.readHeap_ok hi1 (by omega : i ≤ p.pqMax) hp, e.readHeap_ok hj1 (by omega : j ≤ p.pqMax) hp,
    e.readNode_ok (he.lt hi1 hi2), e.readNode_ok (he.lt hj1 hj2), Engine.heapWeight]

theorem compare_eq_gt {a b : Nat} : compare a b = .gt ↔ b < a := by
  rw [Nat.compare_eq_gt]

theorem compare_eq_lt {a b : Nat} : compare a b = .lt ↔ a < b := by
  rw [Nat.compare_eq_lt]

/-! ### Swapping -/

/-- A swap exchanges two entries and their slots and nothing else (R151). -/
theorem Engine.swap_ok {p : Params} {e : Engine} (he : EntriesOk e) (hp : p.pqMax ≤ 511) (hs : e.pqSize.toNat ≤ p.pqMax) {i j : Nat}
    (hi1 : 1 ≤ i) (hi2 : i ≤ e.pqSize.toNat) (hj1 : 1 ≤ j) (hj2 : j ≤ e.pqSize.toNat) (hij : i ≠ j) :
    ∃ e', e.swap p i j = .ok e' ∧ Moved e e' ∧ EntriesOk e' ∧
      ∀ k, e'.heapAt k = if k = i then e.heapAt j else if k = j then e.heapAt i else e.heapAt k := by
  have hx := he.lt hi1 hi2
  have hy := he.lt hj1 hj2
  have hne : e.heapAt i ≠ e.heapAt j := fun h => hij (he.inj hi1 hi2 hj1 hj2 h)
  let e1 := (e.putHeap i (e.heapAt j)).putHeap j (e.heapAt i)
  let e2 := e1.putNode (e.heapAt j) ((e1.nodeAt (e.heapAt j)).withSlot i)
  let e3 := e2.putNode (e.heapAt i) ((e2.nodeAt (e.heapAt i)).withSlot j)
  have hrun : e.swap p i j = .ok e3 := by
    simp only [Engine.swap, e.readHeap_ok hi1 (by omega : i ≤ p.pqMax) hp, e.readHeap_ok hj1 (by omega : j ≤ p.pqMax) hp, Run.ok_bind,
      Engine.writeHeap_ok _ hi1 (by omega : i ≤ p.pqMax) hp, Engine.writeHeap_ok _ hj1 (by omega : j ≤ p.pqMax) hp,
      Engine.setSlot_ok _ hx, Engine.setSlot_ok _ hy]
    rfl
  have hheap : ∀ k, e3.heapAt k = if k = i then e.heapAt j else if k = j then e.heapAt i else e.heapAt k := by
    intro k
    show e1.heapAt k = _
    rw [Engine.heapAt_putHeap _ hj1 (by omega), Engine.heapAt_putHeap _ hi1 (by omega)]
    by_cases h1 : k = i
    · subst h1; simp [hij]
    · simp [h1]
  have hnode : ∀ n, e3.nodeAt n =
      if n = e.heapAt i then (e.nodeAt n).withSlot j else if n = e.heapAt j then (e.nodeAt n).withSlot i else e.nodeAt n := by
    intro n
    rw [Engine.nodeAt_putNode _ hx, Engine.nodeAt_putNode _ hy, Engine.nodeAt_putNode _ hy]
    have h1 : ∀ m, e1.nodeAt m = e.nodeAt m := fun m => rfl
    simp only [h1]
    by_cases hn : n = e.heapAt i
    · subst hn; simp [hne]
    · by_cases hn2 : n = e.heapAt j
      · subst hn2; simp [Ne.symm hne]
      · simp [hn, hn2]
  have hent : EntriesOk e3 := by
    intro k hk1 hk2
    have hk2' : k ≤ e.pqSize.toNat := hk2
    rw [hheap, hnode]
    by_cases h1 : k = i
    · subst h1
      simp only [if_true, Ne.symm hne, if_false, Node.withSlot]
      exact ⟨(he j hj1 hj2).1, slot_toNat (by omega)⟩
    · by_cases h2 : k = j
      · subst h2
        simp only [h1, if_true, if_false, Node.withSlot]
        exact ⟨(he i hi1 hi2).1, slot_toNat (by omega)⟩
      · have h3 : e.heapAt k ≠ e.heapAt i := fun h => h1 (he.inj hk1 hk2' hi1 hi2 h)
        have h4 : e.heapAt k ≠ e.heapAt j := fun h => h2 (he.inj hk1 hk2' hj1 hj2 h)
        simp only [h1, h2, h3, h4, if_false]
        exact he k hk1 hk2'
  refine ⟨e3, hrun, ⟨rfl, ?_, ?_, ?_, ?_⟩, hent, hheap⟩
  · intro n
    rw [hnode]
    split
    · rfl
    · split <;> rfl
  · intro n hn
    rw [hnode, if_neg, if_neg]
    · exact fun h => hn ⟨j, hj1, hj2, h.symm⟩
    · exact fun h => hn ⟨i, hi1, hi2, h.symm⟩
  · intro n
    constructor
    · rintro ⟨k, h1, h2, h3⟩
      rw [hheap] at h3
      split at h3
      · exact ⟨j, hj1, hj2, h3⟩
      · split at h3
        · exact ⟨i, hi1, hi2, h3⟩
        · exact ⟨k, h1, h2, h3⟩
    · rintro ⟨k, h1, h2, h3⟩
      by_cases hk : k = i
      · exact ⟨j, hj1, hj2, by rw [hheap]; simp [Ne.symm hij, ← h3, hk]⟩
      · by_cases hk2 : k = j
        · exact ⟨i, hi1, hi2, by rw [hheap]; simp [← h3, hk2]⟩
        · exact ⟨k, h1, h2, by rw [hheap]; simp [hk, hk2, h3]⟩
  · intro k hk
    rw [hheap, if_neg (by omega), if_neg (by omega)]

/-! ### Sifting up -/

/-- Sift-up describes the same move in two heaps that differ only at the starting index. -/
theorem SiftedUp.congr {a a' b : Engine} {i : NodeIdx} {k m : Nat} (h : SiftedUp a b i k m) (hk : 1 ≤ k)
    (hh : ∀ l, l ≠ k → a'.heapAt l = a.heapAt l) (hw : ∀ n, (a'.nodeAt n).weight = (a.nodeAt n).weight) : SiftedUp a' b i k m := by
  have hlt : ∀ j, k / 2 ^ (j + 1) < k := fun j => Nat.div_lt_self (by omega) (Nat.one_lt_two_pow (by omega))
  have hne : ∀ j, k / 2 ^ (j + 1) ≠ k := fun j => Nat.ne_of_lt (hlt j)
  have hwt : ∀ l, l ≠ k → a'.heapWeight l = a.heapWeight l := fun l hl => by simp [Engine.heapWeight, hh l hl, hw]
  obtain ⟨h1, h2, h3, h4, h5⟩ := h
  refine ⟨fun j hj => ⟨(h1 j hj).1, by rw [hw, hwt _ (hne j)]; exact (h1 j hj).2⟩, ?_, h3, fun j hj => by rw [hh _ (hne j)]; exact h4 j hj, ?_⟩
  · rw [hw, hwt _ (hne m)]; exact h2
  · intro l hl
    rw [hh l (by have := hl 0 (by omega); simpa using this)]
    exact h5 l hl

/-- All the sift-up loop can do from a heap index of the queue (R152). -/
theorem Engine.siftUpLoop_ok {p : Params} (hp : p.pqMax ≤ 511) (fuel : Nat) {e : Engine} (he : EntriesOk e)
    (hs : e.pqSize.toNat ≤ p.pqMax) {k : Nat} (hk1 : 1 ≤ k) (hk2 : k ≤ e.pqSize.toNat) (hf : k ≤ fuel) :
    ∃ e' m, Engine.siftUpLoop p fuel e k = .ok e' ∧ Moved e e' ∧ EntriesOk e' ∧ SiftedUp e e' (e.heapAt k) k m := by
  induction fuel generalizing e k with
  | zero => omega
  | succ fuel ih =>
    have stay : ((e.heapWeight (k / 2) ≤ e.heapWeight k) ∨ k / 2 = 0) → SiftedUp e e (e.heapAt k) k 0 := by
      intro h
      refine ⟨fun j hj => absurd hj (by omega), ?_, by simp, fun j hj => absurd hj (by omega), fun _ _ => rfl⟩
      simpa [Engine.heapWeight] using h.symm
    by_cases h1 : 1 < k
    · have hc := Engine.cmpHeap_ok he hp hs (i := k / 2) (j := k) (by omega) (by omega) hk1 hk2
      by_cases h2 : e.heapWeight k < e.heapWeight (k / 2)
      · obtain ⟨e1, hr1, hm1, he1, hh1⟩ := Engine.swap_ok he hp hs hk1 hk2 (j := k / 2) (by omega) (by omega) (by omega)
        have hsz : e1.pqSize = e.pqSize := hm1.pqSize
        obtain ⟨e2, m, hr2, hm2, he2, hsu⟩ := ih (e := e1) (k := k / 2) he1 (by rw [hsz]; exact hs) (by omega) (by rw [hsz]; omega) (by omega)
        have hroot : e1.heapAt (k / 2) = e.heapAt k := by rw [hh1]; simp [show k / 2 ≠ k by omega]
        rw [hroot] at hsu
        refine ⟨e2, m + 1, by simp [Engine.siftUpLoop, h1, hc, compare_eq_gt.mpr h2, hr1, hr2], hm1.trans hm2, he2, ?_⟩
        obtain ⟨s1, s2, s3, s4, s5⟩ := hsu
        have hdiv : ∀ j, k / 2 / 2 ^ j = k / 2 ^ (j + 1) := fun j => by rw [Nat.div_div_eq_div_mul, Nat.pow_succ, Nat.mul_comm]
        have hlow : ∀ l, l < k / 2 → e1.heapAt l = e.heapAt l := fun l hl => by
          rw [hh1, if_neg (by omega), if_neg (by omega)]
        have hloww : ∀ l, l < k / 2 → e1.heapWeight l = e.heapWeight l := fun l hl => by
          simp [Engine.heapWeight, hlow l hl, hm1.weight]
        have hlt : ∀ j, k / 2 ^ (j + 2) < k / 2 := fun j => by
          rw [← hdiv]; exact Nat.div_lt_self (by omega) (Nat.one_lt_two_pow (by omega))
        refine ⟨?_, ?_, by rw [← hdiv]; exact s3, ?_, ?_⟩
        · intro j hj
          cases j with
          | zero => simpa [Engine.heapWeight] using ⟨by omega, h2⟩
          | succ j =>
            have := s1 j (by omega)
            rw [hdiv, hloww _ (hlt j), hm1.weight] at this
            exact this
        · rw [hdiv, hloww _ (hlt m), hm1.weight] at s2
          exact s2
        · intro j hj
          cases j with
          | zero =>
            have hk' : ∀ j, j ≤ m → k ≠ k / 2 / 2 ^ j := fun j _ => by
              have : k / 2 / 2 ^ j ≤ k / 2 := Nat.div_le_self _ _
              omega
            have := s5 k hk'
            rw [hh1, if_pos rfl] at this
            simpa using this
          | succ j =>
            have := s4 j (by omega)
            rw [hdiv, hdiv, hlow _ (hlt j)] at this
            exact this
        · intro l hl
          have hl0 : l ≠ k := by simpa using hl 0 (by omega)
          have := s5 l (fun j hj => by rw [hdiv]; exact hl (j + 1) (by omega))
          rw [this, hh1, if_neg hl0, if_neg]
          have := hl 1 (by omega)
          simpa using this
      · refine ⟨e, 0, ?_, Moved.refl e, he, stay (.inl (by omega))⟩
        have : compare (e.heapWeight (k / 2)) (e.heapWeight k) ≠ .gt := fun h => h2 (compare_eq_gt.mp h)
        simp [Engine.siftUpLoop, h1, hc, this]
    · exact ⟨e, 0, by simp [Engine.siftUpLoop, h1], Moved.refl e, he, stay (.inr (by omega))⟩

theorem Engine.siftUp_ok {p : Params} (hp : p.pqMax ≤ 511) {e : Engine} (he : EntriesOk e)
    (hs : e.pqSize.toNat ≤ p.pqMax) {k : Nat} (hk1 : 1 ≤ k) (hk2 : k ≤ e.pqSize.toNat) :
    ∃ e' m, e.siftUp p k = .ok e' ∧ Moved e e' ∧ EntriesOk e' ∧ SiftedUp e e' (e.heapAt k) k m :=
  Engine.siftUpLoop_ok hp k he hs hk1 hk2 (Nat.le_refl k)

/-! ### Sifting down -/

theorem Engine.downPath_succ (e : Engine) (size k j : Nat) :
    e.downPath size k (j + 1) = e.downPath size (e.lighterChild size k) j := by
  induction j with
  | zero => rfl
  | succ j ih => rw [Engine.downPath, ih, Engine.downPath]

theorem Engine.lighterChild_cases (e : Engine) (size k : Nat) :
    e.lighterChild size k = 2 * k ∨ e.lighterChild size k = 2 * k + 1 ∧ 2 * k + 1 ≤ size := by
  unfold Engine.lighterChild
  split
  · rename_i h; exact .inr ⟨rfl, h.1⟩
  · exact .inl rfl

theorem Engine.lighterChild_le (e : Engine) {size k : Nat} (h : 2 * k ≤ size) : e.lighterChild size k ≤ size := by
  rcases e.lighterChild_cases size k with hc | hc <;> omega

theorem Engine.downPath_ge (e : Engine) (size k j : Nat) : k ≤ e.downPath size k j := by
  induction j with
  | zero => exact Nat.le_refl k
  | succ j ih =>
    rw [Engine.downPath]
    rcases e.lighterChild_cases size (e.downPath size k j) with hc | hc <;> omega

/-- The way down depends only on the weights below the starting index. -/
theorem Engine.downPath_congr {a a' : Engine} {size k : Nat} (hk : 1 ≤ k) (hw : ∀ l, k < l → l ≤ size → a'.heapWeight l = a.heapWeight l)
    (j : Nat) : a'.downPath size k j = a.downPath size k j := by
  induction j with
  | zero => rfl
  | succ j ih =>
    rw [Engine.downPath, Engine.downPath, ih]
    have hge := a.downPath_ge size k j
    unfold Engine.lighterChild
    by_cases h : 2 * a.downPath size k j + 1 ≤ size
    · rw [hw _ (by omega) h, hw _ (by omega) (by omega)]
    · simp [h]

/-- Sift-down describes the same move in two heaps that differ only at the starting index. -/
theorem SiftedDown.congr {a a' b : Engine} {i : NodeIdx} {size k m : Nat} (h : SiftedDown a b i size k m) (hk : 1 ≤ k)
    (hh : ∀ l, l ≠ k → l ≤ size → a'.heapAt l = a.heapAt l) (hw : ∀ n, (a'.nodeAt n).weight = (a.nodeAt n).weight) :
    SiftedDown a' b i size k m := by
  have hwt : ∀ l, k < l → l ≤ size → a'.heapWeight l = a.heapWeight l := fun l hl hs => by
    simp [Engine.heapWeight, hh l (by omega) hs, hw]
  have hpath := Engine.downPath_congr hk hwt
  obtain ⟨h1, h2, h3, h4, h5⟩ := h
  have hnext : ∀ j, 2 * a.downPath size k j ≤ size → k < a.downPath size k (j + 1) ∧ a.downPath size k (j + 1) ≤ size := by
    intro j hj
    have hge := a.downPath_ge size k j
    rw [Engine.downPath]
    have := a.lighterChild_le hj
    rcases a.lighterChild_cases size (a.downPath size k j) with hc | hc <;> omega
  refine ⟨?_, ?_, by rw [hpath]; exact h3, ?_, ?_⟩
  · intro j hj
    have hn := hnext j (h1 j hj).1
    rw [hpath, hpath, hw, hwt _ hn.1 hn.2]
    exact h1 j hj
  · rw [hpath, hpath, hw]
    by_cases hle : 2 * a.downPath size k m ≤ size
    · have hn := hnext m hle
      rw [hwt _ hn.1 hn.2]; exact h2
    · exact .inl (by omega)
  · intro j hj
    have hn := hnext j (h1 j hj).1
    rw [hpath, hpath, hh _ (by omega) hn.2]
    exact h4 j hj
  · intro l hl hj
    have hlk : l ≠ k := by simpa [Engine.downPath] using hj 0 (by omega)
    rw [hh l hlk hl]
    exact h5 l hl (fun j hjm => by rw [← hpath]; exact hj j hjm)

/-- The child the loop picks (R153). -/
theorem Engine.smallerChild_ok {p : Params} {e : Engine} (he : EntriesOk e) (hp : p.pqMax ≤ 511) (hs : e.pqSize.toNat ≤ p.pqMax) {k : Nat}
    (hk : 1 ≤ k) : e.smallerChild p k = .ok (e.lighterChild e.pqSize.toNat k) := by
  unfold Engine.smallerChild Engine.lighterChild
  by_cases h : 2 * k + 1 ≤ e.pqSize.toNat
  · simp [h, Engine.cmpHeap_ok he hp hs (i := 2 * k + 1) (j := 2 * k) (by omega) h (by omega) (by omega), compare_eq_lt]
  · simp [h]

/-- All the sift-down loop can do from a heap index of the queue (R153). -/
theorem Engine.siftDownLoop_ok {p : Params} (hp : p.pqMax ≤ 511) (fuel : Nat) {e : Engine} (he : EntriesOk e)
    (hs : e.pqSize.toNat ≤ p.pqMax) {k : Nat} (hk1 : 1 ≤ k) (hk2 : k ≤ e.pqSize.toNat) (hf : e.pqSize.toNat ≤ k + fuel) :
    ∃ e' m, Engine.siftDownLoop p fuel e k = .ok e' ∧ Moved e e' ∧ EntriesOk e' ∧ SiftedDown e e' (e.heapAt k) e.pqSize.toNat k m := by
  have stay : ∀ {e : Engine} {k : Nat}, (e.pqSize.toNat < 2 * k ∨ e.heapWeight k ≤ e.heapWeight (e.lighterChild e.pqSize.toNat k)) →
      SiftedDown e e (e.heapAt k) e.pqSize.toNat k 0 := by
    intro e k h
    exact ⟨fun j hj => absurd hj (by omega), h, rfl, fun j hj => absurd hj (by omega), fun _ _ _ => rfl⟩
  induction fuel generalizing e k with
  | zero => exact ⟨e, 0, rfl, Moved.refl e, he, stay (.inl (by omega))⟩
  | succ fuel ih =>
    by_cases h1 : e.pqSize.toNat < 2 * k
    · exact ⟨e, 0, by simp [Engine.siftDownLoop, h1], Moved.refl e, he, stay (.inl h1)⟩
    · have hcc := e.lighterChild_cases e.pqSize.toNat k
      have hcle := e.lighterChild_le (size := e.pqSize.toNat) (k := k) (by omega)
      have hsc := Engine.smallerChild_ok he hp hs hk1
      have hc := Engine.cmpHeap_ok he hp hs (i := e.lighterChild e.pqSize.toNat k) (j := k) (by omega) hcle hk1 hk2
      by_cases h2 : e.heapWeight (e.lighterChild e.pqSize.toNat k) < e.heapWeight k
      · obtain ⟨e1, hr1, hm1, he1, hh1⟩ := Engine.swap_ok he hp hs hk1 hk2 (j := e.lighterChild e.pqSize.toNat k) (by omega) hcle (by omega)
        have hsz : e1.pqSize = e.pqSize := hm1.pqSize
        obtain ⟨e2, m, hr2, hm2, he2, hsd⟩ := ih (e := e1) (k := e.lighterChild e.pqSize.toNat k) he1 (by rw [hsz]; exact hs) (by omega)
          (by rw [hsz]; exact hcle) (by rw [hsz]; omega)
        have hroot : e1.heapAt (e.lighterChild e.pqSize.toNat k) = e.heapAt k := by
          rw [hh1, if_neg (by omega), if_pos rfl]
        rw [hroot, hsz] at hsd
        have hhigh : ∀ l, l ≠ e.lighterChild e.pqSize.toNat k → l ≠ k → e1.heapAt l = e.heapAt l := fun l hl hl2 => by
          rw [hh1, if_neg hl2, if_neg hl]
        have hwhigh : ∀ l, e.lighterChild e.pqSize.toNat k < l → l ≤ e.pqSize.toNat → e1.heapWeight l = e.heapWeight l := fun l hl _ => by
          simp [Engine.heapWeight, hhigh l (by omega) (by omega), hm1.weight]
        have hpath : ∀ j, e1.downPath e.pqSize.toNat (e.lighterChild e.pqSize.toNat k) j = e.downPath e.pqSize.toNat k (j + 1) := fun j => by
          rw [Engine.downPath_congr (by omega) hwhigh, ← Engine.downPath_succ]
        refine ⟨e2, m + 1, by simp [Engine.siftDownLoop, h1, hsc, hc, compare_eq_lt.mpr h2, hr1, hr2], hm1.trans hm2, he2, ?_⟩
        have hnext : ∀ j, 2 * e.downPath e.pqSize.toNat k (j + 1) ≤ e.pqSize.toNat →
            e.lighterChild e.pqSize.toNat k < e.downPath e.pqSize.toNat k (j + 1 + 1) ∧ e.downPath e.pqSize.toNat k (j + 1 + 1) ≤ e.pqSize.toNat := by
          intro j hj
          have hge : e.lighterChild e.pqSize.toNat k ≤ e.downPath e.pqSize.toNat k (j + 1) := by
            rw [Engine.downPath_succ]; exact e.downPath_ge _ _ _
          rw [Engine.downPath]
          have := e.lighterChild_le hj
          rcases e.lighterChild_cases e.pqSize.toNat (e.downPath e.pqSize.toNat k (j + 1)) with hx | hx <;> omega
        obtain ⟨s1, s2, s3, s4, s5⟩ := hsd
        simp only [hpath] at s1 s2 s3 s4 s5
        refine ⟨?_, ?_, s3, ?_, ?_⟩
        · intro j hj
          cases j with
          | zero => exact ⟨by simp [Engine.downPath]; omega, h2⟩
          | succ j =>
            have := s1 j (by omega)
            have hn := hnext j this.1
            rw [hwhigh _ hn.1 hn.2, hm1.weight] at this
            exact this
        · rw [hm1.weight] at s2
          by_cases hle : 2 * e.downPath e.pqSize.toNat k (m + 1) ≤ e.pqSize.toNat
          · have hn := hnext m hle
            rw [hwhigh _ hn.1 hn.2] at s2
            exact s2
          · exact .inl (by omega)
        · intro j hj
          cases j with
          | zero =>
            have hk' : ∀ j, j ≤ m → k ≠ e.downPath e.pqSize.toNat k (j + 1) := fun j _ => by
              have hge : e.lighterChild e.pqSize.toNat k ≤ e.downPath e.pqSize.toNat k (j + 1) := by
                rw [Engine.downPath_succ]; exact e.downPath_ge _ _ _
              omega
            have := s5 k hk2 hk'
            rw [hh1, if_pos rfl] at this
            exact this
          | succ j =>
            have := s4 j (by omega)
            have hn := hnext j (s1 j (by omega)).1
            rw [hhigh _ (Nat.ne_of_gt hn.1) (by have := hn.1; omega)] at this
            exact this
        · intro l hl hj
          have hl0 : l ≠ k := hj 0 (by omega)
          have hl1 : l ≠ e.lighterChild e.pqSize.toNat k := hj 1 (by omega)
          rw [s5 l hl (fun j hjm => hj (j + 1) (by omega)), hhigh l hl1 hl0]
      · have : compare (e.heapWeight (e.lighterChild e.pqSize.toNat k)) (e.heapWeight k) ≠ .lt := fun h => h2 (compare_eq_lt.mp h)
        exact ⟨e, 0, by simp [Engine.siftDownLoop, h1, hsc, hc, this], Moved.refl e, he, stay (.inr (by omega))⟩

theorem Engine.siftDown_ok {p : Params} (hp : p.pqMax ≤ 511) {e : Engine} (he : EntriesOk e)
    (hs : e.pqSize.toNat ≤ p.pqMax) {k : Nat} (hk1 : 1 ≤ k) (hk2 : k ≤ e.pqSize.toNat) :
    ∃ e' m, e.siftDown p k = .ok e' ∧ Moved e e' ∧ EntriesOk e' ∧ SiftedDown e e' (e.heapAt k) e.pqSize.toNat k m :=
  Engine.siftDownLoop_ok hp _ he hs hk1 hk2 (by omega)

/-! ### Insertion and extraction -/

theorem QueueOk.entries {p : Params} {e : Engine} (h : QueueOk p e) : EntriesOk e := h.entry_slot

/-- A node is queued exactly when it stands in the heap (R162). -/
theorem QueueOk.queued_iff {p : Params} {e : Engine} (h : QueueOk p e) (i : NodeIdx) : e.queued i ↔ e.inHeap i := by
  constructor
  · intro hq
    have h0 : (e.nodeAt i).heapSlot.toNat ≠ 0 := fun h0 => hq (BitVec.eq_of_toNat_eq (by simpa using h0))
    exact ⟨_, by omega, (h.slot_entry i hq).1, (h.slot_entry i hq).2⟩
  · rintro ⟨k, h1, h2, rfl⟩ h0
    have := (h.entry_slot k h1 h2).2
    rw [h0] at this
    simp at this
    omega

/-- The queue invariant from its parts, with the slots given by the heap. -/
theorem QueueOk.of_entries {p : Params} {e : Engine} (h1 : e.pqSize.toNat ≤ e.pqCap.toNat) (h2 : e.pqCap.toNat ≤ p.pqMax)
    (h3 : ∀ k, e.pqSize.toNat < k → e.heapAt k = nil) (h4 : EntriesOk e) (h5 : ∀ i, e.queued i → e.inHeap i) : QueueOk p e where
  size_le := h1
  cap_le := h2
  vacant := h3
  entry_slot := h4
  slot_entry i hi := by
    obtain ⟨k, hk1, hk2, rfl⟩ := h5 i hi
    rw [(h4 k hk1 hk2).2]
    exact ⟨hk2, rfl⟩

/-- What sifting leaves of the queue invariant, from a heap whose slots agree. -/
theorem QueueOk.of_moved {p : Params} {a b : Engine} (hm : Moved a b) (hb : EntriesOk b) (h1 : a.pqSize.toNat ≤ a.pqCap.toNat)
    (h2 : a.pqCap.toNat ≤ p.pqMax) (h3 : ∀ k, a.pqSize.toNat < k → a.heapAt k = nil) (h5 : ∀ i, a.queued i → a.inHeap i) : QueueOk p b := by
  refine QueueOk.of_entries ?_ ?_ ?_ hb ?_
  · rw [hm.frame]; exact h1
  · rw [hm.frame]; exact h2
  · intro k hk
    rw [hm.pqSize] at hk
    rw [hm.outside k (.inr hk), h3 k hk]
  · intro i hi
    rw [hm.entries]
    by_cases h : a.inHeap i
    · exact h
    · refine h5 i ?_
      rwa [Engine.queued, hm.others i h] at hi

/-- Everything `pq_insert` can do with an allocated node that is not queued, while there is room (R154). -/
theorem Engine.enqueue_ok {p : Params} (hp : p.pqMax ≤ 511) {e : Engine} (hq : QueueOk p e) {i : NodeIdx}
    (hv : (e.nodeAt i).valid = true) (hn : ¬ e.queued i) (hroom : e.pqSize.toNat < e.pqCap.toNat) :
    ∃ e' m, e.enqueue p i = .ok e' ∧ e' = { e with nodes := e'.nodes, heap := e'.heap, pqSize := e'.pqSize } ∧
      e'.pqSize.toNat = e.pqSize.toNat + 1 ∧ QueueOk p e' ∧
      (∀ j, e'.nodeAt j = { e.nodeAt j with heapSlot := (e'.nodeAt j).heapSlot }) ∧
      (∀ j, e'.queued j ↔ e.queued j ∨ j = i) ∧ SiftedUp e e' i (e.pqSize.toNat + 1) m := by
  have hi := Engine.lt_of_valid hv
  have hcap := hq.cap_le
  let k := e.pqSize.toNat + 1
  let e1 : Engine := { e with pqSize := BitVec.ofNat 9 k }
  let e2 := (e1.putHeap k i).putNode i (((e1.putHeap k i).nodeAt i).withSlot k)
  have hsz : e2.pqSize.toNat = k := slot_toNat (by omega)
  have hheap : ∀ l, e2.heapAt l = if l = k then i else e.heapAt l := fun l => by
    show (e1.putHeap k i).heapAt l = _
    rw [Engine.heapAt_putHeap _ (by omega) (by omega)]
    rfl
  have hnode : ∀ n, e2.nodeAt n = if n = i then (e.nodeAt n).withSlot k else e.nodeAt n := fun n => by
    rw [Engine.nodeAt_putNode _ hi]
    by_cases h : n = i
    · subst h; simp only [if_true]; rfl
    · simp only [h, if_false]; rfl
  have hold : ∀ l, 1 ≤ l → l < k → e.heapAt l ≠ i := fun l h1 h2 h => hn ((hq.queued_iff i).mpr ⟨l, h1, by omega, h⟩)
  have hent : EntriesOk e2 := by
    intro l h1 h2
    rw [hheap, hnode]
    by_cases hl : l = k
    · simp only [hl, if_true, Node.withSlot]
      exact ⟨hv, slot_toNat (by omega)⟩
    · simp only [hl, if_false, hold l h1 (by omega)]
      exact hq.entry_slot l h1 (by omega)
  obtain ⟨e', m, hr, hm, he', hsu⟩ := Engine.siftUp_ok hp hent (by omega) (k := k) (by omega) (by omega)
  rw [hheap, if_pos rfl] at hsu
  have hin : ∀ j, e2.inHeap j ↔ e.inHeap j ∨ j = i := by
    intro j
    constructor
    · rintro ⟨l, h1, h2, h3⟩
      rw [hheap] at h3
      by_cases hl : l = k
      · rw [if_pos hl] at h3; exact .inr h3.symm
      · rw [if_neg hl] at h3; exact .inl ⟨l, h1, by omega, h3⟩
    · rintro (⟨l, h1, h2, h3⟩ | rfl)
      · exact ⟨l, h1, by omega, by rw [hheap, if_neg (by omega), h3]⟩
      · exact ⟨k, by omega, by omega, by rw [hheap, if_pos rfl]⟩
  have hq' : QueueOk p e' := by
    refine QueueOk.of_moved hm he' ?_ hcap ?_ ?_
    · rw [hsz]; exact hroom
    · intro l hl
      rw [hheap, if_neg (by omega), hq.vacant l (by omega)]
    · intro j hj
      rw [hin]
      by_cases h : j = i
      · exact .inr h
      · rw [Engine.queued, hnode, if_neg h] at hj
        exact .inl ((hq.queued_iff j).mp hj)
  refine ⟨e', m, ?_, ?_, ?_, hq', ?_, ?_, ?_⟩
  · show (({ e with pqSize := BitVec.ofNat 9 k } : Engine).writeHeap p k i >>= fun e => e.setSlot i k >>= fun e => e.siftUp p k) = _
    rw [Engine.writeHeap_ok _ (by omega) (by omega) hp, Run.ok_bind, Engine.setSlot_ok _ hi, Run.ok_bind]
    exact hr
  · refine hm.frame.trans ?_
    rw [hm.pqSize]
    rfl
  · rw [hm.pqSize, hsz]
  · intro j
    rw [hm.nodes, hnode]
    split <;> rfl
  · intro j
    rw [hq'.queued_iff, hm.entries, hin, hq.queued_iff]
  · refine hsu.congr (by omega) (fun l hl => by rw [hheap, if_neg hl]) (fun n => ?_)
    rw [hnode]
    split <;> rfl

/-- Everything `pq_extract` can do on a queue that is not empty (R155). -/
theorem Engine.dequeue_ok {p : Params} (hp : p.pqMax ≤ 511) {e : Engine} (hq : QueueOk p e) (hne : 1 ≤ e.pqSize.toNat) :
    ∃ e', e.dequeue p = .ok (e.heapAt 1, e') ∧ e' = { e with nodes := e'.nodes, heap := e'.heap, pqSize := e'.pqSize } ∧
      e'.pqSize.toNat = e.pqSize.toNat - 1 ∧ QueueOk p e' ∧
      (∀ j, e'.nodeAt j = { e.nodeAt j with heapSlot := (e'.nodeAt j).heapSlot }) ∧
      (∀ j, e'.queued j ↔ e.queued j ∧ j ≠ e.heapAt 1) ∧
      (2 ≤ e.pqSize.toNat → ∃ m, SiftedDown e e' (e.heapAt e.pqSize.toNat) (e.pqSize.toNat - 1) 1 m) := by
  have hcap := hq.cap_le
  have hsize := hq.size_le
  have hm := hq.entries.lt (Nat.le_refl 1) hne
  let k := e.pqSize.toNat
  have hk : e.pqSize.toNat = k := rfl
  let e2 : Engine := { e.putHeap k nil with pqSize := BitVec.ofNat 9 (k - 1) }
  have hsz2 : e2.pqSize.toNat = k - 1 := slot_toNat (by omega)
  have hheap2 : ∀ l, e2.heapAt l = if l = k then nil else e.heapAt l := fun l => by
    show (e.putHeap k nil).heapAt l = _
    rw [Engine.heapAt_putHeap _ (by omega) (by omega)]
  -- the middle part answers an engine whose heap is the old one without its first entry
  have mid : ∃ e5, (if 1 ≤ k - 1 then do
        let x ← e2.writeHeap p 1 (e.heapAt k)
        let y ← x.setSlot (e.heapAt k) 1
        y.siftDown p 1
      else Except.ok e2 : Run Engine) = .ok e5 ∧ e5 = { e2 with nodes := e5.nodes, heap := e5.heap } ∧ EntriesOk e5 ∧
      (∀ j, e5.nodeAt j = { e.nodeAt j with heapSlot := (e5.nodeAt j).heapSlot }) ∧
      (∀ j, e5.inHeap j ↔ e.inHeap j ∧ j ≠ e.heapAt 1) ∧ (∀ j, ¬ e.inHeap j → e5.nodeAt j = e.nodeAt j) ∧
      (∀ l, k - 1 < l → e5.heapAt l = nil) ∧ (2 ≤ k → ∃ m, SiftedDown e e5 (e.heapAt k) (k - 1) 1 m) := by
    by_cases h1 : 1 ≤ k - 1
    · have hlast := hq.entries.lt (k := k) (by omega) (Nat.le_refl _)
      let e3 := e2.putHeap 1 (e.heapAt k)
      let e4 := e3.putNode (e.heapAt k) ((e3.nodeAt (e.heapAt k)).withSlot 1)
      have hsz4 : e4.pqSize.toNat = k - 1 := hsz2
      have hheap4 : ∀ l, e4.heapAt l = if l = 1 then e.heapAt k else if l = k then nil else e.heapAt l := fun l => by
        show e3.heapAt l = _
        rw [Engine.heapAt_putHeap _ (by omega) (by omega), hheap2]
      have hnode4 : ∀ n, e4.nodeAt n = if n = e.heapAt k then (e.nodeAt n).withSlot 1 else e.nodeAt n := fun n => by
        rw [Engine.nodeAt_putNode _ hlast]
        by_cases h : n = e.heapAt k
        · subst h; simp only [if_true]; rfl
        · simp only [h, if_false]; rfl
      have hent4 : EntriesOk e4 := by
        intro l hl1 hl2
        rw [hheap4, hnode4]
        by_cases hl : l = 1
        · simp only [hl, if_true, Node.withSlot]
          exact ⟨(hq.entry_slot k (by omega) (Nat.le_refl _)).1, slot_toNat (by omega)⟩
        · have hlk : l ≠ k := by omega
          have hne : e.heapAt l ≠ e.heapAt k := fun h => hlk (hq.entries.inj hl1 (by omega) (by omega) (Nat.le_refl _) h)
          simp only [hl, hlk, hne, if_false]
          exact hq.entry_slot l hl1 (by omega)
      obtain ⟨e5, m, hr, hmv, he5, hsd⟩ := Engine.siftDown_ok hp hent4 (by omega) (k := 1) (Nat.le_refl 1) (by omega)
      rw [hheap4, if_pos rfl, hsz4] at hsd
      have hin4 : ∀ j, e4.inHeap j ↔ e.inHeap j ∧ j ≠ e.heapAt 1 := by
        intro j
        constructor
        · rintro ⟨l, hl1, hl2, h3⟩
          rw [hheap4] at h3
          by_cases hl : l = 1
          · rw [if_pos hl] at h3
            refine ⟨⟨k, by omega, Nat.le_refl _, h3⟩, fun h => ?_⟩
            have := hq.entries.inj (j := k) (k := 1) (by omega) (Nat.le_refl _) (by omega) (by omega) (h3.trans h)
            omega
          · rw [if_neg hl, if_neg (by omega)] at h3
            refine ⟨⟨l, hl1, by omega, h3⟩, fun h => hl ?_⟩
            exact hq.entries.inj hl1 (by omega) (by omega) (by omega) (h3.trans h)
        · rintro ⟨⟨l, hl1, hl2, h3⟩, hj⟩
          by_cases hl : l = k
          · exact ⟨1, by omega, by omega, by rw [hheap4, if_pos rfl, ← hl, h3]⟩
          · have : l ≠ 1 := fun h => hj (by rw [← h3, h])
            exact ⟨l, hl1, by omega, by rw [hheap4, if_neg this, if_neg hl, h3]⟩
      refine ⟨e5, ?_, hmv.frame, he5, ?_, fun j => (hmv.entries j).trans (hin4 j), ?_, ?_, fun _ => ⟨m, ?_⟩⟩
      · rw [if_pos h1, Engine.writeHeap_ok _ (by omega) (by omega) hp, Run.ok_bind,
          Engine.setSlot_ok _ hlast, Run.ok_bind]
        exact hr
      · intro j
        rw [hmv.nodes, hnode4]
        split <;> rfl
      · intro j hj
        rw [hmv.others j (fun h => hj ((hin4 j).mp h).1), hnode4, if_neg]
        exact fun h => hj ⟨k, by omega, Nat.le_refl _, h.symm⟩
      · intro l hl
        rw [hmv.outside l (.inr (by omega)), hheap4, if_neg (by omega)]
        by_cases hlk : l = k
        · rw [if_pos hlk]
        · rw [if_neg hlk, hq.vacant l (by omega)]
      · refine hsd.congr (Nat.le_refl 1) (fun l hl hl2 => by rw [hheap4, if_neg hl, if_neg (by omega)]) (fun n => ?_)
        rw [hnode4]
        split <;> rfl
    · have hk1 : k = 1 := by omega
      refine ⟨e2, by rw [if_neg h1], rfl, fun l hl1 hl2 => by omega, fun _ => rfl, fun j => ?_, fun _ _ => rfl, fun l hl => ?_,
        fun h => by omega⟩
      · constructor
        · rintro ⟨l, hl1, hl2, _⟩; omega
        · rintro ⟨⟨l, hl1, hl2, h3⟩, hj⟩
          exact absurd (by rw [← h3, show l = 1 by omega]) hj
      · rw [hheap2]
        by_cases hlk : l = k
        · rw [if_pos hlk]
        · rw [if_neg hlk, hq.vacant l (by omega)]
  obtain ⟨e5, hr5, hf5, he5, hn5, hin5, hot5, hv5, hsd5⟩ := mid
  let e6 := e5.putNode (e.heapAt 1) ((e5.nodeAt (e.heapAt 1)).withSlot 0)
  have hnode6 : ∀ n, e6.nodeAt n = if n = e.heapAt 1 then (e5.nodeAt n).withSlot 0 else e5.nodeAt n := fun n => by
    rw [Engine.nodeAt_putNode _ hm]
    by_cases h : n = e.heapAt 1
    · subst h; rfl
    · simp only [h, if_false]
  have hsz5 : e5.pqSize.toNat = k - 1 := by rw [hf5]; exact hsz2
  have hcap5 : e5.pqCap = e.pqCap := by rw [hf5]; rfl
  have hent6 : EntriesOk e6 := by
    intro l hl1 hl2
    have h := he5 l hl1 hl2
    have hl : e5.heapAt l ≠ e.heapAt 1 := fun h => ((hin5 _).mp ⟨l, hl1, hl2, rfl⟩).2 h
    show (e6.nodeAt (e5.heapAt l)).valid = true ∧ (e6.nodeAt (e5.heapAt l)).heapSlot.toNat = l
    rw [hnode6, if_neg hl]
    exact h
  have hq6 : QueueOk p e6 := by
    refine QueueOk.of_entries ?_ ?_ ?_ hent6 ?_
    · show e5.pqSize.toNat ≤ e5.pqCap.toNat
      rw [hcap5]; omega
    · show e5.pqCap.toNat ≤ p.pqMax
      rw [hcap5]; exact hcap
    · intro l hl
      exact hv5 l (by rw [← hsz5]; exact hl)
    · intro j hj
      rw [Engine.queued, hnode6] at hj
      by_cases h : j = e.heapAt 1
      · rw [if_pos h] at hj; exact absurd rfl hj
      · rw [if_neg h] at hj
        show e5.inHeap j
        by_cases hin : e.inHeap j
        · exact (hin5 j).mpr ⟨hin, h⟩
        · rw [hot5 j hin] at hj
          exact absurd ((hq.queued_iff j).mp hj) hin
  refine ⟨e6, ?_, ?_, hsz5, hq6, ?_, ?_, hsd5⟩
  · simp only [Engine.dequeue, e.readHeap_ok (Nat.le_refl 1) (by omega : 1 ≤ p.pqMax) hp, e.readHeap_ok hne (by omega : k ≤ p.pqMax) hp,
      Run.ok_bind, Engine.writeHeap_ok e hne (by omega : k ≤ p.pqMax) hp]
    have hr6 := congrArg (fun r : Run Engine => r >>= fun x => x.setSlot (e.heapAt 1) 0 >>= fun y => Except.ok (e.heapAt 1, y)) hr5
    simp only [Run.ok_bind, Engine.setSlot_ok e5 hm] at hr6
    by_cases h1 : 1 ≤ k - 1
    · rw [if_pos h1] at hr6 ⊢
      simp only [bind_assoc] at hr6
      exact hr6
    · rw [if_neg h1] at hr6 ⊢
      exact hr6
  · have hps : e5.pqSize = e2.pqSize := by rw [hf5]
    refine (congrArg (fun x : Engine => x.putNode (e.heapAt 1) ((e5.nodeAt (e.heapAt 1)).withSlot 0)) hf5).trans ?_
    show _ = ({ e with nodes := e6.nodes, heap := e6.heap, pqSize := e5.pqSize } : Engine)
    rw [hps]
    rfl
  · intro j
    rw [hnode6, hn5]
    split <;> rfl
  · intro j
    rw [hq6.queued_iff, hq.queued_iff]
    exact hin5 j

/-! ### Freeing the slots -/

/-- Everything the slot loop of PQ_INIT can do: the nodes of the first `n` entries get slot 0 (R156). -/
theorem Engine.clearSlots_ok {p : Params} (hp : p.pqMax ≤ 511) {e : Engine} (he : EntriesOk e) (hs : e.pqSize.toNat ≤ p.pqMax) {n : Nat}
    (hn : n ≤ e.pqSize.toNat) :
    ∃ e', e.clearSlots p n = .ok e' ∧ e' = { e with nodes := e'.nodes } ∧
      (∀ i, (∃ k, 1 ≤ k ∧ k ≤ n ∧ e.heapAt k = i) → e'.nodeAt i = (e.nodeAt i).withSlot 0) ∧
      ∀ i, (¬ ∃ k, 1 ≤ k ∧ k ≤ n ∧ e.heapAt k = i) → e'.nodeAt i = e.nodeAt i := by
  induction n with
  | zero => exact ⟨e, rfl, rfl, fun i ⟨k, h1, h2, _⟩ => by omega, fun _ _ => rfl⟩
  | succ n ih =>
    obtain ⟨e1, hr, hf, hin, hout⟩ := ih (by omega)
    have hi := he.lt (k := n + 1) (by omega) hn
    have hh : ∀ k, e1.heapAt k = e.heapAt k := fun k => by rw [hf]; rfl
    refine ⟨e1.putNode (e.heapAt (n + 1)) ((e1.nodeAt (e.heapAt (n + 1))).withSlot 0), ?_, ?_, ?_, ?_⟩
    · unfold Engine.clearSlots at hr ⊢
      rw [List.range'_concat, List.foldlM_append, hr]
      simp [Nat.add_comm 1 n, e1.readHeap_ok (by omega : 1 ≤ n + 1) (by omega : n + 1 ≤ p.pqMax) hp, hh, Engine.setSlot_ok e1 hi]
    · exact congrArg (fun x : Engine => x.putNode (e.heapAt (n + 1)) ((e1.nodeAt (e.heapAt (n + 1))).withSlot 0)) hf
    · rintro i ⟨k, h1, h2, rfl⟩
      rw [Engine.nodeAt_putNode _ hi]
      by_cases hk : k = n + 1
      · subst hk
        rw [if_pos rfl, hout]
        rintro ⟨l, hl1, hl2, hl⟩
        have := he.inj hl1 (by omega) h1 (by omega) hl
        omega
      · rw [if_neg (fun h => hk (he.inj h1 (by omega) (by omega) hn h)), hin _ ⟨k, h1, by omega, rfl⟩]
    · intro i hi2
      rw [Engine.nodeAt_putNode _ hi, if_neg (fun h => hi2 ⟨n + 1, by omega, Nat.le_refl _, h.symm⟩),
        hout i (fun ⟨k, h1, h2, h3⟩ => hi2 ⟨k, h1, by omega, h3⟩)]

end Sys2Proof.Machine
end

