-- ==== Sys2Proof/Laws/Tree.lean ====
section
/-! SUPPORT. The laws of allocation and of the tree walks (spec/43_tree_builder.md R170, R179, R183, spec/45_codec.md R210), over a
tree the arena holds. -/

namespace Sys2Proof.Machine

/-! ### Allocation -/

/-- Everything `node_alloc` can do (R170). -/
theorem Engine.nodeAlloc_ok {e : Engine} (h : e.nodeCount.toNat < 511) (n : Node) :
    ∃ e', e.nodeAlloc n = .ok (e.nodeCount.setWidth 9, e') ∧ e' = { e with nodes := e'.nodes, nodeCount := e'.nodeCount } ∧
      e'.nodeCount.toNat = e.nodeCount.toNat + 1 ∧ (e.nodeCount.setWidth 9).toNat = e.nodeCount.toNat ∧
      ∀ i, e'.nodeAt i = if i = e.nodeCount.setWidth 9 then n else e.nodeAt i := by
  have hidx : (e.nodeCount.setWidth 9).toNat = e.nodeCount.toNat := by
    rw [BitVec.toNat_setWidth, Nat.mod_eq_of_lt]; omega
  have hof : BitVec.ofNat 9 e.nodeCount.toNat = e.nodeCount.setWidth 9 := by
    apply BitVec.eq_of_toNat_eq
    rw [BitVec.toNat_ofNat, hidx, Nat.mod_eq_of_lt (by omega)]
  have hne : e.nodeCount ≠ 511 := fun h' => by rw [h'] at h; exact absurd h (by decide)
  refine ⟨{ e.putNode (e.nodeCount.setWidth 9) n with nodeCount := BitVec.ofNat 10 (e.nodeCount.toNat + 1) }, ?_, rfl, ?_, hidx, ?_⟩
  · unfold Engine.nodeAlloc
    rw [if_neg hne]
    simp only [hof]
    rw [← hidx, Engine.writeNode_ok e (by rw [hidx]; exact h) n]
    rfl
  · show (BitVec.ofNat 10 (e.nodeCount.toNat + 1)).toNat = _
    rw [BitVec.toNat_ofNat, Nat.mod_eq_of_lt]; omega
  · intro i
    exact Engine.nodeAt_putNode e (by rw [hidx]; exact h) n i

theorem Engine.nodeAlloc_raise {e : Engine} (h : e.nodeCount = 511) (n : Node) : e.nodeAlloc n = raise .allocationFailure := by
  simp [Engine.nodeAlloc, h]

/-! ### Shapes -/

@[simp] theorem Shape.root_leaf (i : NodeIdx) : (Shape.leaf i).root = i := rfl

@[simp] theorem Shape.root_branch (i : NodeIdx) (l r : Shape) : (Shape.branch i l r).root = i := rfl

theorem Shape.root_mem (t : Shape) : t.root ∈ t.indices := by cases t <;> simp [Shape.root, Shape.indices]

theorem Shape.leaves_subset (t : Shape) : ∀ i ∈ t.leaves, i ∈ t.indices := by
  induction t with
  | leaf i => simp [Shape.leaves, Shape.indices]
  | branch i l r hl hr =>
    intro j hj
    simp only [Shape.leaves, List.mem_append] at hj
    simp only [Shape.indices, List.mem_cons, List.mem_append]
    exact .inr (hj.imp (hl j) (hr j))

/-- A tree has more nodes than levels. -/
theorem Shape.height_lt (t : Shape) : t.height < t.indices.length := by
  induction t with
  | leaf i => simp [Shape.height, Shape.indices]
  | branch i l r hl hr => simp only [Shape.height, Shape.indices, List.length_cons, List.length_append]; omega

/-- The leaves of the paths are the leaves of the tree, in order. -/
theorem Shape.paths_leaves (t : Shape) : t.paths.map (fun x => x.1) = t.leaves := by
  induction t with
  | leaf i => rfl
  | branch i l r hl hr => simp [Shape.paths, Shape.leaves, List.map_map, Function.comp_def, ← hl, ← hr]

/-- No path is longer than the tree is high. -/
theorem Shape.paths_length {t : Shape} {i : NodeIdx} {bits : List Bool} (h : (i, bits) ∈ t.paths) : bits.length ≤ t.height := by
  induction t generalizing i bits with
  | leaf j => simp [Shape.paths] at h; simp [h]
  | branch j l r hl hr =>
    simp only [Shape.paths, List.mem_append, List.mem_map, Prod.mk.injEq, Prod.exists] at h
    rcases h with ⟨a, b, hab, rfl, rfl⟩ | ⟨a, b, hab, rfl, rfl⟩
    · have := hl hab; simp only [Shape.height, List.length_cons]; omega
    · have := hr hab; simp only [Shape.height, List.length_cons]; omega

theorem Shape.fits_branch {e : Engine} {i : NodeIdx} {l r : Shape} (h : (Shape.branch i l r).fits e = true) :
    (e.nodeAt i).valid = true ∧ (e.nodeAt i).leaf = false ∧ (e.nodeAt i).inTree = true ∧ (e.nodeAt i).symbol = 0 ∧
      (e.nodeAt i).left = l.root ∧ (e.nodeAt i).right = r.root ∧
      (e.nodeAt i).weight.toNat = (e.nodeAt l.root).weight.toNat + (e.nodeAt r.root).weight.toNat ∧
      l.fits e = true ∧ r.fits e = true := by
  simpa [Shape.fits, and_assoc] using h

theorem Shape.fits_leaf {e : Engine} {i : NodeIdx} (h : (Shape.leaf i).fits e = true) :
    (e.nodeAt i).valid = true ∧ (e.nodeAt i).leaf = true ∧ (e.nodeAt i).inTree = true ∧ (e.nodeAt i).left = nil ∧
      (e.nodeAt i).right = nil := by
  simpa [Shape.fits, and_assoc] using h

theorem Shape.fits_root_lt {e : Engine} {t : Shape} (h : t.fits e = true) : t.root.toNat < 511 := by
  cases t with
  | leaf i => exact Engine.lt_of_valid (Shape.fits_leaf h).1
  | branch i l r => exact Engine.lt_of_valid (Shape.fits_branch h).1

/-- Whether a tree fits depends on its own nodes only. -/
theorem Shape.fits_congr {a b : Engine} {t : Shape} (h : ∀ i ∈ t.indices, b.nodeAt i = a.nodeAt i) : t.fits b = t.fits a := by
  induction t with
  | leaf i => simp [Shape.fits, h i (by simp [Shape.indices])]
  | branch i l r hl hr =>
    have h1 : ∀ j ∈ l.indices, b.nodeAt j = a.nodeAt j := fun j hj => h j (by simp [Shape.indices, hj])
    have h2 : ∀ j ∈ r.indices, b.nodeAt j = a.nodeAt j := fun j hj => h j (by simp [Shape.indices, hj])
    simp [Shape.fits, h i (by simp [Shape.indices]), h1 _ l.root_mem, h2 _ r.root_mem, hl h1, hr h2]

/-- Node indices below 511 without repeats are at most 511. -/
theorem nodup_length_le {l : List NodeIdx} (h : l.Nodup) (hlt : ∀ i ∈ l, i.toNat < 511) : l.length ≤ 511 := by
  have h1 : (l.map BitVec.toNat).Nodup := h.map (fun a b hab => BitVec.eq_of_toNat_eq hab)
  have h2 : l.map BitVec.toNat ⊆ List.range 511 := by
    intro x hx
    obtain ⟨i, hi, rfl⟩ := List.mem_map.mp hx
    exact List.mem_range.mpr (hlt i hi)
  have := (List.Nodup.subperm h1 h2).length_le
  simpa using this

theorem Shape.fits_indices_lt {e : Engine} {t : Shape} (h : t.fits e = true) : ∀ i ∈ t.indices, i.toNat < 511 := by
  induction t with
  | leaf i => simpa [Shape.indices] using Engine.lt_of_valid (Shape.fits_leaf h).1
  | branch i l r hl hr =>
    have hb := Shape.fits_branch h
    intro j hj
    simp only [Shape.indices, List.mem_cons, List.mem_append] at hj
    rcases hj with rfl | hj | hj
    · exact Engine.lt_of_valid hb.1
    · exact hl hb.2.2.2.2.2.2.2.1 j hj
    · exact hr hb.2.2.2.2.2.2.2.2 j hj

/-- A tree in the arena is lower than the 511 turns the model gives a descent (log 8). -/
theorem TreeIs.height_lt {e : Engine} {t : Shape} (h : TreeIs e t) : t.height < 511 :=
  Nat.lt_of_lt_of_le t.height_lt (nodup_length_le h.nodup (Shape.fits_indices_lt h.fits))

/-! ### Height and release -/

/-- Everything `height` can do on a tree (R170). -/
theorem Engine.height_ok {e : Engine} {t : Shape} (h : t.fits e = true) {fuel : Nat} (hf : t.height < fuel) :
    e.height fuel t.root.toNat = .ok t.height := by
  induction t generalizing fuel with
  | leaf i =>
    obtain ⟨fuel, rfl⟩ : ∃ f, fuel = f + 1 := ⟨fuel - 1, by omega⟩
    have hl := Shape.fits_leaf h
    simp [Engine.height, e.readNode_ok (Engine.lt_of_valid hl.1), hl.2.1, Shape.height]
  | branch i l r hl hr =>
    obtain ⟨fuel, rfl⟩ : ∃ f, fuel = f + 1 := ⟨fuel - 1, by omega⟩
    have hb := Shape.fits_branch h
    simp only [Shape.height] at hf
    simp [Engine.height, e.readNode_ok (Engine.lt_of_valid hb.1), hb.2.1, hb.2.2.2.2.1, hb.2.2.2.2.2.1,
      hl hb.2.2.2.2.2.2.2.1 (show l.height < fuel by omega), hr hb.2.2.2.2.2.2.2.2 (show r.height < fuel by omega), Shape.height]

/-- Everything `release` can do on a tree: its nodes become empty and nothing else changes (R183). -/
theorem Engine.release_ok {e : Engine} {t : Shape} (h : t.fits e = true) (hn : t.indices.Nodup) {fuel : Nat} (hf : t.height < fuel) :
    ∃ e', Engine.release fuel e t.root.toNat = .ok e' ∧ e' = { e with nodes := e'.nodes } ∧
      ∀ i, e'.nodeAt i = if i ∈ t.indices then Node.empty else e.nodeAt i := by
  induction t generalizing fuel e with
  | leaf i =>
    obtain ⟨fuel, rfl⟩ : ∃ f, fuel = f + 1 := ⟨fuel - 1, by omega⟩
    have hl := Shape.fits_leaf h
    have hi := Engine.lt_of_valid hl.1
    refine ⟨e.putNode i Node.empty, ?_, rfl, fun j => ?_⟩
    · simp [Engine.release, e.readNode_ok hi, hl.2.1, e.writeNode_ok hi]
    · simp [Engine.nodeAt_putNode _ hi, Shape.indices]
  | branch i l r hl hr =>
    obtain ⟨fuel, rfl⟩ : ∃ f, fuel = f + 1 := ⟨fuel - 1, by omega⟩
    have hb := Shape.fits_branch h
    have hi := Engine.lt_of_valid hb.1
    simp only [Shape.height] at hf
    simp only [Shape.indices, List.nodup_cons, List.nodup_append, List.mem_append] at hn
    obtain ⟨e1, h1, f1, n1⟩ := hl hb.2.2.2.2.2.2.2.1 hn.2.1 (show l.height < fuel by omega)
    have hr1 : r.fits e1 = true := by
      rw [Shape.fits_congr (a := e) (b := e1) ?_]
      · exact hb.2.2.2.2.2.2.2.2
      · intro j hj
        rw [n1, if_neg]
        exact fun hj2 => hn.2.2.2 j hj2 j hj rfl
    obtain ⟨e2, h2, f2, n2⟩ := hr hr1 hn.2.2.1 (show r.height < fuel by omega)
    refine ⟨e2.putNode i Node.empty, ?_, ?_, fun j => ?_⟩
    · simp [Engine.release, e.readNode_ok hi, hb.2.1, hb.2.2.2.2.1, hb.2.2.2.2.2.1, h1, h2, e2.writeNode_ok hi]
    · refine (congrArg (fun x : Engine => x.putNode i Node.empty) f2).trans ?_
      have := congrArg (fun x : Engine => ({ x with nodes := (e2.putNode i Node.empty).nodes } : Engine)) f1
      exact this
    · rw [Engine.nodeAt_putNode _ hi, n2, n1]
      simp only [Shape.indices, List.mem_cons, List.mem_append]
      by_cases h0 : j = i
      · simp [h0]
      · by_cases h3 : j ∈ r.indices
        · simp [h0, h3]
        · by_cases h4 : j ∈ l.indices <;> simp [h0, h3, h4]

/-! ### The walk -/

theorem Engine.streamHas_cons {e : Engine} {q : Nat} {b : Bool} {bits : List Bool} :
    e.streamHas q (b :: bits) ↔ e.bitAt q = b ∧ e.streamHas (q + 1) bits := by
  constructor
  · intro h
    refine ⟨by simpa using h 0 b rfl, fun j c hj => ?_⟩
    have := h (j + 1) c (by simpa using hj)
    rwa [← Nat.add_assoc, Nat.add_right_comm] at this
  · rintro ⟨h0, h⟩ j c hj
    cases j with
    | zero => simp only [List.getElem?_cons_zero, Option.some.injEq] at hj; rw [← hj]; exact h0
    | succ j =>
      have := h j c (by simpa using hj)
      rwa [Nat.add_right_comm, Nat.add_assoc] at this

/-- Where the stream leads in a tree, if its bits do not run out: the leaf's path is a prefix of them (R210). -/
theorem Engine.walkLoop_ok {p : Params} {e : Engine} {t : Shape} (h : t.fits e = true) {i : NodeIdx} {bits : List Bool}
    (hp : (i, bits) ∈ t.paths) {left q : Nat} (hs : e.streamHas q bits) (hlen : bits.length ≤ left) (hq : q + left ≤ 8 * p.bbMax) :
    Engine.walkLoop p e left t.root.toNat q = .ok ((e.nodeAt i).symbol, q + bits.length) := by
  induction t generalizing left q bits with
  | leaf j =>
    have hl := Shape.fits_leaf h
    simp only [Shape.paths, List.mem_singleton, Prod.mk.injEq] at hp
    obtain ⟨rfl, rfl⟩ := hp
    cases left <;> simp [Engine.walkLoop, e.readNode_ok (Engine.lt_of_valid hl.1), hl.2.1]
  | branch j l r hl hr =>
    have hb := Shape.fits_branch h
    have hj := Engine.lt_of_valid hb.1
    simp only [Shape.paths, List.mem_append, List.mem_map, Prod.mk.injEq, Prod.exists] at hp
    rcases hp with ⟨a, b, hab, rfl, rfl⟩ | ⟨a, b, hab, rfl, rfl⟩
    all_goals
      obtain ⟨left, rfl⟩ : ∃ f, left = f + 1 := ⟨left - 1, by simp only [List.length_cons] at hlen; omega⟩
      have hs' := Engine.streamHas_cons.mp hs
      simp only [List.length_cons] at hlen
      simp only [Engine.walkLoop, Shape.root_branch, e.readNode_ok hj, Run.ok_bind, hb.2.1, Bool.false_eq_true, if_false,
        e.streamBit_ok (show q < 8 * p.bbMax by omega), hs'.1, if_true]
    · rw [hb.2.2.2.2.1, hl hb.2.2.2.2.2.2.2.1 hab hs'.2 (by omega) (by omega), List.length_cons, Nat.add_assoc, Nat.add_comm 1]
    · rw [hb.2.2.2.2.2.1, hr hb.2.2.2.2.2.2.2.2 hab hs'.2 (by omega) (by omega), List.length_cons, Nat.add_assoc, Nat.add_comm 1]

/-- From any position the bits lead to some leaf of the tree, if enough bits are read. -/
theorem Shape.exists_leads (e : Engine) (t : Shape) (q : Nat) : ∃ i bits, (i, bits) ∈ t.paths ∧ e.streamHas q bits := by
  induction t generalizing q with
  | leaf i => exact ⟨i, [], by simp [Shape.paths], fun j b h => by simp at h⟩
  | branch j l r hl hr =>
    cases hb : e.bitAt q with
    | false =>
      obtain ⟨i, bits, h1, h2⟩ := hl (q + 1)
      exact ⟨i, false :: bits, by simp [Shape.paths, h1], Engine.streamHas_cons.mpr ⟨hb, h2⟩⟩
    | true =>
      obtain ⟨i, bits, h1, h2⟩ := hr (q + 1)
      exact ⟨i, true :: bits, by simp [Shape.paths, h1], Engine.streamHas_cons.mpr ⟨hb, h2⟩⟩

/-- The bits at a position lead to one leaf only. -/
theorem Shape.leads_unique {e : Engine} {t : Shape} {q : Nat} {i j : NodeIdx} {b c : List Bool} (h1 : (i, b) ∈ t.paths)
    (h2 : e.streamHas q b) (h3 : (j, c) ∈ t.paths) (h4 : e.streamHas q c) : i = j ∧ b = c := by
  induction t generalizing q b c with
  | leaf k =>
    simp only [Shape.paths, List.mem_singleton, Prod.mk.injEq] at h1 h3
    exact ⟨h1.1.trans h3.1.symm, h1.2.trans h3.2.symm⟩
  | branch k l r hl hr =>
    simp only [Shape.paths, List.mem_append, List.mem_map, Prod.mk.injEq, Prod.exists] at h1 h3
    rcases h1 with ⟨a1, b1, m1, rfl, rfl⟩ | ⟨a1, b1, m1, rfl, rfl⟩ <;>
    rcases h3 with ⟨a2, b2, m2, rfl, rfl⟩ | ⟨a2, b2, m2, rfl, rfl⟩
    all_goals
      have g2 := Engine.streamHas_cons.mp h2
      have g4 := Engine.streamHas_cons.mp h4
    · obtain ⟨x, y⟩ := hl m1 g2.2 m2 g4.2
      exact ⟨x, by rw [y]⟩
    · exact absurd (g2.1.symm.trans g4.1) (by decide)
    · exact absurd (g2.1.symm.trans g4.1) (by decide)
    · obtain ⟨x, y⟩ := hr m1 g2.2 m2 g4.2
      exact ⟨x, by rw [y]⟩

/-- Where the bits run out before a leaf, the walk fails with CursorOverrun (R210). -/
theorem Engine.walkLoop_overrun {p : Params} {e : Engine} {t : Shape} (h : t.fits e = true) {i : NodeIdx} {bits : List Bool}
    (hp : (i, bits) ∈ t.paths) {left q : Nat} (hs : e.streamHas q bits) (hlen : left < bits.length) (hq : q + left ≤ 8 * p.bbMax) :
    Engine.walkLoop p e left t.root.toNat q = raise .cursorOverrun := by
  induction t generalizing left q bits with
  | leaf j =>
    simp only [Shape.paths, List.mem_singleton, Prod.mk.injEq] at hp
    rw [hp.2] at hlen
    exact absurd hlen (Nat.not_lt_zero _)
  | branch j l r hl hr =>
    have hb := Shape.fits_branch h
    have hj := Engine.lt_of_valid hb.1
    cases left with
    | zero => simp [Engine.walkLoop, e.readNode_ok hj, hb.2.1]
    | succ left =>
      simp only [Shape.paths, List.mem_append, List.mem_map, Prod.mk.injEq, Prod.exists] at hp
      rcases hp with ⟨a, b, hab, rfl, rfl⟩ | ⟨a, b, hab, rfl, rfl⟩
      all_goals
        have hs' := Engine.streamHas_cons.mp hs
        simp only [List.length_cons] at hlen
        simp only [Engine.walkLoop, Shape.root_branch, e.readNode_ok hj, Run.ok_bind, hb.2.1, Bool.false_eq_true, if_false,
          e.streamBit_ok (show q < 8 * p.bbMax by omega), hs'.1, if_true]
      · rw [hb.2.2.2.2.1, hl hb.2.2.2.2.2.2.2.1 hab hs'.2 (by omega) (by omega)]
      · rw [hb.2.2.2.2.2.1, hr hb.2.2.2.2.2.2.2.2 hab hs'.2 (by omega) (by omega)]

/-- Everything `walk` can do: the symbol of the leaf the bits lead to, or CursorOverrun when its code ends after the stream (R210). -/
theorem Engine.walk_ok {p : Params} {e : Engine} {t : Shape} (hb : BufferOk p e) (ht : TreeIs e t) {q q' : Nat}
    {i : NodeIdx} (hl : t.leads e q i q') :
    e.walk p q = if q' ≤ e.bbTotal.toNat then .ok ((e.nodeAt i).symbol, q') else raise .cursorOverrun := by
  obtain ⟨bits, hm, hs, rfl⟩ := hl
  have hroot := Shape.fits_root_lt ht.fits
  have hlim : e.bbTotal.toNat ≤ 8 * p.bbMax := by
    have := hb.total_le
    have := hb.cap_le
    unfold ceil8 at *
    omega
  have hread := e.readNode_ok hroot
  rw [ht.root_eq] at hread
  cases t with
  | leaf j =>
    have hf := Shape.fits_leaf ht.fits
    simp only [Shape.paths, List.mem_singleton, Prod.mk.injEq] at hm
    obtain ⟨rfl, rfl⟩ := hm
    have hr : e.root = i := ht.root_eq.symm
    rw [hr] at hread
    simp only [Engine.walk, hr, hread, Run.ok_bind, hf.2.1, if_true, List.length_nil]
    by_cases h : e.bbTotal.toNat ≤ q
    · rw [if_pos h, if_neg (by omega)]
    · rw [if_neg h, if_pos (by omega)]; rfl
  | branch j l r =>
    have hf := Shape.fits_branch ht.fits
    have hr : e.root = j := ht.root_eq.symm
    have hne : 1 ≤ bits.length := by
      simp only [Shape.paths, List.mem_append, List.mem_map, Prod.mk.injEq, Prod.exists] at hm
      rcases hm with ⟨_, _, _, _, rfl⟩ | ⟨_, _, _, _, rfl⟩ <;> simp
    rw [hr] at hread
    simp only [Engine.walk, hr, hread, Run.ok_bind, hf.2.1, Bool.false_eq_true, if_false, Nat.max_eq_left hne]
    by_cases h : q + bits.length ≤ e.bbTotal.toNat
    · rw [if_pos h]
      exact Engine.walkLoop_ok ht.fits hm hs (by omega) (by omega)
    · rw [if_neg h]
      by_cases hq : q ≤ e.bbTotal.toNat
      · exact Engine.walkLoop_overrun ht.fits hm hs (by omega) (by omega)
      · have : e.bbTotal.toNat - q = 0 := by omega
        rw [this]
        simp [Engine.walkLoop, e.readNode_ok (Engine.lt_of_valid hf.1), hf.2.1]

end Sys2Proof.Machine
end

