-- ==== Sys2Proof/Laws/Codec.lean ====
section
/-! SUPPORT. The laws of the map's assignment (spec/44_encoding_map.md R200) and of DECODE's loop (spec/45_codec.md R213). -/

namespace Sys2Proof.Machine

/-- The code a path gives, started from `c` (R200). -/
def pathWord (c : Word64) (bits : List Bool) : Word64 := bits.foldl (fun c b => if b then c <<< 1 ||| 1 else c <<< 1) c

/-- Everything `assign` can do on a tree with no symbol twice: each leaf's symbol gets its path, every other entry stays (R200). -/
theorem Engine.assign_ok {e : Engine} {t : Shape} (h : t.fits e = true) (hs : (t.leaves.map (fun i => (e.nodeAt i).symbol)).Nodup) {fuel : Nat}
    (hf : t.height < fuel) (c : Word64) (len : Nat) :
    ∃ e', Engine.assign fuel e t.root.toNat c len = .ok e' ∧ e' = { e with codeMap := e'.codeMap } ∧
      (∀ i bits, (i, bits) ∈ t.paths → e'.mapAt (e.nodeAt i).symbol = CodeEntry.present (pathWord c bits) (len + bits.length)) ∧
      ∀ d, d ∉ t.leaves.map (fun i => (e.nodeAt i).symbol) → e'.mapAt d = e.mapAt d := by
  induction t generalizing fuel e c len with
  | leaf i =>
    obtain ⟨fuel, rfl⟩ : ∃ f, fuel = f + 1 := ⟨fuel - 1, by omega⟩
    have hl := Shape.fits_leaf h
    refine ⟨e.setMap (e.nodeAt i).symbol (CodeEntry.present c len), ?_, rfl, ?_, ?_⟩
    · simp [Engine.assign, e.readNode_ok (Engine.lt_of_valid hl.1), hl.2.1]
    · intro j bits hj
      simp only [Shape.paths, List.mem_singleton, Prod.mk.injEq] at hj
      obtain ⟨rfl, rfl⟩ := hj
      rw [Engine.mapAt_setMap, if_pos rfl]
      rfl
    · intro d hd
      simp only [Shape.leaves, List.map_cons, List.map_nil, List.mem_singleton] at hd
      rw [Engine.mapAt_setMap, if_neg hd]
  | branch i l r hl hr =>
    obtain ⟨fuel, rfl⟩ : ∃ f, fuel = f + 1 := ⟨fuel - 1, by omega⟩
    have hb := Shape.fits_branch h
    simp only [Shape.height] at hf
    simp only [Shape.leaves, List.map_append, List.nodup_append] at hs
    obtain ⟨e1, h1, f1, p1, o1⟩ := hl hb.2.2.2.2.2.2.2.1 hs.1 (show l.height < fuel by omega) (c <<< 1) (len + 1)
    have hn : ∀ j, e1.nodeAt j = e.nodeAt j := fun j => Engine.nodeAt_congr (by rw [f1]) j
    have hr1 : r.fits e1 = true := by
      rw [Shape.fits_congr (a := e) (b := e1) (fun j _ => hn j)]
      exact hb.2.2.2.2.2.2.2.2
    obtain ⟨e2, h2, f2, p2, o2⟩ := hr hr1 (by simpa only [hn] using hs.2.1) (show r.height < fuel by omega) (c <<< 1 ||| 1) (len + 1)
    simp only [hn] at p2 o2
    refine ⟨e2, ?_, ?_, ?_, ?_⟩
    · simp only [Engine.assign, Shape.root_branch, e.readNode_ok (Engine.lt_of_valid hb.1), Run.ok_bind, hb.2.1, Bool.false_eq_true, if_false,
        hb.2.2.2.2.1, hb.2.2.2.2.2.1, h1, h2]
    · refine f2.trans ?_
      have := congrArg (fun x : Engine => ({ x with codeMap := e2.codeMap } : Engine)) f1
      exact this
    · intro j bits hj
      simp only [Shape.paths, List.mem_append, List.mem_map, Prod.mk.injEq, Prod.exists] at hj
      rcases hj with ⟨a, b, hab, rfl, rfl⟩ | ⟨a, b, hab, rfl, rfl⟩
      · have hmem : (e.nodeAt a).symbol ∈ l.leaves.map (fun i => (e.nodeAt i).symbol) := by
          rw [← l.paths_leaves]
          exact List.mem_map_of_mem (List.mem_map_of_mem (f := fun x : NodeIdx × List Bool => x.1) hab)
        rw [o2 _ (fun hin => hs.2.2 _ hmem _ hin rfl), p1 a b hab, List.length_cons, Nat.add_assoc, Nat.add_comm 1]
        rfl
      · rw [p2 a b hab, List.length_cons, Nat.add_assoc, Nat.add_comm 1]
        rfl
    · intro d hd
      simp only [Shape.leaves, List.map_append, List.mem_append, not_or] at hd
      rw [o2 d hd.2, o1 d hd.1]

/-- What a stream decodes to does not depend on OUT_MEM. -/
theorem Shape.decodesTo_outMem (e : Engine) (m : Memory) (t : Shape) (cs : List Byte) (q q' : Nat) :
    t.decodesTo { e with outMem := m } cs q q' = t.decodesTo e cs q q' := by
  induction cs generalizing q with
  | nil => rfl
  | cons c cs ih =>
    simp only [Shape.decodesTo, ih]
    rfl

theorem BufferOk.outMem {p : Params} {e : Engine} (h : BufferOk p e) (m : Memory) : BufferOk p { e with outMem := m } :=
  ⟨h.memory, h.cursor_le, h.cap_ge, h.total_le, h.cap_le, h.tail_zero⟩

theorem TreeIs.outMem {e : Engine} {t : Shape} (h : TreeIs e t) (m : Memory) : TreeIs { e with outMem := m } t :=
  ⟨h.root_eq, (Shape.fits_congr (a := e) (b := { e with outMem := m }) (fun _ _ => rfl)).trans h.fits, h.nodup, h.all, h.symbols_nodup⟩

/-- Everything DECODE's loop does on a stream that decodes to `cs`: the bytes from index `j` on, and no other (R213). -/
theorem Engine.decodeLoop_ok {p : Params} {e : Engine} {t : Shape} (hb : BufferOk p e) (ht : TreeIs e t) (hw : e.outMem.wf) {cs : List Byte}
    {q q' j : Nat} (hd : t.decodesTo e cs q q') (hj : j + cs.length ≤ p.dataMax) :
    ∃ e', Engine.decodeLoop p cs.length e j q = .ok (e', q') ∧ e' = { e with outMem := e'.outMem } ∧ e'.outMem.wf ∧
      (∀ k c, cs[k]? = some c → e'.outMem.read (j + k) = c) ∧
      ∀ a, a < j ∨ j + cs.length ≤ a → e'.outMem.read a = e.outMem.read a := by
  induction cs generalizing e q j with
  | nil => exact ⟨e, by rw [show q' = q from hd.symm]; rfl, rfl, hw, fun k c h => by simp at h, fun _ _ => rfl⟩
  | cons c cs ih =>
    obtain ⟨i, m, hl, rfl, hm, hrest⟩ := hd
    rw [List.length_cons] at hj
    let e1 : Engine := { e with outMem := e.outMem.write j (e.nodeAt i).symbol }
    obtain ⟨e', hr, hf, hw', hin, hout⟩ := ih (e := e1) (j := j + 1) (hb.outMem _) (ht.outMem _) (Memory.wf_write hw _ _)
      (by rw [Shape.decodesTo_outMem]; exact hrest) (by omega)
    refine ⟨e', ?_, ?_, hw', ?_, ?_⟩
    · rw [List.length_cons, Engine.decodeLoop, Engine.walk_ok hb ht hl, if_pos hm, Run.ok_bind,
        Engine.memWrite_ok (show j < spaceSize p .outMem by rw [spaceSize_outMem]; omega), Run.ok_bind]
      exact hr
    · rw [hf]
    · intro k d hk
      cases k with
      | zero =>
        simp only [List.getElem?_cons_zero, Option.some.injEq] at hk
        rw [Nat.add_zero, hout j (.inl (by omega)), ← hk]
        exact Memory.read_write_same hw _ _
      | succ k =>
        have := hin k d (by simpa using hk)
        rwa [Nat.add_right_comm, Nat.add_assoc] at this
    · intro a ha
      rw [List.length_cons] at ha
      rw [hout a (by omega)]
      exact Memory.read_write_other _ (by omega) _

end Sys2Proof.Machine
end

