-- ==== Sys2Proof/Laws/Decode.lean ====
section
/-! SUPPORT. The fields of a packed command word (spec/30_encoding.md R91). -/

namespace Sys2Proof

/-- The number a packed word holds. -/
theorem packWord_toNat {opc a b : Nat} (ho : opc < 256) (ha : a < 256) (hb : b < 65536) :
    (packWord opc a b).toNat = opc * 2 ^ 24 + a * 2 ^ 16 + b := by
  have h1 : a <<< 16 ||| b = a * 2 ^ 16 + b := by
    rw [← Nat.shiftLeft_add_eq_or_of_lt (by simpa using hb), Nat.shiftLeft_eq]
  have h2 : opc <<< 24 ||| (a * 2 ^ 16 + b) = opc * 2 ^ 24 + (a * 2 ^ 16 + b) := by
    rw [← Nat.shiftLeft_add_eq_or_of_lt (by omega), Nat.shiftLeft_eq]
  rw [packWord, Nat.lor_assoc, h1, h2, BitVec.toNat_ofNat, Nat.mod_eq_of_lt (by omega)]
  omega

theorem opcField_packWord {opc a b : Nat} (ho : opc < 256) (ha : a < 256) (hb : b < 65536) :
    opcField (packWord opc a b) = BitVec.ofNat 8 opc := by
  apply BitVec.eq_of_toNat_eq
  rw [opcField, BitVec.extractLsb'_toNat, packWord_toNat ho ha hb, Nat.shiftRight_eq_div_pow, BitVec.toNat_ofNat]
  omega

theorem aField_packWord {opc a b : Nat} (ho : opc < 256) (ha : a < 256) (hb : b < 65536) :
    aField (packWord opc a b) = BitVec.ofNat 8 a := by
  apply BitVec.eq_of_toNat_eq
  rw [aField, BitVec.extractLsb'_toNat, packWord_toNat ho ha hb, Nat.shiftRight_eq_div_pow, BitVec.toNat_ofNat]
  omega

theorem bField_packWord {opc a b : Nat} (ho : opc < 256) (ha : a < 256) (hb : b < 65536) :
    bField (packWord opc a b) = b := by
  rw [bField, BitVec.extractLsb'_toNat, packWord_toNat ho ha hb, Nat.shiftRight_eq_div_pow]
  omega

/-- A word holds its three fields, so a word with the same fields is the same word. -/
theorem packWord_fields (w : Word32) : packWord (opcField w).toNat (aField w).toNat (bField w) = w := by
  have hw := w.isLt
  apply BitVec.eq_of_toNat_eq
  rw [packWord_toNat (opcField w).isLt (aField w).isLt (by unfold bField; exact (w.extractLsb' 0 16).isLt)]
  simp only [opcField, aField, bField, BitVec.extractLsb'_toNat, Nat.shiftRight_eq_div_pow]
  omega

/-- A 32-bit row's bits are the command word itself. -/
theorem tableWord_32 (w : Nat) : tableWord 32 w = BitVec.ofNat 32 w := by
  apply BitVec.eq_of_toNat_eq
  simp [tableWord]

end Sys2Proof
end

