-- ==== Sys2Proof/Laws/PerInstr.lean ====
section
/-! SUPPORT. What holds of every command as syntax, one lemma per constructor: its operands fit their fields and its row of
the opcode map is read back from them (spec/30_encoding.md R91, R94). -/

namespace Sys2Proof.Laws.FieldsFit

/-- A well-formed command's opcode and operands fit their fields, and the opcode map gives the command back from them. -/
def Statement (i : Instr) : Prop :=
  i.wellFormed = true → i.opcode < 256 ∧ i.aOperand < 256 ∧ i.bOperand < 65536 ∧
    decodeFields (BitVec.ofNat 8 i.opcode) (BitVec.ofNat 8 i.aOperand) i.bOperand = .ok i

theorem of_fits {i : Instr} (ho : i.opcode < 256) (ha : i.aOperand < 256) (hb : i.bOperand < 65536)
    (hd : decodeFields (BitVec.ofNat 8 i.opcode) (BitVec.ofNat 8 i.aOperand) i.bOperand = .ok i) : Statement i :=
  fun _ => ⟨ho, ha, hb, hd⟩

theorem nop : Statement .nop := of_fits (by decide) (by decide) (by decide) rfl

theorem softReset : Statement .softReset := of_fits (by decide) (by decide) (by decide) rfl

theorem clrSticky : Statement .clrSticky := of_fits (by decide) (by decide) (by decide) rfl

theorem regRead (selector : Nat) : Statement (.regRead selector) := by
  intro h
  simp only [Instr.wellFormed, fitsA, decide_eq_true_eq] at h
  simp [Instr.opcode, Instr.aOperand, Instr.bOperand, decodeFields, Nat.mod_eq_of_lt, h]

theorem memWr (byte : Byte) (index : Nat) : Statement (.memWr byte index) := by
  intro h
  simp only [Instr.wellFormed, fitsB, decide_eq_true_eq] at h
  exact ⟨by simp [Instr.opcode], byte.isLt, h, by simp [Instr.opcode, Instr.aOperand, Instr.bOperand, decodeFields]⟩

theorem memRd (index : Nat) : Statement (.memRd index) := by
  intro h
  simp only [Instr.wellFormed, fitsB, decide_eq_true_eq] at h
  simp [Instr.opcode, Instr.aOperand, Instr.bOperand, decodeFields, h]

theorem outRd (index : Nat) : Statement (.outRd index) := by
  intro h
  simp only [Instr.wellFormed, fitsB, decide_eq_true_eq] at h
  simp [Instr.opcode, Instr.aOperand, Instr.bOperand, decodeFields, h]

theorem bbNew (capacity : Nat) : Statement (.bbNew capacity) := by
  intro h
  simp only [Instr.wellFormed, fitsB, decide_eq_true_eq] at h
  simp [Instr.opcode, Instr.aOperand, Instr.bOperand, decodeFields, h]

theorem bbWrite (width : Nat) (numBits : Nat) : Statement (.bbWrite width numBits) := by
  intro h
  simp only [Instr.wellFormed, fitsA, fitsB, Bool.and_eq_true, decide_eq_true_eq] at h
  simp [Instr.opcode, Instr.aOperand, Instr.bOperand, decodeFields, Nat.mod_eq_of_lt, h]

theorem bbReadBit : Statement .bbReadBit := of_fits (by decide) (by decide) (by decide) rfl

theorem bbAdvance : Statement .bbAdvance := of_fits (by decide) (by decide) (by decide) rfl

theorem bbRewind : Statement .bbRewind := of_fits (by decide) (by decide) (by decide) rfl

theorem bbSizeBits : Statement .bbSizeBits := of_fits (by decide) (by decide) (by decide) rfl

theorem bbByteOffset : Statement .bbByteOffset := of_fits (by decide) (by decide) (by decide) rfl

theorem bbBitOffset : Statement .bbBitOffset := of_fits (by decide) (by decide) (by decide) rfl

theorem bbGetByte (index : Nat) : Statement (.bbGetByte index) := by
  intro h
  simp only [Instr.wellFormed, fitsB, decide_eq_true_eq] at h
  simp [Instr.opcode, Instr.aOperand, Instr.bOperand, decodeFields, h]

theorem pqInit (capacity : Nat) : Statement (.pqInit capacity) := by
  intro h
  simp only [Instr.wellFormed, fitsB, decide_eq_true_eq] at h
  simp [Instr.opcode, Instr.aOperand, Instr.bOperand, decodeFields, h]

theorem pqInsert (node : Nat) : Statement (.pqInsert node) := by
  intro h
  simp only [Instr.wellFormed, fitsB, decide_eq_true_eq] at h
  simp [Instr.opcode, Instr.aOperand, Instr.bOperand, decodeFields, h]

theorem pqExtractMin : Statement .pqExtractMin := of_fits (by decide) (by decide) (by decide) rfl

theorem pqSize : Statement .pqSize := of_fits (by decide) (by decide) (by decide) rfl

theorem pqChangePriority (node : Nat) : Statement (.pqChangePriority node) := by
  intro h
  simp only [Instr.wellFormed, fitsB, decide_eq_true_eq] at h
  simp [Instr.opcode, Instr.aOperand, Instr.bOperand, decodeFields, h]

theorem pqReadHeap (heapIndex : Nat) : Statement (.pqReadHeap heapIndex) := by
  intro h
  simp only [Instr.wellFormed, fitsB, decide_eq_true_eq] at h
  simp [Instr.opcode, Instr.aOperand, Instr.bOperand, decodeFields, h]

theorem freqClear : Statement .freqClear := of_fits (by decide) (by decide) (by decide) rfl

theorem freqSet (symbol : Byte) : Statement (.freqSet symbol) := of_fits (by simp [Instr.opcode]) symbol.isLt (by simp [Instr.bOperand])
    (by simp [Instr.opcode, Instr.aOperand, decodeFields])

theorem freqGet (symbol : Byte) : Statement (.freqGet symbol) := of_fits (by simp [Instr.opcode]) symbol.isLt (by simp [Instr.bOperand])
    (by simp [Instr.opcode, Instr.aOperand, decodeFields])

theorem freqCount (length : Nat) : Statement (.freqCount length) := by
  intro h
  simp only [Instr.wellFormed, fitsB, decide_eq_true_eq] at h
  simp [Instr.opcode, Instr.aOperand, Instr.bOperand, decodeFields, h]

theorem nodeNewLeaf (symbol : Byte) : Statement (.nodeNewLeaf symbol) := of_fits (by simp [Instr.opcode]) symbol.isLt (by simp [Instr.bOperand])
    (by simp [Instr.opcode, Instr.aOperand, decodeFields])

theorem nodeSetWeight (node : Nat) : Statement (.nodeSetWeight node) := by
  intro h
  simp only [Instr.wellFormed, fitsB, decide_eq_true_eq] at h
  simp [Instr.opcode, Instr.aOperand, Instr.bOperand, decodeFields, h]

theorem nodeRead (field : Nat) (node : Nat) : Statement (.nodeRead field node) := by
  intro h
  simp only [Instr.wellFormed, fitsA, fitsB, Bool.and_eq_true, decide_eq_true_eq] at h
  simp [Instr.opcode, Instr.aOperand, Instr.bOperand, decodeFields, Nat.mod_eq_of_lt, h]

theorem arenaReset : Statement .arenaReset := of_fits (by decide) (by decide) (by decide) rfl

theorem treeBuild : Statement .treeBuild := of_fits (by decide) (by decide) (by decide) rfl

theorem treeHeight : Statement .treeHeight := of_fits (by decide) (by decide) (by decide) rfl

theorem treeFree : Statement .treeFree := of_fits (by decide) (by decide) (by decide) rfl

theorem mapBuild : Statement .mapBuild := of_fits (by decide) (by decide) (by decide) rfl

theorem mapGetCode (symbol : Byte) : Statement (.mapGetCode symbol) := of_fits (by simp [Instr.opcode]) symbol.isLt (by simp [Instr.bOperand])
    (by simp [Instr.opcode, Instr.aOperand, decodeFields])

theorem mapGetLen (symbol : Byte) : Statement (.mapGetLen symbol) := of_fits (by simp [Instr.opcode]) symbol.isLt (by simp [Instr.bOperand])
    (by simp [Instr.opcode, Instr.aOperand, decodeFields])

theorem encode (length : Nat) : Statement (.encode length) := by
  intro h
  simp only [Instr.wellFormed, fitsB, decide_eq_true_eq] at h
  simp [Instr.opcode, Instr.aOperand, Instr.bOperand, decodeFields, h]

theorem encSym (symbol : Byte) : Statement (.encSym symbol) := of_fits (by simp [Instr.opcode]) symbol.isLt (by simp [Instr.bOperand])
    (by simp [Instr.opcode, Instr.aOperand, decodeFields])

theorem decode (length : Nat) : Statement (.decode length) := by
  intro h
  simp only [Instr.wellFormed, fitsB, decide_eq_true_eq] at h
  simp [Instr.opcode, Instr.aOperand, Instr.bOperand, decodeFields, h]

theorem decSym : Statement .decSym := of_fits (by decide) (by decide) (by decide) rfl

end Sys2Proof.Laws.FieldsFit
end

