-- ==== Sys2Proof/Laws/Window.lean ====
section
/-! SUPPORT. The laws of the host window (spec/10_state.md R20, spec/20_memory.md R66, R67): what an access reaches, and the byte lanes. -/

namespace Sys2Proof.Machine

/-- A 64-bit access at a register's offset of an aligned window reaches that register (R20, R66). -/
theorem target_register {base off : Nat} (hb : base % 8 = 0) (ho : off < 0x40) (ha : off % 8 = 0) :
    target base .w64 (base + off) = registerAt off := by
  have h1 : inWindow base (base + off) = true := by simp [inWindow, ho]
  have h2 : (base + off) % 8 = 0 := by omega
  simp [target, h1, h2]

/-- In the window, every other access is undefined (R66). -/
theorem target_undefined {base addr : Nat} {width : AccessWidth} (h1 : base ≤ addr) (h2 : addr < base + 0x40) (h : width ≠ .w64 ∨ addr % 8 ≠ 0) :
    target base width addr = .nothing := by
  have hin : inWindow base addr = true := by simp [inWindow, h1, h2]
  have : ¬ (width = .w64 ∧ addr % 8 = 0) := fun hx => h.elim (fun hn => hn hx.1) (fun hn => hn hx.2)
  simp [target, hin, this]

/-- Outside the window an access does not reach the HCE (R69). -/
theorem target_outside {base addr : Nat} {width : AccessWidth} (h : addr < base ∨ base + 0x40 ≤ addr) : target base width addr = .outside := by
  have hin : inWindow base addr = false := by
    simp only [inWindow, Bool.and_eq_false_iff, decide_eq_false_iff_not]
    omega
  simp [target, hin]

/-- Bit `j` of a register value stands on byte lane `j / 8`: the lanes are in little-endian order (R67). -/
theorem laneByte_bit (v : Word64) (i j : Nat) (h : j < 8) : (laneByte v i).getLsbD j = v.getLsbD (8 * i + j) := by
  simp [laneByte, h]

/-- A CMD store ends in one of two ways (R21). -/
theorem State.storeCmd_cases (s : State) (v : Word64) :
    (s.status.busy = false ∧ s.storeCmd v = s.accept (v.extractLsb' 0 32)) ∨
    (s.status.busy = true ∧ s.storeCmd v = { s with status := s.status.dropped }) := by
  cases h : s.status.busy <;> simp [State.storeCmd, h]

end Sys2Proof.Machine
end

