-- ==== Sys2Proof/Tests/Slice0.lean ====
section
/-! SUPPORT. The model's own tests: ill-formed commands, command words written out from spec/30_encoding.md R91 and R94, single
steps with the values of spec/95_test_vectors.md, and for every obligation with hypotheses a witness that meets them. -/

namespace Sys2Proof.Machine.Tests

open Sys2Proof Sys2Proof.Machine

-- One theorem at a time: a thread for each of the tests below would exceed the memory limit of the check.
set_option Elab.async false

/-! ### Small states -/

/-- A legal instance with small memories and a base address that is not 0. -/
def p8 : Params := { pqMax := 256, dataMax := 8, bbMax := 8, baseAddr := 0x1000 }

/-- The map entries of the "AAABCC" tree (spec/44_encoding_map.md R201). -/
def mapT2 : Vector CodeEntry 256 :=
  (((Vector.replicate 256 CodeEntry.absent).set 0x41 ⟨true, 0, 1⟩).set 0x42 ⟨true, 2, 2⟩).set 0x43 ⟨true, 3, 2⟩

/-- The nodes of the "AAABCC" tree (end state of P1 in spec/95_test_vectors.md) and four scratch leaves of weights 5, 2, 7 and 1,
the first three queued as in vector Q1. -/
def nodesT2 : Vector Node 511 :=
  (((((((((Vector.replicate 511 Node.empty).set 0 ⟨true, true, true, 0x41, 3, 511, 511, 0⟩).set 1 ⟨true, true, true, 0x42, 1, 511, 511, 0⟩
    ).set 2 ⟨true, true, true, 0x43, 2, 511, 511, 0⟩).set 3 ⟨true, false, true, 0, 3, 1, 2, 0⟩).set 4 ⟨true, false, true, 0, 6, 0, 3, 0⟩
    ).set 5 ⟨true, true, false, 0x61, 5, 511, 511, 2⟩).set 6 ⟨true, true, false, 0x62, 2, 511, 511, 1⟩
    ).set 7 ⟨true, true, false, 0x63, 7, 511, 511, 3⟩).set 8 ⟨true, true, false, 0x64, 1, 511, 511, 0⟩

/-- "AAABCC" loaded, counted, built, mapped and encoded (P1), with the cursor at 0 and a queue beside it. -/
def richEngine : Engine :=
  { Engine.reset p8 with
    freq := (((Vector.replicate 256 0).set 0x41 3).set 0x42 1).set 0x43 2
    nodes := nodesT2, nodeCount := 9, root := 4
    heap := (((Vector.replicate 511 nil).set 0 6).set 1 5).set 2 7
    pqSize := 3, pqCap := 4, codeMap := mapT2
    bbMem := [(0, 0x17), (1, 0x80)], bbCap := 6, bbTotal := 9
    dataMem := [(0, 0x41), (1, 0x41), (2, 0x41), (3, 0x42), (4, 0x43), (5, 0x43)] }

def rich : State := { State.resetWith p8 with engine := richEngine }

def richTree : Shape := .branch 4 (.leaf 0) (.branch 3 (.leaf 1) (.leaf 2))

/-- The machine with the value of DATA a command was given. -/
def withData (s : State) (v : Word64) : State := { s with data := v, dataLatch := v }

/-- A command runs. -/
def running (s : State) (w : Word32) : State := { s with cmdLatch := w, status := { s.status with busy := true } }

/-- The next state, if the step answers one. -/
def nextOf : Result → Option State
  | .next s => some s
  | .fault _ => none
  | .refused _ => none

/-- A field of the next state. -/
def field {α : Type} (f : State → α) (r : Result) : Option α := (nextOf r).map f

def resOf (r : Result) : Option Word64 := field (fun t => t.engine.res) r

def statusOf (r : Result) : Option Word64 := field (fun t => t.status.word) r

theorem exists_next {r : Result} (P : State → Prop) [DecidablePred P] (h : (nextOf r).any (fun t => decide (P t)) = true) :
    ∃ t, r = .next t ∧ P t := by
  cases r with
  | next t => exact ⟨t, rfl, by simpa [nextOf] using h⟩
  | fault _ => simp [nextOf] at h
  | refused _ => simp [nextOf] at h

/-- A fact about every node index from the first nine and the rest. -/
theorem forall_nodes {P : NodeIdx → Prop} (low : ∀ n, n < 9 → P (BitVec.ofNat 9 n)) (high : ∀ i : NodeIdx, 9 ≤ i.toNat → P i) (i : NodeIdx) :
    P i := by
  by_cases h : i.toNat < 9
  · have := low i.toNat h
    rwa [BitVec.ofNat_toNat, BitVec.setWidth_eq] at this
  · exact high i (by omega)

theorem forall_symbols {P : Byte → Prop} (h : ∀ n, n < 256 → P (BitVec.ofNat 8 n)) (c : Byte) : P c := by
  have := h c.toNat c.isLt
  rwa [BitVec.ofNat_toNat, BitVec.setWidth_eq] at this

/-! ### The invariant holds of the rich state -/

theorem p8_ok : ParamsOk p8 := by constructor <;> decide

theorem rich_buffer : BufferOk p8 richEngine := by
  refine ⟨by decide, by decide, by decide, by decide, by decide, ?_⟩
  intro q hq
  by_cases h : q < 16
  · have : ∀ q, q < 16 → 9 ≤ q → richEngine.bitAt q = false := by decide
    exact this q h hq
  · have h0 : ¬ 0 = q / 8 := by omega
    have h1 : ¬ 1 = q / 8 := by omega
    simp [Engine.bitAt, richEngine, Memory.read, h0, h1, Memory.unlisted]

theorem rich_nodes_high (i : NodeIdx) (h : 9 ≤ i.toNat) : richEngine.nodeAt i = Node.empty := by
  have : ∀ n, n < 9 → n ≠ i.toNat := fun n hn => by omega
  by_cases h2 : i.toNat < 511 <;> simp [Engine.nodeAt, richEngine, nodesT2, h2, this]

theorem rich_heap_high (k : Nat) (h : 3 < k) : richEngine.heapAt k = nil := by
  have : ∀ n, n < 3 → n ≠ k - 1 := fun n hn => by omega
  by_cases h2 : k - 1 < 511 <;> simp [Engine.heapAt, richEngine, h2, this]

theorem rich_queue : QueueOk p8 richEngine := by
  refine ⟨by decide, by decide, rich_heap_high, ?_, ?_⟩
  · have : ∀ k, k < 4 → 1 ≤ k → (richEngine.nodeAt (richEngine.heapAt k)).valid = true ∧
        (richEngine.nodeAt (richEngine.heapAt k)).heapSlot.toNat = k := by decide +kernel
    intro k h1 h2
    exact this k (Nat.lt_succ_of_le h2) h1
  · refine forall_nodes ?_ (fun i hi h => absurd ?_ h)
    · unfold Engine.queued
      decide +kernel
    · rw [rich_nodes_high i hi]; rfl

theorem rich_ordered : HeapOrdered richEngine := by
  have : ∀ k, k < 4 → 2 ≤ k → richEngine.heapWeight (k / 2) ≤ richEngine.heapWeight k := by decide +kernel
  intro k h1 h2
  exact this k (Nat.lt_succ_of_le h2) h1

theorem rich_arena : ArenaOk richEngine := by
  refine ⟨by decide, ?_, ?_, ?_, ?_⟩
  · exact forall_nodes (by decide +kernel) (fun i hi _ => rich_nodes_high i hi)
  · exact forall_nodes (by decide +kernel) (fun i hi _ => rich_nodes_high i hi)
  · exact forall_nodes (by decide +kernel) (fun i hi h => by rw [rich_nodes_high i hi] at h; exact absurd h (by decide))
  · refine forall_nodes ?_ (fun i hi _ => by rw [rich_nodes_high i hi]; rfl)
    unfold Engine.queued
    decide +kernel

theorem rich_tree : TreeIs richEngine richTree := by
  refine ⟨by decide, by decide +kernel, by decide, ?_, by decide +kernel⟩
  refine forall_nodes (by decide +kernel) (fun i hi => ?_)
  rw [rich_nodes_high i hi]
  refine ⟨fun h => absurd h (by decide), fun h => absurd (List.mem_map_of_mem (f := BitVec.toNat) h) ?_⟩
  have : ∀ n ∈ richTree.indices.map BitVec.toNat, n < 9 := by decide
  exact fun h => absurd (this _ h) (by omega)

theorem rich_map : ∀ c, EntryOk (richEngine.mapAt c) := by
  refine forall_symbols ?_
  decide +kernel

theorem rich_inv : Inv rich :=
  ⟨p8_ok, by decide, by decide, by decide, rich_buffer, rich_map, rich_queue, rich_arena, .inr ⟨richTree, rich_tree⟩, by decide⟩

/-! ### Ill-formed commands: an operand that does not fit its field is refused (R91) -/

theorem test_wellFormed_field_A : (Instr.regRead 256).wellFormed = false ∧ (Instr.bbWrite 256 0).wellFormed = false ∧
    (Instr.nodeRead 256 0).wellFormed = false ∧ (Instr.regRead 255).wellFormed = true := by decide

theorem test_wellFormed_field_B_data : (Instr.memWr 0 65536).wellFormed = false ∧ (Instr.memRd 65536).wellFormed = false ∧
    (Instr.outRd 65536).wellFormed = false ∧ (Instr.memWr 0 65535).wellFormed = true := by decide

theorem test_wellFormed_field_B_buffer : (Instr.bbNew 65536).wellFormed = false ∧ (Instr.bbWrite 8 65536).wellFormed = false ∧
    (Instr.bbGetByte 65536).wellFormed = false := by decide

theorem test_wellFormed_field_B_queue : (Instr.pqInit 65536).wellFormed = false ∧ (Instr.pqInsert 65536).wellFormed = false ∧
    (Instr.pqChangePriority 65536).wellFormed = false ∧ (Instr.pqReadHeap 65536).wellFormed = false := by decide

theorem test_wellFormed_field_B_rest : (Instr.freqCount 65536).wellFormed = false ∧ (Instr.nodeSetWeight 65536).wellFormed = false ∧
    (Instr.nodeRead 0 65536).wellFormed = false ∧ (Instr.encode 65536).wellFormed = false ∧
    (Instr.decode 65536).wellFormed = false := by decide

/-! ### Command words written out from R91 and R94 -/

theorem test_decode_control : decode 0x00000000 = .ok .nop ∧ decode 0x01000000 = .ok .softReset ∧ decode 0x02000000 = .ok .clrSticky ∧
    decode 0x03080000 = .ok (.regRead 8) := by decide

theorem test_decode_data : decode 0x10410003 = .ok (.memWr 0x41 3) ∧ decode 0x11000FFF = .ok (.memRd 4095) ∧
    decode 0x12000003 = .ok (.outRd 3) := by decide

theorem test_decode_buffer : decode 0x20000001 = .ok (.bbNew 1) ∧ decode 0x21080006 = .ok (.bbWrite 8 6) ∧
    decode 0x22000000 = .ok .bbReadBit ∧ decode 0x23000000 = .ok .bbAdvance ∧ decode 0x24000000 = .ok .bbRewind ∧
    decode 0x25000000 = .ok .bbSizeBits ∧ decode 0x26000000 = .ok .bbByteOffset ∧ decode 0x27000000 = .ok .bbBitOffset ∧
    decode 0x28008000 = .ok (.bbGetByte 32768) := by decide

theorem test_decode_queue : decode 0x30000003 = .ok (.pqInit 3) ∧ decode 0x31000002 = .ok (.pqInsert 2) ∧
    decode 0x32000000 = .ok .pqExtractMin ∧ decode 0x33000000 = .ok .pqSize ∧ decode 0x340001FE = .ok (.pqChangePriority 510) ∧
    decode 0x35000001 = .ok (.pqReadHeap 1) := by decide

theorem test_decode_freq : decode 0x40000000 = .ok .freqClear ∧ decode 0x41420000 = .ok (.freqSet 0x42) ∧
    decode 0x42FF0000 = .ok (.freqGet 0xFF) ∧ decode 0x43000006 = .ok (.freqCount 6) := by decide

theorem test_decode_nodes : decode 0x44610000 = .ok (.nodeNewLeaf 0x61) ∧ decode 0x45000002 = .ok (.nodeSetWeight 2) ∧
    decode 0x46050002 = .ok (.nodeRead 5 2) ∧ decode 0x47000000 = .ok .arenaReset := by decide

theorem test_decode_tree : decode 0x50000000 = .ok .treeBuild ∧ decode 0x51000000 = .ok .treeHeight ∧
    decode 0x52000000 = .ok .treeFree := by decide

theorem test_decode_map : decode 0x60000000 = .ok .mapBuild ∧ decode 0x61420000 = .ok (.mapGetCode 0x42) ∧
    decode 0x62420000 = .ok (.mapGetLen 0x42) := by decide

theorem test_decode_codec : decode 0x70000006 = .ok (.encode 6) ∧ decode 0x71410000 = .ok (.encSym 0x41) ∧
    decode 0x72000006 = .ok (.decode 6) ∧ decode 0x73000000 = .ok .decSym := by decide

/-- Unused fields do not count (R93; vector C12). -/
theorem test_decode_unused_fields : decode 0x00FFFFFF = .ok .nop ∧ decode 0x34FF0002 = .ok (.pqChangePriority 2) ∧
    decode 0x4142FFFF = .ok (.freqSet 0x42) := by decide

theorem test_decode_reserved : decode 0x04000000 = .error (.reservedOpcode 0x04) ∧ decode 0xFF000000 = .error (.reservedOpcode 0xFF) := by
  decide

theorem test_encode : encode (.memWr 0x41 3) = 0x10410003 ∧ encode (.bbWrite 8 4) = 0x21080004 ∧ encode (.nodeRead 5 2) = 0x46050002 ∧
    encode (.mapGetCode 0x42) = 0x61420000 ∧ encode .decSym = 0x73000000 := by decide

theorem test_decodeTableWord : decodeTableWord 32 0x46050002 = some (.nodeRead 5 2) ∧ decodeTableWord 32 0x04000000 = none := by decide

/-! ### Single steps (spec/95_test_vectors.md) -/

/-- The first step after reset with a word accepted (C1, C3, E1). -/
theorem test_step_regRead : resOf (step (State.reset.withFetchWord 32 0x03010000)) = some 511 := by decide +kernel

theorem test_step_reserved : statusOf (step (State.reset.withFetchWord 32 0x04000000)) = some 0x0802 := by decide +kernel

theorem test_step_failure : statusOf (step (State.reset.withFetchWord 32 0x50000000)) = some 0x0202 := by decide +kernel

/-- C6: a CMD store while a command runs is dropped. -/
theorem test_step_dropped : field (fun t => (t.status.word, t.cmdLatch))
    (step { running State.reset 0x25000000 with schedule := [.store .w64 0 0x01000000] }) = some (0x0005, 0x25000000) := by decide +kernel

theorem test_step_store_then_load : field (fun t => t.data) (step { State.reset with schedule := [.store .w64 8 0x1234] }) = some 0x1234 ∧
    field (fun t => t.busOut) (step { State.reset with schedule := [.load .w64 0x20] }) = some (some 0x4843450000010007) := by decide +kernel

theorem test_step_outside : step { rich with schedule := [.load .w64 0x1040] } = .refused (.outsideWindow 0x1040) := rfl

/-- E3. -/
theorem test_step_reset : field (fun t => (t.status.word, t.engine.root, t.data)) (step { running rich 0 with data := 1, schedule := [.reset] }) =
    some (0, 511, 0) := by decide +kernel

theorem test_nop : resOf (exec .nop rich) = some 0 := by decide +kernel

theorem test_clrSticky : statusOf (exec .clrSticky { rich with status := ⟨true, true, true, 5⟩ }) = some 0 := by decide +kernel

/-- C7. -/
theorem test_softReset : field (fun t => (t.data, t.cmdLatch, t.engine.root, t.engine.dataMem)) (exec .softReset (running (withData rich 0x1234) 0x01000000)) =
    some (0x1234, 0x01000000, 511, []) := by decide +kernel

theorem test_regRead_mapCount : resOf (exec (.regRead 4) rich) = some 3 := by decide +kernel

theorem test_regRead_9 : statusOf (exec (.regRead 9) rich) = some 0x0202 := by decide +kernel

/-- C8, C9. -/
theorem test_memWr : field (fun t => t.engine.dataMem.read 4095) (exec (.memWr 0x41 4095) State.reset) = some 0x41 ∧
    statusOf (exec (.memWr 0x41 4096) State.reset) = some 0x0202 := by decide +kernel

theorem test_memRd : resOf (exec (.memRd 3) rich) = some 0x42 ∧ statusOf (exec (.memRd 4096) State.reset) = some 0x0202 := by decide +kernel

theorem test_outRd : resOf (exec (.outRd 3) { rich with engine := { richEngine with outMem := [(3, 0x42)] } }) = some 0x42 := by decide +kernel

/-- B8. -/
theorem test_bbNew : field (fun t => t.engine.bbCap) (exec (.bbNew 0) State.reset) = some 1 ∧
    statusOf (exec (.bbNew 32769) State.reset) = some 0x0102 := by decide +kernel

/-- B1, its second write. -/
theorem test_bbWrite : field (fun t => (t.engine.bbMem, t.engine.bbTotal, t.engine.bbByteOff, t.engine.bbBitOff, t.engine.bbCap))
    (exec (.bbWrite 8 6) (withData { State.reset with engine := { Engine.reset Params.default with bbMem := [(0, 0xB0)], bbTotal := 4 } } 0x33)) =
    some ([(0, 0xBC), (1, 0xC0)], 10, 1, 2, 2) := by decide +kernel

/-- B4. -/
theorem test_bbWrite_errors : statusOf (exec (.bbWrite 12 4) State.reset) = some 0x0202 ∧ statusOf (exec (.bbWrite 8 9) State.reset) = some 0x0202 := by
  decide +kernel

theorem test_bbReadBit : resOf (exec .bbReadBit { rich with engine := { richEngine with bbBitOff := 3 } }) = some 1 ∧
    statusOf (exec .bbReadBit { rich with engine := { richEngine with bbByteOff := 1, bbBitOff := 1 } }) = some 0x0502 := by decide +kernel

/-- B13: the cursor rolls into the next byte. -/
theorem test_bbAdvance : field (fun t => (t.engine.bbByteOff, t.engine.bbBitOff)) (exec .bbAdvance { rich with engine := { richEngine with bbBitOff := 7 } }) =
    some (1, 0) := by decide +kernel

theorem test_bbRewind : field (fun t => t.engine.cursor) (exec .bbRewind { rich with engine := { richEngine with bbByteOff := 1, bbBitOff := 1 } }) = some 0 := by
  decide +kernel

/-- B14. -/
theorem test_bb_accessors :
    let s := { rich with engine := { richEngine with bbByteOff := 1, bbBitOff := 2 } }
    resOf (exec .bbSizeBits s) = some 9 ∧ resOf (exec .bbByteOffset s) = some 1 ∧ resOf (exec .bbBitOffset s) = some 2 := by decide +kernel

theorem test_bbGetByte : resOf (exec (.bbGetByte 1) rich) = some 0x80 ∧ statusOf (exec (.bbGetByte 6) rich) = some 0x0202 := by decide +kernel

theorem test_pqInit : field (fun t => (t.engine.pqSize, t.engine.pqCap, (t.engine.nodeAt 7).heapSlot)) (exec (.pqInit 2) rich) = some (0, 2, 0) ∧
    statusOf (exec (.pqInit 257) rich) = some 0x0102 := by decide +kernel

/-- The lightest node rises to the root and its ancestors move down (R152). -/
theorem test_pqInsert : field (fun t => (t.engine.heapAt 1, t.engine.heapAt 2, t.engine.heapAt 3, t.engine.heapAt 4, (t.engine.nodeAt 5).heapSlot))
    (exec (.pqInsert 8) rich) = some (8, 6, 7, 5, 4) := by decide +kernel

/-- E4: the index check comes before the capacity check. -/
theorem test_pqInsert_order : statusOf (exec (.pqInsert 511) { rich with engine := { richEngine with pqCap := 3 } }) = some 0x0202 ∧
    statusOf (exec (.pqInsert 8) { rich with engine := { richEngine with pqCap := 3 } }) = some 0x0602 := by decide +kernel

theorem test_pqExtractMin : field (fun t => (t.engine.res, t.engine.heapAt 1, t.engine.heapAt 2, t.engine.heapAt 3, (t.engine.nodeAt 6).heapSlot))
    (exec .pqExtractMin rich) = some (6, 5, 7, 511, 0) := by decide +kernel

theorem test_pqExtractMin_empty : statusOf (exec .pqExtractMin State.reset) = some 0x0302 := by decide +kernel

theorem test_pqSize : resOf (exec .pqSize rich) = some 3 := by decide +kernel

/-- Q3: the third of [5, 2, 7] becomes 1 and moves to the root. -/
theorem test_pqChangePriority : field (fun t => (t.engine.heapAt 1, t.engine.heapAt 2, t.engine.heapAt 3))
    (exec (.pqChangePriority 7) { rich with engine := richEngine.putNode 7 ⟨true, true, false, 0x63, 1, 511, 511, 3⟩ }) = some (7, 5, 6) := by
  decide +kernel

theorem test_pqReadHeap : resOf (exec (.pqReadHeap 2) rich) = some 5 ∧ statusOf (exec (.pqReadHeap 0) rich) = some 0x0202 := by decide +kernel

theorem test_freqClear : field (fun t => t.engine.freqAt 0x41) (exec .freqClear rich) = some 0 := by decide +kernel

/-- F2. -/
theorem test_freqSet : field (fun t => t.engine.freqAt 0x41) (exec (.freqSet 0x41) (withData rich 0xFFFFFFFF)) = some 0xFFFFFFFF ∧
    statusOf (exec (.freqSet 0x41) (withData rich 0x100000000)) = some 0x0202 := by decide +kernel

theorem test_freqGet : resOf (exec (.freqGet 0x43) rich) = some 2 := by decide +kernel

/-- R174's example, from counters that held something else. -/
theorem test_freqCount : field (fun t => (t.engine.freqAt 0x41, t.engine.freqAt 0x42, t.engine.freqAt 0x43, t.engine.freqAt 0x44))
    (exec (.freqCount 6) { rich with engine := { richEngine with freq := Vector.replicate 256 9 } }) = some (3, 1, 2, 0) := by decide +kernel

theorem test_nodeNewLeaf : field (fun t => (t.engine.res, t.engine.nodeCount, t.engine.nodeAt 9)) (exec (.nodeNewLeaf 0x7A) (withData rich 44)) =
    some (9, 10, ⟨true, true, false, 0x7A, 44, 511, 511, 0⟩) := by decide +kernel

/-- Q14. -/
theorem test_nodeNewLeaf_full : statusOf (exec (.nodeNewLeaf 0) { rich with engine := { richEngine with nodeCount := 511 } }) = some 0x0102 := by
  decide +kernel

theorem test_nodeSetWeight : field (fun t => t.engine.nodeAt 6) (exec (.nodeSetWeight 6) (withData rich 77)) =
    some ⟨true, true, false, 0x62, 77, 511, 511, 1⟩ ∧ statusOf (exec (.nodeSetWeight 4) rich) = some 0x0202 := by decide +kernel

/-- F6, F7. -/
theorem test_nodeRead : resOf (exec (.nodeRead 0 4) rich) = some 5 ∧ resOf (exec (.nodeRead 4 4) rich) = some 3 ∧
    resOf (exec (.nodeRead 0 1) rich) = some 7 ∧ resOf (exec (.nodeRead 3 1) rich) = some 511 := by decide +kernel

/-- F8. -/
theorem test_nodeRead_errors : statusOf (exec (.nodeRead 6 0) rich) = some 0x0202 ∧ statusOf (exec (.nodeRead 0 511) rich) = some 0x0202 := by
  decide +kernel

theorem test_arenaReset : field (fun t => (t.engine.nodeCount, t.engine.root, t.engine.pqSize, t.engine.pqCap, t.engine.nodeAt 3))
    (exec .arenaReset rich) = some (0, 511, 0, 4, Node.empty) := by decide +kernel

/-- T2. -/
theorem test_treeBuild : field (fun t => (t.engine.res, t.engine.nodeAt 3, t.engine.nodeAt 4)) (exec .treeBuild rich) =
    some (4, ⟨true, false, true, 0, 3, 1, 2, 0⟩, ⟨true, false, true, 0, 6, 0, 3, 0⟩) := by decide +kernel

theorem test_treeHeight : resOf (exec .treeHeight rich) = some 2 := by decide +kernel

/-- F9. -/
theorem test_treeFree : field (fun t => (t.engine.nodeAt 4, t.engine.nodeAt 1, t.engine.nodeCount, t.engine.root, (t.engine.nodeAt 5).valid))
    (exec .treeFree rich) = some (Node.empty, Node.empty, 9, 511, true) := by decide +kernel

/-- M2. -/
theorem test_mapBuild : field (fun t => (t.engine.res, t.engine.mapAt 0x41, t.engine.mapAt 0x42, t.engine.mapAt 0x43))
    (exec .mapBuild { rich with engine := richEngine.clearMap }) = some (3, ⟨true, 0, 1⟩, ⟨true, 2, 2⟩, ⟨true, 3, 2⟩) := by decide +kernel

theorem test_mapGetCode : resOf (exec (.mapGetCode 0x42) rich) = some 2 ∧ statusOf (exec (.mapGetCode 0x44) rich) = some 0x0402 := by decide +kernel

theorem test_mapGetLen : resOf (exec (.mapGetLen 0x43) rich) = some 2 := by decide +kernel

/-- T2. -/
theorem test_encode_T2 : field (fun t => (t.engine.res, t.engine.bbMem, t.engine.bbCap, t.engine.bbByteOff, t.engine.bbBitOff)) (exec (.encode 6) rich) =
    some (9, [(0, 0x17), (1, 0x80)], 6, 1, 1) := by decide +kernel

/-- K2: a byte that is not in the map. -/
theorem test_encode_missing : statusOf (exec (.encode 7) rich) = some 0x0402 := by decide +kernel

/-- The code 10 appended at position 9 (R212). -/
theorem test_encSym : field (fun t => (t.engine.bbMem, t.engine.bbTotal)) (exec (.encSym 0x42) rich) = some ([(0, 0x17), (1, 0xC0)], 11) := by
  decide +kernel

/-- T2. -/
theorem test_decode_T2 : field (fun t => (t.engine.res, t.engine.outMem, t.engine.bbByteOff, t.engine.bbBitOff)) (exec (.decode 6) rich) =
    some (9, [(0, 0x41), (1, 0x41), (2, 0x41), (3, 0x42), (4, 0x43), (5, 0x43)], 1, 1) := by decide +kernel

/-- K9. -/
theorem test_decode_overrun : statusOf (exec (.decode 7) rich) = some 0x0502 := by decide +kernel

/-- K5: the walk from position 3. -/
theorem test_decSym : field (fun t => (t.engine.res, t.engine.cursor)) (exec .decSym { rich with engine := { richEngine with bbBitOff := 3 } }) =
    some (0x42, 5) := by decide +kernel

/-! ### Witnesses: for each obligation with hypotheses, states and operands that meet all of them together -/

theorem witness_DecodeEncodeRoundTrip : (Instr.bbWrite 255 65535).wellFormed = true ∧ (Instr.nodeRead 0 0).wellFormed = true := by decide

theorem witness_DecodingReadsOpcAndUsedFields :
    (decode 0x46050002 = .ok (.nodeRead 5 2) ∧ rowNamesA (.nodeRead 5 2) = true ∧ rowNamesB (.nodeRead 5 2) = true ∧
      opcField 0x46FF0000 = opcField 0x46050002) ∧
    (decode 0x03040000 = .ok (.regRead 4) ∧ opcField 0x0304FFFF = opcField 0x03040000 ∧ aField 0x0304FFFF = aField 0x03040000 ∧
      rowNamesB (.regRead 4) = false) ∧
    (decode 0x11000FFF = .ok (.memRd 4095) ∧ opcField 0x11FF0FFF = opcField 0x11000FFF ∧ bField 0x11FF0FFF = bField 0x11000FFF ∧
      rowNamesA (.memRd 4095) = false) := by decide

/-- Every range of R96 at both its ends. -/
theorem witness_ReservedOpcodeFailsWithIllegalCommand :
    ∀ o ∈ [0x04, 0x0F, 0x13, 0x1F, 0x29, 0x2F, 0x36, 0x3F, 0x48, 0x4F, 0x53, 0x5F, 0x63, 0x6F, 0x74, 0xFF],
      let s := running rich (BitVec.ofNat 32 (o * 2 ^ 24))
      s.status.busy = true ∧ s.schedule = [] ∧ (opcField s.cmdLatch).toNat = o ∧
        ((0x04 ≤ o ∧ o ≤ 0x0F) ∨ (0x13 ≤ o ∧ o ≤ 0x1F) ∨ (0x29 ≤ o ∧ o ≤ 0x2F) ∨ (0x36 ≤ o ∧ o ≤ 0x3F) ∨
         (0x48 ≤ o ∧ o ≤ 0x4F) ∨ (0x53 ≤ o ∧ o ≤ 0x5F) ∨ (0x63 ≤ o ∧ o ≤ 0x6F) ∨ 0x74 ≤ o) := by decide

theorem witness_StepRunsTheDecodedCommand :
    let s := running rich 0x33000000
    let s' : State := { s with schedule := [.engine, .load .w64 0x1018] }
    s.status.busy = true ∧ decode s.cmdLatch = .ok .pqSize ∧ s.schedule = [] ∧
      s'.status.busy = true ∧ decode s'.cmdLatch = .ok .pqSize ∧ s'.schedule = .engine :: [.load .w64 0x1018] := by decide

theorem witness_IdleEngineKeepsItsState :
    let s' : State := { rich with schedule := [.engine] }
    rich.status.busy = false ∧ rich.schedule = [] ∧ s'.status.busy = false ∧ s'.schedule = .engine :: [] := by decide

theorem witness_CmdStoreIsAcceptedOrDropped :
    let s : State := { rich with schedule := [.store .w64 0x1000 0xFFFFFFFF50000000] }
    let s' : State := { running rich 0 with schedule := [.store .w64 0x1000 0x50000000] }
    s.params.baseAddr % 8 = 0 ∧ s.schedule = .store .w64 s.params.baseAddr 0xFFFFFFFF50000000 :: [] ∧ s.status.busy = false ∧
      s'.schedule = .store .w64 s'.params.baseAddr 0x50000000 :: [] ∧ s'.status.busy = true := by decide

theorem witness_OtherStoresWriteDataOrNothing : ∀ off ∈ [0x08, 0x10, 0x18, 0x20, 0x38],
    let s : State := { rich with schedule := [.store .w64 (0x1000 + off) 7] }
    s.params.baseAddr % 8 = 0 ∧ off < 0x40 ∧ off % 8 = 0 ∧ off ≠ 0 ∧
      s.schedule = .store .w64 (s.params.baseAddr + off) 7 :: [] := by decide

theorem witness_LoadsAnswerTheRegister : ∀ off ∈ [0x00, 0x08, 0x10, 0x18, 0x20, 0x28, 0x30, 0x38],
    let s : State := { rich with schedule := [.load .w64 (0x1000 + off)] }
    s.params.baseAddr % 8 = 0 ∧ off < 0x40 ∧ off % 8 = 0 ∧ s.schedule = .load .w64 (s.params.baseAddr + off) :: [] := by decide

theorem witness_UndefinedAccessesDoNothing : ∀ x ∈ [(AccessWidth.w32, 0x1000), (.w8, 0x103F), (.w16, 0x1008), (.w64, 0x1001), (.w64, 0x103F)],
    let s : State := { rich with schedule := [.store x.1 x.2 7] }
    let s' : State := { rich with schedule := [.load x.1 x.2] }
    s.params.baseAddr ≤ x.2 ∧ x.2 < s.params.baseAddr + 0x40 ∧ (x.1 ≠ .w64 ∨ x.2 % 8 ≠ 0) ∧
      s.schedule = .store x.1 x.2 7 :: [] ∧ s'.params = s.params ∧ s'.schedule = .load x.1 x.2 :: [] := by decide

theorem witness_ResetEventGivesTheResetValues :
    let s : State := { running rich 0x50000000 with schedule := [.reset, .engine] }
    s.params.pqMax ≤ 511 ∧ s.schedule = .reset :: [.engine] := by decide

theorem witness_InvariantHoldsAfterReset : ParamsOk Params.default ∧ ParamsOk ⟨256, 1, 1, 0⟩ ∧ ParamsOk ⟨511, 65535, 65535, 8⟩ := by
  refine ⟨?_, ?_, ?_⟩ <;> constructor <;> decide

/-- The invariant does not depend on the latches, on DATA or on BUSY. -/
theorem inv_running {s : State} (h : Inv s) (w : Word32) : Inv (running s w) :=
  ⟨h.params, h.status, h.dataMem, h.outMem, h.buffer, h.codeMap, h.queue, h.arena, h.tree, h.schedule⟩

theorem inv_withData {s : State} (h : Inv s) (v : Word64) : Inv (withData s v) :=
  ⟨h.params, h.status, h.dataMem, h.outMem, h.buffer, h.codeMap, h.queue, h.arena, h.tree, h.schedule⟩

theorem witness_StepKeepsTheInvariant : Inv (running rich 0x32000000) ∧ ∃ t, step (running rich 0x32000000) = .next t ∧ t.status.errCode = 0 :=
  ⟨inv_running rich_inv _, exists_next (fun t => t.status.errCode = 0) (by decide +kernel)⟩

/-- The hypothesis holds with events pending at both ends of the window, too. -/
theorem witness_StepIsAlwaysDefined :
    Inv (running rich 0x60000000) ∧ Inv { rich with schedule := [.store .w64 0x1000 0, .load .w8 0x103F, .engine, .reset] } :=
  ⟨inv_running rich_inv _,
    ⟨p8_ok, by decide, by decide, by decide, rich_buffer, rich_map, rich_queue, rich_arena, .inr ⟨richTree, rich_tree⟩, by decide⟩⟩

theorem witness_CommandsLeaveTheHostSideAlone : ∃ t, exec (.nodeNewLeaf 1) (withData rich 9) = .next t ∧ t.status.errCode = 0 :=
  exists_next (fun t => t.status.errCode = 0) (by decide +kernel)

theorem witness_FailedCommandsChangeOnlyStatus : ∃ t, exec (.decode 7) rich = .next t ∧ t.status.errCode ≠ 0 :=
  exists_next (fun t => t.status.errCode ≠ 0) (by decide +kernel)

theorem witness_CommandsWriteOnlyTheirParts : (∃ t, exec (.pqInsert 8) rich = .next t ∧ t.status.errCode = 0) ∧ Part.res ∉ partsWritten (.pqInsert 8) :=
  ⟨exists_next (fun t => t.status.errCode = 0) (by decide +kernel), by decide⟩

theorem witness_StickyBitsStayUntilCleared :
    let s : State := { rich with status := ⟨false, true, true, 0⟩ }
    Instr.arenaReset ≠ .clrSticky ∧ Instr.arenaReset ≠ .softReset ∧ s.status.errAny = true ∧ ∃ t, exec .arenaReset s = .next t ∧ t.status.errCode = 0 :=
  ⟨by decide, by decide, rfl, exists_next (fun t => t.status.errCode = 0) (by decide +kernel)⟩

theorem witness_SoftResetKeepsDataAndLatches : State.reset.params.pqMax ≤ 511 ∧ rich.params.pqMax ≤ 511 := by decide

theorem witness_RegReadReadsItsSelector : 8 < 9 ∧ 8 < 255 := by decide

/-- The last byte that exists, and the first that does not. -/
theorem witness_MemWrSetsOneByte : rich.engine.dataMem.wf ∧ 7 < rich.params.dataMax ∧ rich.params.dataMax ≤ 8 := by decide

theorem witness_MemRdAndOutRdReadOneByte : 7 < rich.params.dataMax ∧ rich.params.dataMax ≤ 8 := by decide

theorem witness_BbNewMakesAnEmptyBuffer : ParamsOk rich.params ∧ 0 ≤ rich.params.bbMax ∧ 8 ≤ rich.params.bbMax ∧ rich.params.bbMax < 9 :=
  ⟨p8_ok, by decide⟩

/-- No bits, a whole byte, and 55 bits that fill BB_MAX exactly. -/
theorem witness_BbWriteAppendsTheLowBits : ParamsOk rich.params ∧ BufferOk rich.params rich.engine ∧
    ∀ x ∈ [(8, 0), (8, 8), (16, 16), (32, 32), (64, 55)], (x.1 = 8 ∨ x.1 = 16 ∨ x.1 = 32 ∨ x.1 = 64) ∧ x.2 ≤ x.1 ∧
      (rich.engine.bbTotal.toNat + x.2 + 7) / 8 ≤ rich.params.bbMax := ⟨p8_ok, rich_buffer, by decide⟩

theorem witness_BbWriteFailsInCheckOrder :
    ¬ (12 = 8 ∨ 12 = 16 ∨ 12 = 32 ∨ 12 = 64) ∧ ((8 = 8 ∨ 8 = 16 ∨ 8 = 32 ∨ 8 = 64) ∧ 8 < 9) ∧
    ((64 = 8 ∨ 64 = 16 ∨ 64 = 32 ∨ 64 = 64) ∧ 56 ≤ 64 ∧ rich.params.bbMax < (rich.engine.bbTotal.toNat + 56 + 7) / 8) := by decide

/-- The cursor of the rich state moved to stream position `q`. -/
def atBit (q : Nat) : State := { rich with engine := richEngine.setCursor q }

theorem witness_BbReadBitReadsAtTheCursor :
    ((atBit 8).engine.cursor < (atBit 8).engine.bbTotal.toNat ∧ (atBit 8).engine.bbTotal.toNat ≤ 8 * (atBit 8).params.bbMax) ∧
    (atBit 9).engine.bbTotal.toNat ≤ (atBit 9).engine.cursor := by decide

theorem witness_BbAdvanceMovesOneBit :
    ((atBit 7).engine.cursor < (atBit 7).engine.bbTotal.toNat ∧ (atBit 7).engine.bbTotal.toNat ≤ 8 * (atBit 7).params.bbMax ∧
      (atBit 7).params.bbMax ≤ 65535) ∧
    (atBit 9).engine.bbTotal.toNat ≤ (atBit 9).engine.cursor := by decide

theorem witness_BbGetByteReadsBelowCapacity :
    (rich.engine.bbCap.toNat ≤ rich.params.bbMax ∧ 5 < rich.engine.bbCap.toNat) ∧ rich.engine.bbCap.toNat ≤ 6 := by decide

theorem witness_OtherCommandsNeverShortenTheStream : Inv rich ∧ (∀ n, Instr.encSym 0x42 ≠ .bbNew n) ∧ (∀ n, Instr.encSym 0x42 ≠ .encode n) ∧
    Instr.encSym 0x42 ≠ .softReset ∧ ∃ t, exec (.encSym 0x42) rich = .next t ∧ t.status.errCode = 0 :=
  ⟨rich_inv, fun _ => by simp, fun _ => by simp, by simp, exists_next (fun t => t.status.errCode = 0) (by decide +kernel)⟩

/-! #### The queue -/

theorem reset_queue (p : Params) (h : p.pqMax ≤ 511) : QueueOk p (Engine.reset p) := by
  have hn : ∀ i, (Engine.reset p).nodeAt i = Node.empty := Engine.nodeAt_replicate rfl
  refine ⟨Nat.zero_le _, by simp only [Engine.reset]; rw [slot_toNat h], fun k hk => ?_, fun k h1 h2 => ?_, fun i hi => ?_⟩
  · by_cases h2 : k - 1 < 511 <;> simp [Engine.heapAt, Engine.reset, h2]
  · have h0 : (Engine.reset p).pqSize.toNat = 0 := rfl
    omega
  · rw [Engine.queued, hn] at hi
    exact absurd rfl hi

/-- The rich state with the queue full. -/
def full : State := { rich with engine := { richEngine with pqCap := 3 } }

theorem full_queue : QueueOk p8 full.engine :=
  ⟨by decide, by decide, rich_queue.vacant, rich_queue.entry_slot, rich_queue.slot_entry⟩

/-- The node at heap index 3 made lighter than the root, as a NODE_SET_WEIGHT leaves it. -/
def lighter : State := { rich with engine := richEngine.putNode 7 ⟨true, true, false, 0x63, 1, 511, 511, 3⟩ }

theorem lighter_nodes (i : NodeIdx) : (lighter.engine.nodeAt i).valid = (richEngine.nodeAt i).valid ∧
    (lighter.engine.nodeAt i).heapSlot = (richEngine.nodeAt i).heapSlot := by
  have h : lighter.engine.nodeAt i = if i = 7 then ⟨true, true, false, 0x63, 1, 511, 511, 3⟩ else richEngine.nodeAt i :=
    richEngine.nodeAt_putNode (i := 7) (by decide) ⟨true, true, false, 0x63, 1, 511, 511, 3⟩ i
  by_cases h7 : i = 7
  · rw [h, if_pos h7, h7]; decide +kernel
  · rw [h, if_neg h7]; exact ⟨rfl, rfl⟩

theorem lighter_heap (k : Nat) : lighter.engine.heapAt k = richEngine.heapAt k :=
  Engine.heapAt_congr (show lighter.engine.heap = richEngine.heap from rfl) k

theorem lighter_size : lighter.engine.pqSize = richEngine.pqSize := rfl

theorem lighter_queue : QueueOk p8 lighter.engine := by
  refine ⟨by decide, by decide, fun k hk => (lighter_heap k).trans (rich_queue.vacant k (lighter_size ▸ hk)), fun k h1 h2 => ?_, fun i hi => ?_⟩
  · rw [lighter_heap, (lighter_nodes _).1, (lighter_nodes _).2]
    exact rich_queue.entry_slot k h1 (lighter_size ▸ h2)
  · rw [Engine.queued, (lighter_nodes i).2] at hi
    rw [lighter_heap, (lighter_nodes i).2, lighter_size]
    exact rich_queue.slot_entry i hi

/-- One queued node. -/
def single : State :=
  { State.resetWith p8 with engine := { (Engine.reset p8).putNode 0 ⟨true, true, false, 0x61, 5, 511, 511, 1⟩ with
      nodeCount := 1, heap := (Vector.replicate 511 nil).set 0 0, pqSize := 1 } }

theorem single_queue : QueueOk p8 single.engine := by
  have hn : ∀ i, single.engine.nodeAt i = if i = 0 then ⟨true, true, false, 0x61, 5, 511, 511, 1⟩ else Node.empty := fun i => by
    have := Engine.nodeAt_putNode (Engine.reset p8) (i := 0) (by decide) ⟨true, true, false, 0x61, 5, 511, 511, 1⟩ i
    rwa [Engine.nodeAt_replicate (e := Engine.reset p8) rfl] at this
  refine ⟨by decide, by decide, fun k hk => ?_, fun k h1 h2 => ?_, fun i hi => ?_⟩
  · have hk1 : 1 < k := hk
    by_cases h2 : k - 1 < 511 <;> simp [Engine.heapAt, single, h2, show (0 : Nat) ≠ k - 1 by omega]
  · have : k = 1 := Nat.le_antisymm h2 h1
    subst this
    decide +kernel
  · rw [Engine.queued, hn] at hi
    by_cases h0 : i = 0
    · subst h0; decide +kernel
    · rw [if_neg h0] at hi; exact absurd rfl hi

/-- PQ_MAX itself, and one more; capacity 0, after which a free leaf is there to insert. -/
theorem witness_PqInitEmptiesTheQueue : ParamsOk rich.params ∧ QueueOk rich.params rich.engine ∧ 256 ≤ rich.params.pqMax ∧ rich.params.pqMax < 257 ∧
    0 ≤ rich.params.pqMax ∧ ∃ u, exec (.pqInit 0) rich = .next u ∧ (u.status.errCode = 0 ∧ 5 ≤ 510 ∧
      (u.engine.nodeAt (BitVec.ofNat 9 5)).valid = true ∧ (u.engine.nodeAt (BitVec.ofNat 9 5)).inTree = false) :=
  ⟨p8_ok, rich_queue, by decide, by decide, by decide, exists_next _ (by decide +kernel)⟩

/-- The corner case of R156, on a node that was queued. -/
theorem test_pqInit_zero : field (fun t => (nextOf (exec (.pqInsert 5) t)).map (fun u => u.status.word)) (exec (.pqInit 0) rich) =
    some (some 0x0602) := by decide +kernel

/-- A free leaf; the index above the arena and an empty entry; a node of the tree and a queued one; a full queue. -/
theorem witness_PqInsertSiftsUp : ParamsOk p8 ∧ QueueOk p8 rich.engine ∧ QueueOk p8 full.engine ∧
    (8 ≤ 510 ∧ (rich.engine.nodeAt 8).valid = true ∧ (rich.engine.nodeAt 8).inTree = false ∧ ¬ (rich.engine.nodeAt 8).heapSlot ≠ 0 ∧
      rich.engine.pqSize ≠ rich.engine.pqCap) ∧
    (510 < 511 ∧ (rich.engine.nodeAt 510).valid = false) ∧
    ((rich.engine.nodeAt 4).valid = true ∧ (rich.engine.nodeAt 4).inTree = true) ∧
    ((rich.engine.nodeAt 5).valid = true ∧ (rich.engine.nodeAt 5).heapSlot ≠ 0) ∧
    ((full.engine.nodeAt 8).valid = true ∧ (full.engine.nodeAt 8).inTree = false ∧ ¬ (full.engine.nodeAt 8).heapSlot ≠ 0 ∧
      full.engine.pqSize = full.engine.pqCap) :=
  ⟨p8_ok, rich_queue, full_queue, by decide +kernel⟩

/-- Several entries, one entry, none. -/
theorem witness_PqExtractMinSiftsDown : ParamsOk p8 ∧ (QueueOk p8 rich.engine ∧ 2 ≤ rich.engine.pqSize.toNat) ∧
    (QueueOk p8 single.engine ∧ single.engine.pqSize.toNat = 1) ∧ QueueOk p8 (Engine.reset p8) ∧ (Engine.reset p8).pqSize = 0 :=
  ⟨p8_ok, ⟨rich_queue, by decide⟩, ⟨single_queue, by decide⟩, reset_queue p8 (by decide), rfl⟩

theorem witness_PqExtractMinAnswersAMinimum : ParamsOk rich.params ∧ QueueOk rich.params rich.engine ∧ HeapOrdered rich.engine ∧
    1 ≤ rich.engine.pqSize.toNat := ⟨p8_ok, rich_queue, rich_ordered, by decide⟩

/-- A queued node that stays or moves down, one that moves up, and the operands that are refused. -/
theorem witness_PqChangePrioritySiftsTheNode : ParamsOk p8 ∧
    (QueueOk p8 rich.engine ∧ (rich.engine.nodeAt 6).valid = true ∧ (rich.engine.nodeAt 6).heapSlot.toNat = 1) ∧
    (QueueOk p8 lighter.engine ∧ (lighter.engine.nodeAt 7).valid = true ∧ (lighter.engine.nodeAt 7).heapSlot.toNat = 3 ∧
      lighter.engine.heapWeight 3 < lighter.engine.heapWeight (3 / 2)) ∧
    510 < 511 ∧ (rich.engine.nodeAt 9).valid = false ∧ ((rich.engine.nodeAt 8).valid = true ∧ ¬ (rich.engine.nodeAt 8).heapSlot ≠ 0) :=
  ⟨p8_ok, ⟨rich_queue, by decide +kernel⟩, ⟨lighter_queue, by decide +kernel⟩, by decide +kernel⟩

theorem witness_PqSizeAndReadHeapReadTheQueue : (1 ≤ 3 ∧ 3 ≤ rich.engine.pqSize.toNat ∧ ParamsOk rich.params ∧ QueueOk rich.params rich.engine) ∧
    rich.engine.pqSize.toNat < 4 := ⟨⟨by decide, by decide, p8_ok, rich_queue⟩, by decide⟩

theorem witness_HeapOrderIsKept : Inv rich ∧ HeapOrdered rich.engine ∧ (∀ n, Instr.pqInsert 8 ≠ .nodeSetWeight n) ∧
    ∃ t, exec (.pqInsert 8) rich = .next t ∧ t.status.errCode = 0 :=
  ⟨rich_inv, rich_ordered, fun _ => by simp, exists_next (fun t => t.status.errCode = 0) (by decide +kernel)⟩

theorem witness_ChangePriorityRestoresHeapOrder : Inv (withData rich 1) ∧ HeapOrdered (withData rich 1).engine ∧
    ∃ t, exec (.nodeSetWeight 7) (withData rich 1) = .next t ∧
      ∃ u, exec (.pqChangePriority 7) { t with cmdLatch := 0x34000007, dataLatch := 1, status := { t.status with busy := true } } = .next u ∧
        (u.engine.heapAt 1 = 7 ∧ u.status.errCode = 0) := by
  refine ⟨inv_withData rich_inv 1, rich_ordered, ?_⟩
  obtain ⟨t, ht, h⟩ := exists_next (r := exec (.nodeSetWeight 7) (withData rich 1))
    (fun t => (nextOf (exec (.pqChangePriority 7) { t with cmdLatch := 0x34000007, dataLatch := 1, status := { t.status with busy := true } })).any
      (fun u => decide (u.engine.heapAt 1 = 7 ∧ u.status.errCode = 0)) = true) (by decide +kernel)
  exact ⟨t, ht, exists_next _ h⟩

/-! #### Counters, nodes and the tree -/

theorem witness_FreqCommandsSetAndReadCounters : (withData rich 0xFFFFFFFF).dataLatch.toNat < 2 ^ 32 ∧
    2 ^ 32 ≤ (withData rich 0x100000000).dataLatch.toNat := by decide

theorem witness_FreqCountCountsTheInput : ParamsOk rich.params ∧ 8 ≤ rich.params.dataMax ∧ rich.params.dataMax < 9 := ⟨p8_ok, by decide⟩

theorem witness_NodeNewLeafAllocates : ({ richEngine with nodeCount := 510 } : Engine).nodeCount.toNat < 511 ∧
    ({ richEngine with nodeCount := 511 } : Engine).nodeCount = 511 := by decide

theorem witness_NodeSetWeightSetsOneWeight :
    (8 ≤ 510 ∧ (rich.engine.nodeAt (BitVec.ofNat 9 8)).valid = true ∧ (rich.engine.nodeAt (BitVec.ofNat 9 8)).inTree = false) ∧
    510 < 511 ∧ (rich.engine.nodeAt (BitVec.ofNat 9 510)).valid = false ∧ (rich.engine.nodeAt (BitVec.ofNat 9 4)).inTree = true := by decide +kernel

theorem witness_NodeReadReadsTheField : 510 ≤ 510 ∧ 5 < 6 ∧ 510 < 511 := by decide

/-- The counts of "ABCD". -/
def abcd : State := { State.resetWith p8 with engine := { Engine.reset p8 with
  freq := ((((Vector.replicate 256 0).set 0x41 1).set 0x42 1).set 0x43 1).set 0x44 1 } }

/-- T4: equal counts. -/
theorem test_treeBuild_T4 : field (fun t => (t.engine.res, t.engine.nodeAt 4, t.engine.nodeAt 5, t.engine.nodeAt 6)) (exec .treeBuild abcd) =
    some (6, ⟨true, false, true, 0, 2, 0, 3, 0⟩, ⟨true, false, true, 0, 2, 2, 1, 0⟩, ⟨true, false, true, 0, 4, 4, 5, 0⟩) := by decide +kernel

/-- Counts in a state and the same counts in another one with other parameters; "ABCD"; no count at all. -/
theorem witness_TreeBuildMakesTheTree : (ParamsOk rich.params ∧ rich.engine.present ≠ []) ∧
    (let s' : State := { State.reset with engine := { Engine.reset Params.default with freq := rich.engine.freq } }
     ParamsOk s'.params ∧ s'.engine.freq = rich.engine.freq) ∧
    (ParamsOk abcd.params ∧ ∀ c : Byte, abcd.engine.freqAt c = if 0x41 ≤ c.toNat ∧ c.toNat ≤ 0x44 then 1 else 0) ∧
    ParamsOk Params.default ∧ ∀ c, (Engine.reset Params.default).freqAt c = 0 :=
  ⟨⟨p8_ok, by decide +kernel⟩, ⟨witness_InvariantHoldsAfterReset.1, rfl⟩, ⟨p8_ok, forall_symbols (by decide +kernel)⟩,
    witness_InvariantHoldsAfterReset.1, fun c => by simp [Engine.freqAt, Engine.reset]⟩

/-- The merge of B and C, which are lower nodes of the tree; A outweighs them and joins only later. -/
theorem witness_TreeBuildMergesTheTwoLightest : ParamsOk rich.params ∧ ∃ t, exec .treeBuild rich = .next t ∧ (t.status.errCode = 0 ∧
    (t.engine.nodeAt 3).inTree = true ∧ (t.engine.nodeAt 3).leaf = false ∧ (t.engine.nodeAt 0).inTree = true ∧
    (0 : NodeIdx) ≠ (t.engine.nodeAt 3).left ∧ (0 : NodeIdx) ≠ (t.engine.nodeAt 3).right ∧
    ∀ x ∈ t.engine.nodes.toList.zipIdx, x.1.left = 0 ∨ x.1.right = 0 → 3 < x.2) :=
  ⟨p8_ok, exists_next _ (by decide +kernel)⟩

theorem witness_TreeHeightAnswersTheHeight : TreeIs rich.engine richTree := rich_tree

/-- A tree of one leaf beside scratch leaves. -/
def lone : State := { rich with engine := { richEngine with
  nodes := (Vector.replicate 511 Node.empty).set 0 ⟨true, true, true, 0x41, 4, 511, 511, 0⟩, nodeCount := 1, root := 0,
  heap := Vector.replicate 511 nil, pqSize := 0, bbTotal := 4, bbMem := [] } }

theorem lone_tree : TreeIs lone.engine (.leaf 0) := by
  refine ⟨by decide, by decide +kernel, by decide, fun i => ?_, by decide⟩
  by_cases h0 : i = 0
  · subst h0; decide +kernel
  · have : (0 : Nat) ≠ i.toNat := fun h => h0 (BitVec.eq_of_toNat_eq h.symm)
    by_cases h2 : i.toNat < 511 <;> simpa [Engine.nodeAt, lone, h2, this, Shape.indices, Node.empty] using h0

theorem witness_TreeFreeReleasesTheTree : TreeIs rich.engine richTree ∧ TreeIs lone.engine (.leaf 0) := ⟨rich_tree, lone_tree⟩

theorem witness_TreeCommandsFailWithoutATree : State.reset.engine.root = nil := rfl

/-! #### The map -/

/-- A tree of height `n`: leaves 0 .. n, and internal node n + 1 + j over leaf j + 1 and what lies below. -/
def chainNode (n i : Nat) : Node :=
  if i ≤ n then ⟨true, true, true, BitVec.ofNat 8 i, 0, 511, 511, 0⟩
  else if i ≤ 2 * n then ⟨true, false, true, 0, 0, BitVec.ofNat 9 (i - n), if i = n + 1 then 0 else BitVec.ofNat 9 (i - 1), 0⟩
  else Node.empty

def chainEngine (n : Nat) : Engine :=
  { Engine.reset p8 with nodes := ⟨((List.range 511).map (chainNode n)).toArray, by simp⟩, nodeCount := BitVec.ofNat 10 (2 * n + 1), root := BitVec.ofNat 9 (2 * n) }

def chainShape (n : Nat) : Nat → Shape
  | 0 => .leaf 0
  | k + 1 => .branch (BitVec.ofNat 9 (n + 1 + k)) (.leaf (BitVec.ofNat 9 (k + 1))) (chainShape n k)

theorem chain_node (n : Nat) (hn : n ≤ 255) (i : NodeIdx) : (chainEngine n).nodeAt i = chainNode n i.toNat := by
  by_cases h : i.toNat < 511
  · simp [Engine.nodeAt, chainEngine, h]
  · simp [Engine.nodeAt, chainEngine, h, chainNode, show ¬ i.toNat ≤ n by omega, show ¬ i.toNat ≤ 2 * n by omega]

theorem chain_inTree (n i : Nat) : (chainNode n i).inTree = true ↔ i ≤ 2 * n := by
  unfold chainNode
  split
  · simp; omega
  · split
    · simpa
    · simp [Node.empty]; omega

theorem chain_tree {n : Nat} (hn : n ≤ 255) (hr : (chainShape n n).root = (chainEngine n).root) (hf : (chainShape n n).fits (chainEngine n) = true)
    (hd : (chainShape n n).indices.Nodup) (hs : ((chainShape n n).leaves.map (fun i => ((chainEngine n).nodeAt i).symbol)).Nodup)
    (hm : ∀ m, m < 2 * n + 1 → BitVec.ofNat 9 m ∈ (chainShape n n).indices) (hl : (chainShape n n).indices.all (fun j => decide (j.toNat < 2 * n + 1)) = true) :
    TreeIs (chainEngine n) (chainShape n n) := by
  refine ⟨hr, hf, hd, fun i => ?_, hs⟩
  rw [chain_node n hn, chain_inTree]
  constructor
  · intro h
    have := hm i.toNat (by omega)
    rwa [BitVec.ofNat_toNat, BitVec.setWidth_eq] at this
  · intro h
    have := List.all_eq_true.mp hl i h
    simp only [decide_eq_true_eq] at this
    omega

/-- Height 64 is the last that fits CODE_W; height 65 is the first that does not. -/
theorem witness_MapBuildRecordsThePaths :
    (TreeIs rich.engine richTree ∧ richTree.height ≤ 64) ∧ (TreeIs lone.engine (.leaf 0) ∧ (Shape.leaf 0).height ≤ 64) ∧
    (TreeIs (chainEngine 64) (chainShape 64 64) ∧ (chainShape 64 64).height ≤ 64) ∧
    (TreeIs (chainEngine 65) (chainShape 65 65) ∧ 64 < (chainShape 65 65).height) := by
  refine ⟨⟨rich_tree, by decide⟩, ⟨lone_tree, by decide⟩, ⟨chain_tree (by decide) ?_ ?_ ?_ ?_ ?_ ?_, ?_⟩, ⟨chain_tree (by decide) ?_ ?_ ?_ ?_ ?_ ?_, ?_⟩⟩
  all_goals decide +kernel

theorem test_mapBuild_too_deep : statusOf (exec .mapBuild { rich with engine := chainEngine 65 }) = some 0x0702 ∧
    resOf (exec .mapBuild { rich with engine := chainEngine 64 }) = some 65 := by decide +kernel

theorem witness_MapBuildIsPrefixFree : Inv rich ∧ ∃ t, exec .mapBuild rich = .next t ∧ t.status.errCode = 0 :=
  ⟨rich_inv, exists_next (fun t => t.status.errCode = 0) (by decide +kernel)⟩

theorem witness_MapGetReadsTheEntry : (rich.engine.mapAt 0x42).valid = true ∧ (rich.engine.mapAt 0x44).valid = false := by decide +kernel

/-! #### The codec -/

/-- Eight bytes 'C' in DATA_MEM and a map that gives 'C' a code of `len` bits. -/
def long (len : Nat) : State :=
  { rich with engine := { richEngine with
      codeMap := (Vector.replicate 256 CodeEntry.absent).set 0x43 ⟨true, 0x55, BitVec.ofNat 7 len⟩
      dataMem := (List.range 8).map (fun a => (a, 0x43)) } }

/-- No byte, the six of "AAABCC", and eight bytes whose 64 bits fill BB_MAX exactly. -/
theorem witness_EncodeWritesTheCodes : ParamsOk p8 ∧
    ∀ x ∈ [(rich, 0), (rich, 6), (long 8, 8)], x.2 ≤ x.1.params.dataMax ∧
      (∀ c ∈ (List.range x.2).map (fun j => x.1.engine.dataMem.read j), (x.1.engine.mapAt c).valid = true) ∧
      ((x.1.engine.stream ((List.range x.2).map (fun j => x.1.engine.dataMem.read j))).length + 7) / 8 ≤ x.1.params.bbMax :=
  ⟨p8_ok, by decide +kernel⟩

theorem witness_EncodeFailsInCheckOrder : rich.params.dataMax < 9 ∧
    (7 ≤ rich.params.dataMax ∧ ∃ c ∈ (List.range 7).map (fun j => rich.engine.dataMem.read j), (rich.engine.mapAt c).valid = false) ∧
    (8 ≤ (long 9).params.dataMax ∧ (∀ c ∈ (List.range 8).map (fun j => (long 9).engine.dataMem.read j), ((long 9).engine.mapAt c).valid = true) ∧
      (long 9).params.bbMax < (((long 9).engine.stream ((List.range 8).map (fun j => (long 9).engine.dataMem.read j))).length + 7) / 8) := by
  decide +kernel

theorem long_buffer (len : Nat) : BufferOk p8 (long len).engine :=
  ⟨rich_buffer.memory, rich_buffer.cursor_le, rich_buffer.cap_ge, rich_buffer.total_le, rich_buffer.cap_le, rich_buffer.tail_zero⟩

/-- 9 bits and a code of 55 fill BB_MAX exactly; a code of 56 does not fit. -/
theorem witness_EncSymAppendsOneCode : ParamsOk p8 ∧ (BufferOk p8 (long 55).engine ∧ ((long 55).engine.mapAt 0x43).valid = true ∧
      ((long 55).engine.bbTotal.toNat + ((long 55).engine.mapAt 0x43).bits.length + 7) / 8 ≤ p8.bbMax) ∧
    (BufferOk p8 rich.engine ∧ (rich.engine.mapAt 0x44).valid = false) ∧
    (BufferOk p8 (long 56).engine ∧ ((long 56).engine.mapAt 0x43).valid = true ∧
      p8.bbMax < ((long 56).engine.bbTotal.toNat + ((long 56).engine.mapAt 0x43).bits.length + 7) / 8) :=
  ⟨p8_ok, ⟨long_buffer 55, by decide +kernel⟩, ⟨rich_buffer, by decide +kernel⟩, ⟨long_buffer 56, by decide +kernel⟩⟩

theorem streamHas_of {e : Engine} {q : Nat} {bits : List Bool} (h : bits = (List.range bits.length).map (fun j => e.bitAt (q + j))) :
    e.streamHas q bits := by
  intro j b hj
  rw [h, List.getElem?_map] at hj
  have hlt : j < bits.length := by
    by_contra hge
    rw [List.getElem?_eq_none (by simpa using hge)] at hj
    simp at hj
  rw [List.getElem?_range hlt] at hj
  simpa using hj

/-- The bits lead from position `q` to the leaf `i`. -/
theorem leads_of {e : Engine} {t : Shape} {q : Nat} {i : NodeIdx} (bits : List Bool) (hm : (i, bits) ∈ t.paths)
    (hs : bits = (List.range bits.length).map (fun j => e.bitAt (q + j))) {q' : Nat} (hq : q' = q + max bits.length 1) : t.leads e q i q' :=
  ⟨bits, hm, streamHas_of hs, hq⟩

theorem rich_decodes : richTree.decodesTo rich.engine [0x41, 0x41, 0x41, 0x42, 0x43, 0x43] 0 9 := by
  refine ⟨0, 1, leads_of [false] (by decide) (by decide) rfl, by decide +kernel, by decide, ?_⟩
  refine ⟨0, 2, leads_of [false] (by decide) (by decide) rfl, by decide +kernel, by decide, ?_⟩
  refine ⟨0, 3, leads_of [false] (by decide) (by decide) rfl, by decide +kernel, by decide, ?_⟩
  refine ⟨1, 5, leads_of [true, false] (by decide) (by decide) rfl, by decide +kernel, by decide, ?_⟩
  refine ⟨2, 7, leads_of [true, true] (by decide) (by decide) rfl, by decide +kernel, by decide, ?_⟩
  refine ⟨2, 9, leads_of [true, true] (by decide) (by decide) rfl, by decide +kernel, by decide, ?_⟩
  rfl

/-- The rich state with an empty bit buffer. -/
def blank : State := { rich with engine := richEngine.freshBuffer 1 }

theorem blank_buffer : BufferOk p8 blank.engine :=
  ⟨by decide, by decide, by decide, by decide, by decide, fun q _ => by simp [Engine.bitAt, blank, Engine.freshBuffer]⟩

theorem blank_tree : TreeIs blank.engine richTree :=
  ⟨rich_tree.root_eq, rich_tree.fits, rich_tree.nodup, rich_tree.all, rich_tree.symbols_nodup⟩

/-- No symbol, the six of the stream, a stream too short for one symbol, and a length above DATA_MAX. -/
theorem witness_DecodeWalksTheStream : ParamsOk p8 ∧ (BufferOk p8 rich.engine ∧ rich.engine.outMem.wf ∧ TreeIs rich.engine richTree) ∧
    richTree.decodesTo rich.engine [] 0 0 ∧ (6 ≤ p8.dataMax ∧ richTree.decodesTo rich.engine [0x41, 0x41, 0x41, 0x42, 0x43, 0x43] 0 9) ∧
    (BufferOk p8 blank.engine ∧ blank.engine.outMem.wf ∧ TreeIs blank.engine richTree ∧ 1 ≤ p8.dataMax ∧
      ¬ ∃ cs q, cs.length = 1 ∧ richTree.decodesTo blank.engine cs 0 q) ∧ p8.dataMax < 9 := by
  refine ⟨p8_ok, ⟨rich_buffer, by decide, rich_tree⟩, rfl, ⟨by decide, rich_decodes⟩,
    ⟨blank_buffer, by decide, blank_tree, by decide, ?_⟩, by decide⟩
  rintro ⟨cs, q, hl, hd⟩
  obtain ⟨c, rfl⟩ := List.length_eq_one_iff.mp hl
  obtain ⟨i, m, ⟨bits, _, _, hm⟩, _, hle, _⟩ := hd
  have h0 : blank.engine.bbTotal.toNat = 0 := rfl
  omega

/-- The walk from position 0, and from the end of the stream. -/
theorem witness_DecSymWalksOneCode : ParamsOk p8 ∧
    (BufferOk p8 rich.engine ∧ TreeIs rich.engine richTree ∧ richTree.leads rich.engine rich.engine.cursor 0 1 ∧ 1 ≤ rich.engine.bbTotal.toNat) ∧
    (BufferOk p8 blank.engine ∧ TreeIs blank.engine richTree ∧
      ∀ i q, richTree.leads blank.engine blank.engine.cursor i q → blank.engine.bbTotal.toNat < q) := by
  refine ⟨p8_ok, ⟨rich_buffer, rich_tree, leads_of [false] (by decide) (by decide) rfl, by decide⟩, blank_buffer, blank_tree, ?_⟩
  rintro i q ⟨bits, _, _, hq⟩
  have h0 : blank.engine.bbTotal.toNat = 0 := rfl
  omega

/-- Between the commands the host stores DATA and the next command is accepted, and a counter changes. -/
def between (s : State) (w : Word32) : State :=
  State.accept { s with data := 7, engine := { s.engine with freq := Vector.replicate 256 9 } } w

theorem between_tree (s : State) (w : Word32) : SameTree s.engine (between s w).engine := ⟨rfl, fun _ _ => rfl⟩

theorem witness_DecodeUndoesEncode : Inv rich ∧ ∃ s₁, exec .mapBuild rich = .next s₁ ∧ s₁.status.errCode = 0 ∧
    ∃ u₁ : State, u₁.params = s₁.params ∧ SameTree s₁.engine u₁.engine ∧ u₁.engine.codeMap = s₁.engine.codeMap ∧
      u₁.engine.dataMem = s₁.engine.dataMem ∧
    ∃ s₂, exec (.encode 6) u₁ = .next s₂ ∧ s₂.status.errCode = 0 ∧
    ∃ u₂ : State, u₂.params = s₂.params ∧ SameTree s₂.engine u₂.engine ∧ u₂.engine.bbMem = s₂.engine.bbMem ∧
      u₂.engine.bbTotal = s₂.engine.bbTotal ∧ u₂.engine.outMem.wf := by
  refine ⟨rich_inv, ?_⟩
  obtain ⟨t, ht, h0, h⟩ := exists_next (r := exec .mapBuild rich)
    (fun t => t.status.errCode = 0 ∧
      (nextOf (exec (.encode 6) (between t 0x70000006))).any (fun u => decide (u.status.errCode = 0 ∧ u.engine.outMem.wf)) = true) (by decide +kernel)
  obtain ⟨u, hu, h1, h2⟩ := exists_next _ h
  exact ⟨t, ht, h0, between t 0x70000006, rfl, between_tree t _, rfl, rfl, u, hu, h1, between u 0x72000006, rfl, between_tree u _, rfl, rfl, h2⟩

/-- The valid entries of the rich map. -/
theorem rich_valid : ∀ c, (richEngine.mapAt c).valid = true → c ∈ [0x41, 0x42, 0x43] := forall_symbols (by decide +kernel)

theorem rich_prefixFree : PrefixFree richEngine := by
  have h : ∀ c ∈ [0x41, 0x42, 0x43], ∀ d ∈ [0x41, 0x42, 0x43], c ≠ d → ¬ (richEngine.mapAt c).bits <+: (richEngine.mapAt d).bits := by
    decide +kernel
  exact fun c d hne hc hd => h c (rich_valid c hc) d (rich_valid d hd) hne

theorem witness_EveryStepKeepsTheMapPrefixFree : Inv (running rich 0x60000000) ∧ PrefixFree (running rich 0x60000000).engine ∧
    ∃ t, step (running rich 0x60000000) = .next t ∧ t.status.errCode = 0 :=
  ⟨inv_running rich_inv _, rich_prefixFree, exists_next (fun t => t.status.errCode = 0) (by decide +kernel)⟩

end Sys2Proof.Machine.Tests
end

section
/-! SUPPORT. Settles what a host access and a command that ends may change (spec/10_state.md R20 to R25): the stores and loads of
the register window, and the frame every command leaves around the engine state. -/

namespace Sys2Proof.Machine

/-! ### The ends of a command -/

/-- Every command but SOFT_RESET and CLR_STICKY runs a rule on the engine state and finishes it (R245). -/
theorem exec_eq_runRule (i : Instr) (s : State) (h1 : i ≠ .softReset) (h2 : i ≠ .clrSticky) :
    ∃ rule, exec i s = s.runRule rule := by
  cases i
  case softReset => exact absurd rfl h1
  case clrSticky => exact absurd rfl h2
  all_goals
    simp only [exec]
    exact ⟨_, rfl⟩

/-- All a rule's end can do to the state: commit an engine state or fail (R245). -/
theorem exec_eq_next {i : Instr} {s t : State} (h1 : i ≠ .softReset) (h2 : i ≠ .clrSticky) (h : exec i s = .next t) :
    (∃ e, t = s.complete e) ∨ ∃ k, t = s.fail k := by
  obtain ⟨rule, hr⟩ := exec_eq_runRule i s h1 h2
  rw [hr] at h
  exact (State.runRule_eq_next h).imp (fun ⟨e, _, ht⟩ => ⟨e, ht⟩) (fun ⟨k, _, ht⟩ => ⟨k, ht⟩)

theorem exec_softReset (s : State) :
    exec .softReset s = .next { s with engine := Engine.reset s.params, status := Status.reset } := rfl

theorem exec_clrSticky (s : State) : exec .clrSticky s = .next { s with status := s.status.cleared } := rfl

/-- Settles O15: a command commits, fails, or is one of the two control commands, and none of these ends writes the host's side. -/
theorem commandsLeaveTheHostSideAlone : Obligations.CommandsLeaveTheHostSideAlone := by
  intro i s t h
  by_cases h1 : i = .softReset
  · subst h1
    rw [exec_softReset] at h
    cases h
    exact ⟨rfl, rfl, rfl, rfl, rfl, rfl, rfl⟩
  by_cases h2 : i = .clrSticky
  · subst h2
    rw [exec_clrSticky] at h
    cases h
    exact ⟨rfl, rfl, rfl, rfl, rfl, rfl, rfl⟩
  rcases exec_eq_next h1 h2 h with ⟨e, rfl⟩ | ⟨k, rfl⟩ <;> simp

/-- Settles O18: completing keeps both sticky bits, failing sets ERR_ANY and keeps CMD_DROPPED. -/
theorem stickyBitsStayUntilCleared : Obligations.StickyBitsStayUntilCleared := by
  intro i s t h2 h1 h
  rcases exec_eq_next h1 h2 h with ⟨e, rfl⟩ | ⟨k, rfl⟩ <;> simp

/-! ### The register window -/

/-- An offset of a register of the window, or a reserved one (R20). -/
theorem windowOffset_cases {off : Nat} (h1 : off < 0x40) (h2 : off % 8 = 0) :
    off = 0x00 ∨ off = 0x08 ∨ off = 0x10 ∨ off = 0x18 ∨ off = 0x20 ∨ off = 0x28 ∨ off = 0x30 ∨ off = 0x38 := by omega

/-- An aligned 64-bit store in the window: CMD takes it as a command, DATA as its value, and every other offset drops it (R20, R68). -/
theorem State.hostStore_register (s : State) {off : Nat} (v : Word64) (hb : s.params.baseAddr % 8 = 0) (h1 : off < 0x40)
    (h2 : off % 8 = 0) :
    s.hostStore .w64 (s.params.baseAddr + off) v =
      .next (if off = 0 then s.storeCmd v else { s with data := if off = 8 then v else s.data }) := by
  rw [State.hostStore, target_register hb h1 h2]
  rcases windowOffset_cases h1 h2 with rfl | rfl | rfl | rfl | rfl | rfl | rfl | rfl <;> rfl

/-- An aligned 64-bit load in the window answers what stands at its offset (R20, R68). -/
theorem State.hostLoad_register (s : State) {off : Nat} (hb : s.params.baseAddr % 8 = 0) (h1 : off < 0x40) (h2 : off % 8 = 0) :
    s.hostLoad .w64 (s.params.baseAddr + off) = .next { s with busOut := some (s.readTarget (registerAt off)) } := by
  rw [State.hostLoad, target_register hb h1 h2]
  rcases windowOffset_cases h1 h2 with rfl | rfl | rfl | rfl | rfl | rfl | rfl | rfl <;> rfl

/-- Settles O7: the store reaches CMD, whose two cases are the acceptance and the drop of R21. -/
theorem cmdStoreIsAcceptedOrDropped : Obligations.CmdStoreIsAcceptedOrDropped := by
  intro s v rest hb hs
  have hstep : step s = .next (State.storeCmd { s with schedule := rest } v) := by
    rw [step_event hs]
    exact State.hostStore_register { s with schedule := rest } (off := 0) v hb (by decide) (by decide)
  have hw : v.extractLsb' 0 32 = BitVec.ofNat 32 v.toNat := by
    apply BitVec.eq_of_toNat_eq
    simp
  rw [hstep]
  rcases State.storeCmd_cases { s with schedule := rest } v with ⟨hbusy, heq⟩ | ⟨hbusy, heq⟩
  · refine ⟨fun _ => ?_, fun h => absurd (h.symm.trans hbusy) (by decide)⟩
    rw [heq, hw]
    rfl
  · refine ⟨fun h => absurd (h.symm.trans hbusy) (by decide), fun _ => ?_⟩
    rw [heq]
    rfl

/-- Settles O8: among the offsets other than CMD only DATA takes a store. -/
theorem otherStoresWriteDataOrNothing : Obligations.OtherStoresWriteDataOrNothing := by
  intro s off v rest hb h1 h2 h0 hs
  rw [step_event hs]
  refine (State.hostStore_register { s with schedule := rest } v hb h1 h2).trans ?_
  rw [if_neg h0]

/-- Settles O9: the load answers the register of its offset, read case by case. -/
theorem loadsAnswerTheRegister : Obligations.LoadsAnswerTheRegister := by
  intro s off rest hb h1 h2 hs
  rw [step_event hs]
  refine (State.hostLoad_register { s with schedule := rest } hb h1 h2).trans ?_
  rcases windowOffset_cases h1 h2 with rfl | rfl | rfl | rfl | rfl | rfl | rfl | rfl <;> rfl

end Sys2Proof.Machine
end

section
/-! SUPPORT. The invariant's part on the engine state: what it depends on, which updates keep it, and that it holds after reset
(spec/10_state.md R36, R43). -/

namespace Sys2Proof.Machine

/-- The invariant's conditions on the engine state, for the parameters `p`. -/
structure EngineOk (p : Params) (e : Engine) : Prop where
  dataMem : MemoryOk p.dataMax e.dataMem
  outMem : MemoryOk p.dataMax e.outMem
  buffer : BufferOk p e
  codeMap : ∀ c, EntryOk (e.mapAt c)
  queue : QueueOk p e
  arena : ArenaOk e
  tree : TreeOk e

theorem Inv.engineOk {s : State} (h : Inv s) : EngineOk s.params s.engine :=
  ⟨h.dataMem, h.outMem, h.buffer, h.codeMap, h.queue, h.arena, h.tree⟩

/-- An update that keeps the parameters keeps the invariant when its STATUS and engine state are in order and it adds no event. -/
theorem Inv.update {s t : State} (h : Inv s) (hp : t.params = s.params) (hst : StatusOk t.status) (he : EngineOk s.params t.engine)
    (hs : t.schedule ⊆ s.schedule) : Inv t where
  params := hp ▸ h.params
  status := hst
  dataMem := hp ▸ he.dataMem
  outMem := hp ▸ he.outMem
  buffer := hp ▸ he.buffer
  codeMap := he.codeMap
  queue := hp ▸ he.queue
  arena := he.arena
  tree := he.tree
  schedule ev hev := hp ▸ h.schedule ev (hs hev)

/-! ### What each part depends on -/

theorem BufferOk.congr {p : Params} {a b : Engine} (h : BufferOk p a) (hm : b.bbMem = a.bbMem) (hc : b.bbCap = a.bbCap)
    (ht : b.bbTotal = a.bbTotal) (hcur : b.cursor ≤ a.bbTotal.toNat) : BufferOk p b where
  memory := hm ▸ h.memory
  cursor_le := ht ▸ hcur
  cap_ge := hc ▸ h.cap_ge
  total_le := by rw [ht, hc]; exact h.total_le
  cap_le := hc ▸ h.cap_le
  tail_zero q hq := by rw [Engine.bitAt_congr hm]; exact h.tail_zero q (ht ▸ hq)

/-- The queue depends on the heap, its bounds, and the slots and valid bits of the nodes. -/
theorem QueueOk.congr {p : Params} {a b : Engine} (h : QueueOk p a) (hh : b.heap = a.heap) (hs : b.pqSize = a.pqSize)
    (hc : b.pqCap = a.pqCap) (hslot : ∀ i, (b.nodeAt i).heapSlot = (a.nodeAt i).heapSlot)
    (hv : ∀ i, a.queued i → (b.nodeAt i).valid = (a.nodeAt i).valid) : QueueOk p b where
  size_le := by rw [hs, hc]; exact h.size_le
  cap_le := hc ▸ h.cap_le
  vacant k hk := by rw [Engine.heapAt_congr hh]; exact h.vacant k (hs ▸ hk)
  entry_slot k h1 h2 := by
    rw [hs] at h2
    rw [Engine.heapAt_congr hh, hslot, hv _ ((h.queued_iff _).mpr ⟨k, h1, h2, rfl⟩)]
    exact h.entry_slot k h1 h2
  slot_entry i hi := by
    rw [Engine.queued, hslot] at hi
    rw [hslot, hs, Engine.heapAt_congr hh]
    exact h.slot_entry i hi

theorem ArenaOk.congr {a b : Engine} (h : ArenaOk a) (hn : b.nodes = a.nodes) (hc : b.nodeCount = a.nodeCount) : ArenaOk b := by
  have hat := Engine.nodeAt_congr hn
  refine ⟨hc ▸ h.count_le, ?_, ?_, ?_, ?_⟩ <;> simp only [Engine.queued, hat, hc]
  · exact h.unallocated
  · exact h.freed
  · exact h.scratch
  · exact h.queued_scratch

/-- Whether a tree fits does not depend on the slots of its nodes. -/
theorem Shape.fits_congr_slots {a b : Engine} {t : Shape}
    (h : ∀ i ∈ t.indices, b.nodeAt i = { a.nodeAt i with heapSlot := (b.nodeAt i).heapSlot }) : t.fits b = t.fits a := by
  induction t with
  | leaf i => rw [Shape.fits, Shape.fits, h i (by simp [Shape.indices])]
  | branch i l r ihl ihr =>
    have hl : ∀ j ∈ l.indices, b.nodeAt j = { a.nodeAt j with heapSlot := (b.nodeAt j).heapSlot } :=
      fun j hj => h j (by simp [Shape.indices, hj])
    have hr : ∀ j ∈ r.indices, b.nodeAt j = { a.nodeAt j with heapSlot := (b.nodeAt j).heapSlot } :=
      fun j hj => h j (by simp [Shape.indices, hj])
    rw [Shape.fits, Shape.fits, ihl hl, ihr hr, h i (by simp [Shape.indices]), hl _ l.root_mem, hr _ r.root_mem]

/-- A tree stays one when every node keeps its membership and every node of the tree its record but for the slot. -/
theorem TreeIs.congr {a b : Engine} {t : Shape} (h : TreeIs a t) (hr : b.root = a.root)
    (hin : ∀ i, (b.nodeAt i).inTree = (a.nodeAt i).inTree)
    (hn : ∀ i ∈ t.indices, b.nodeAt i = { a.nodeAt i with heapSlot := (b.nodeAt i).heapSlot }) : TreeIs b t where
  root_eq := hr ▸ h.root_eq
  fits := (Shape.fits_congr_slots hn).trans h.fits
  nodup := h.nodup
  all i := by rw [hin]; exact h.all i
  symbols_nodup := by
    have : t.leaves.map (fun i => (b.nodeAt i).symbol) = t.leaves.map (fun i => (a.nodeAt i).symbol) :=
      List.map_congr_left (fun i hi => by rw [hn i (t.leaves_subset i hi)])
    exact this ▸ h.symbols_nodup

theorem TreeOk.congr {a b : Engine} (h : TreeOk a) (hr : b.root = a.root) (hin : ∀ i, (b.nodeAt i).inTree = (a.nodeAt i).inTree)
    (hn : ∀ i, (a.nodeAt i).inTree = true → b.nodeAt i = { a.nodeAt i with heapSlot := (b.nodeAt i).heapSlot }) : TreeOk b := by
  rcases h with ⟨hnil, hnone⟩ | ⟨t, ht⟩
  · exact .inl ⟨hr.trans hnil, fun i => (hin i).trans (hnone i)⟩
  · exact .inr ⟨t, ht.congr hr hin (fun i hi => hn i ((ht.all i).mpr hi))⟩

/-- Where ROOT is not NIL there is a tree (spec/10_state.md R30). -/
theorem TreeOk.exists_tree {e : Engine} (h : TreeOk e) (hr : e.root ≠ nil) : ∃ t, TreeIs e t :=
  h.resolve_left (fun hnone => hr hnone.1)

/-- A queued node is allocated. -/
theorem QueueOk.valid_of_queued {p : Params} {e : Engine} (h : QueueOk p e) {i : NodeIdx} (hi : e.queued i) :
    (e.nodeAt i).valid = true := by
  obtain ⟨k, h1, h2, rfl⟩ := (h.queued_iff i).mp hi
  exact (h.entry_slot k h1 h2).1

theorem not_queued_of_eq_empty {e : Engine} {i : NodeIdx} (h : e.nodeAt i = Node.empty) : ¬ e.queued i := by
  simp [Engine.queued, h, Node.empty]

/-- An empty node stays empty when only slots change: it is not allocated, so a queue in order gives it slot 0. -/
theorem QueueOk.empty_of_slots {p : Params} {a b : Engine} {i : NodeIdx} (h : QueueOk p b)
    (hn : b.nodeAt i = { a.nodeAt i with heapSlot := (b.nodeAt i).heapSlot }) (hi : a.nodeAt i = Node.empty) :
    b.nodeAt i = Node.empty := by
  have hslot : (b.nodeAt i).heapSlot = 0 := by
    by_contra hne
    have hv := h.valid_of_queued hne
    rw [hn, hi] at hv
    exact Bool.false_ne_true hv
  rw [hn, hslot, hi]
  rfl

/-- An empty queue is in order. -/
theorem QueueOk.of_empty {p : Params} {e : Engine} (hs : e.pqSize = 0) (hh : ∀ k, e.heapAt k = nil) (hq : ∀ i, ¬ e.queued i)
    (hc : e.pqCap.toNat ≤ p.pqMax) : QueueOk p e where
  size_le := by simp [hs]
  cap_le := hc
  vacant k _ := hh k
  entry_slot k h1 h2 := by
    have : e.pqSize.toNat = 0 := by simp [hs]
    omega
  slot_entry i hi := absurd hi (hq i)

/-- An arena of empty nodes is in order. -/
theorem ArenaOk.of_empty {e : Engine} (hc : e.nodeCount = 0) (hn : ∀ i, e.nodeAt i = Node.empty) : ArenaOk e where
  count_le := by simp [hc]
  unallocated i _ := hn i
  freed i _ := hn i
  scratch i hv := by simp [hn i, Node.empty] at hv
  queued_scratch i hi := absurd hi (not_queued_of_eq_empty (hn i))

theorem TreeOk.of_empty {e : Engine} (hr : e.root = nil) (hn : ∀ i, e.nodeAt i = Node.empty) : TreeOk e :=
  .inl ⟨hr, fun i => by rw [hn i]; rfl⟩

theorem EntryOk.absent : EntryOk CodeEntry.absent := by decide

/-! ### The updates that keep it -/

namespace EngineOk

/-- RES, the counters and the two data memories replaced: nothing else in the invariant reads them. -/
theorem withData {p : Params} {e : Engine} (h : EngineOk p e) (r : Word64) (f : Vector Word32 256) {m n : Memory}
    (hm : MemoryOk p.dataMax m) (hn : MemoryOk p.dataMax n) : EngineOk p { e with res := r, freq := f, dataMem := m, outMem := n } where
  dataMem := hm
  outMem := hn
  buffer := h.buffer.congr rfl rfl rfl h.buffer.cursor_le
  codeMap := h.codeMap
  queue := h.queue.congr rfl rfl rfl (fun _ => rfl) (fun _ _ => rfl)
  arena := h.arena.congr rfl rfl
  tree := h.tree.congr rfl (fun _ => rfl) (fun _ _ => rfl)

theorem setRes {p : Params} {e : Engine} (h : EngineOk p e) (v : Nat) : EngineOk p (e.setRes v) :=
  h.withData (BitVec.ofNat 64 v) e.freq h.dataMem h.outMem

theorem withFreq {p : Params} {e : Engine} (h : EngineOk p e) (f : Vector Word32 256) : EngineOk p { e with freq := f } :=
  h.withData e.res f h.dataMem h.outMem

theorem withMemories {p : Params} {e : Engine} (h : EngineOk p e) {m n : Memory} (hm : MemoryOk p.dataMax m) (hn : MemoryOk p.dataMax n) :
    EngineOk p { e with dataMem := m, outMem := n } := h.withData e.res e.freq hm hn

/-- The bit buffer replaced by one in order. -/
theorem withBuffer {p : Params} {e e' : Engine} (h : EngineOk p e)
    (hf : e' = { e with bbMem := e'.bbMem, bbCap := e'.bbCap, bbTotal := e'.bbTotal, bbByteOff := e'.bbByteOff, bbBitOff := e'.bbBitOff })
    (hb : BufferOk p e') : EngineOk p e' where
  dataMem := by rw [hf]; exact h.dataMem
  outMem := by rw [hf]; exact h.outMem
  buffer := hb
  codeMap := by rw [hf]; exact h.codeMap
  queue := by rw [hf]; exact h.queue.congr rfl rfl rfl (fun _ => rfl) (fun _ _ => rfl)
  arena := by rw [hf]; exact h.arena.congr rfl rfl
  tree := by rw [hf]; exact h.tree.congr rfl (fun _ => rfl) (fun _ _ => rfl)

/-- The cursor moved to a position of the stream (spec/41_bitbuffer.md R125). -/
theorem setCursor {p : Params} {e : Engine} (hp : ParamsOk p) (h : EngineOk p e) {q : Nat} (hq : q ≤ e.bbTotal.toNat) :
    EngineOk p (e.setCursor q) := by
  have hlt : q / 8 < 65536 := by
    have h1 := h.buffer.total_le
    have h2 := h.buffer.cap_le
    have h3 := hp.bbMax_le
    unfold ceil8 at h1
    omega
  exact h.withBuffer rfl (h.buffer.congr rfl rfl rfl (by rw [Engine.cursor_setCursor _ hlt]; exact hq))

/-- The map replaced by one whose entries are in order. -/
theorem withCodeMap {p : Params} {e e' : Engine} (h : EngineOk p e) (hf : e' = { e with codeMap := e'.codeMap })
    (hc : ∀ c, EntryOk (e'.mapAt c)) : EngineOk p e' where
  dataMem := by rw [hf]; exact h.dataMem
  outMem := by rw [hf]; exact h.outMem
  buffer := by rw [hf]; exact h.buffer.congr rfl rfl rfl h.buffer.cursor_le
  codeMap := hc
  queue := by rw [hf]; exact h.queue.congr rfl rfl rfl (fun _ => rfl) (fun _ _ => rfl)
  arena := by rw [hf]; exact h.arena.congr rfl rfl
  tree := by rw [hf]; exact h.tree.congr rfl (fun _ => rfl) (fun _ _ => rfl)

/-- The nodes, the queue and the tree replaced by ones in order. -/
theorem withArena {p : Params} {e e' : Engine} (h : EngineOk p e)
    (hf : e' = { e with nodes := e'.nodes, nodeCount := e'.nodeCount, root := e'.root, heap := e'.heap, pqSize := e'.pqSize, pqCap := e'.pqCap })
    (hq : QueueOk p e') (ha : ArenaOk e') (ht : TreeOk e') : EngineOk p e' where
  dataMem := by rw [hf]; exact h.dataMem
  outMem := by rw [hf]; exact h.outMem
  buffer := by rw [hf]; exact h.buffer.congr rfl rfl rfl h.buffer.cursor_le
  codeMap := by rw [hf]; exact h.codeMap
  queue := hq
  arena := ha
  tree := ht

/-- The queue replaced by one in order that changes no node but for its slot and queues no node of the tree. -/
theorem requeue {p : Params} {e e' : Engine} (h : EngineOk p e)
    (hf : e' = { e with nodes := e'.nodes, heap := e'.heap, pqSize := e'.pqSize, pqCap := e'.pqCap }) (hq : QueueOk p e')
    (hn : ∀ i, e'.nodeAt i = { e.nodeAt i with heapSlot := (e'.nodeAt i).heapSlot })
    (hnew : ∀ i, e'.queued i → (e.nodeAt i).inTree = false) : EngineOk p e' := by
  have hempty : ∀ i, e.nodeAt i = Node.empty → e'.nodeAt i = Node.empty := fun i => hq.empty_of_slots (hn i)
  have hcount : e'.nodeCount = e.nodeCount := by rw [hf]
  have hin : ∀ i, (e'.nodeAt i).inTree = (e.nodeAt i).inTree := fun i => by rw [hn]
  refine h.withArena (hf.trans (by rw [hf])) hq ⟨hcount ▸ h.arena.count_le, ?_, ?_, ?_, ?_⟩ (h.tree.congr (by rw [hf]) hin (fun i _ => hn i))
  · exact fun i hi => hempty i (h.arena.unallocated i (hcount ▸ hi))
  · exact fun i hi => hempty i (h.arena.freed i (by rw [hn] at hi; exact hi))
  · intro i hv ht
    rw [hn] at hv ht ⊢
    exact h.arena.scratch i hv ht
  · exact fun i hi => (hin i).trans (hnew i hi)

end EngineOk

/-! ### After reset -/

theorem engineReset_heapAt (p : Params) (k : Nat) : (Engine.reset p).heapAt k = nil :=
  (Engine.heapAt_congr (a := Engine.reset p) (b := (Engine.reset p).clearHeap) rfl k).trans (Engine.heapAt_clearHeap _ k)

theorem engineReset_nodeAt (p : Params) (i : NodeIdx) : (Engine.reset p).nodeAt i = Node.empty := Engine.nodeAt_replicate rfl i

theorem engineReset_mapAt (p : Params) (c : Byte) : (Engine.reset p).mapAt c = CodeEntry.absent := by simp [Engine.reset, Engine.mapAt]

/-- The engine state is in order after reset, whatever the legal parameters (R43). -/
theorem engineReset_ok {p : Params} (hp : ParamsOk p) : EngineOk p (Engine.reset p) where
  dataMem := MemoryOk.nil _
  outMem := MemoryOk.nil _
  buffer := ((Engine.reset p).freshBuffer_ok hp (Nat.le_refl 1) (Nat.le_trans hp.dataMax_ge hp.dataMax_le)).1
  codeMap c := by rw [engineReset_mapAt]; exact EntryOk.absent
  queue := QueueOk.of_empty rfl (engineReset_heapAt p) (fun i => not_queued_of_eq_empty (engineReset_nodeAt p i))
    (by rw [Engine.reset, slot_toNat hp.pqMax_le])
  arena := ArenaOk.of_empty rfl (engineReset_nodeAt p)
  tree := TreeOk.of_empty rfl (engineReset_nodeAt p)

theorem statusReset_ok : StatusOk Status.reset := by decide

/-- Settles O12: every part of the reset state is empty. -/
theorem invariantHoldsAfterReset : Obligations.InvariantHoldsAfterReset := by
  intro p hp
  have he := engineReset_ok hp
  exact ⟨hp, statusReset_ok, he.dataMem, he.outMem, he.buffer, he.codeMap, he.queue, he.arena, he.tree, by simp [State.resetWith]⟩

end Sys2Proof.Machine
end

section
/-! SUPPORT. How a command's rule ends from a state of the invariant: with a value that meets a condition, or with an error of the
spec, and never stuck. One lemma per shared procedure, then one per command (spec/60_exceptions.md R243, R245). -/

namespace Sys2Proof.Machine

/-- The run answers a value with the property, or raises an error of the spec; it does not stop with a fault. -/
def Ends {α : Type} (r : Run α) (P : α → Prop) : Prop := (∃ a, r = .ok a ∧ P a) ∨ ∃ k, r = raise k

namespace Ends

variable {α β : Type} {P : α → Prop} {Q : β → Prop}

theorem ok {a : α} (h : P a) : Ends (.ok a) P := .inl ⟨a, rfl, h⟩

theorem raise (k : ErrorKind) : Ends (Machine.raise k) P := .inr ⟨k, rfl⟩

theorem of_ok {r : Run α} {a : α} (hr : r = .ok a) (h : P a) : Ends r P := .inl ⟨a, hr, h⟩

theorem bind {r : Run α} {f : α → Run β} (h : Ends r P) (hf : ∀ a, P a → Ends (f a) Q) : Ends (r >>= f) Q := by
  rcases h with ⟨a, rfl, ha⟩ | ⟨k, rfl⟩
  · exact hf a ha
  · exact raise k

/-- A check of a rule: it raises, or the rule goes on knowing that the check did not apply. -/
theorem check {c : Prop} [Decidable c] {k : ErrorKind} {r : Run α} (h : ¬ c → Ends r P) :
    Ends (if c then Machine.raise k else r) P := by
  by_cases hc : c
  · rw [if_pos hc]; exact raise k
  · rw [if_neg hc]; exact h hc

end Ends

/-- A command from a state of the invariant ends in a next state, and there the invariant holds. -/
def Keeps (r : Result) : Prop := ∃ t, r = .next t ∧ Inv t

theorem StatusOk.completed {st : Status} : StatusOk st.completed := ⟨by simp, fun h => absurd rfl h⟩

theorem StatusOk.failed {st : Status} (k : ErrorKind) : StatusOk (st.failed k) := ⟨k.code_range.2, fun _ => rfl⟩

theorem Inv.complete {s : State} (h : Inv s) {e : Engine} (he : EngineOk s.params e) : Inv (s.complete e) :=
  h.update rfl StatusOk.completed he (List.Subset.refl _)

theorem Inv.fail {s : State} (h : Inv s) (k : ErrorKind) : Inv (s.fail k) :=
  h.update rfl (StatusOk.failed k) h.engineOk (List.Subset.refl _)

/-- A rule that ends in an engine state in order keeps the invariant. -/
theorem Inv.runRule {s : State} (h : Inv s) {rule : Params → Engine → Run Engine}
    (hr : Ends (rule s.params s.engine) (EngineOk s.params)) : Keeps (s.runRule rule) := by
  rcases hr with ⟨e, hok, he⟩ | ⟨k, hraise⟩
  · exact ⟨_, State.runRule_ok hok, h.complete he⟩
  · exact ⟨_, State.runRule_raise hraise, h.fail k⟩

/-! ### Control and data memories -/

theorem execNop_keeps {s : State} (h : Inv s) : Keeps (execNop s) := h.runRule (.ok h.engineOk)

theorem execSoftReset_keeps {s : State} (h : Inv s) : Keeps (execSoftReset s) :=
  ⟨_, rfl, h.update rfl statusReset_ok (engineReset_ok h.params) (List.Subset.refl _)⟩

theorem execClrSticky_keeps {s : State} (h : Inv s) : Keeps (execClrSticky s) :=
  ⟨_, rfl, h.update rfl ⟨by simp, fun hne => absurd rfl hne⟩ h.engineOk (List.Subset.refl _)⟩

theorem execRegRead_keeps {s : State} (h : Inv s) (selector : Nat) : Keeps (execRegRead selector s) := by
  refine h.runRule ?_
  cases hv : s.engine.regValue s.params selector with
  | some v => simpa only [hv] using Ends.ok (h.engineOk.setRes v)
  | none => simpa only [hv] using Ends.raise _

theorem execMemWr_keeps {s : State} (h : Inv s) (byte : Byte) (index : Nat) : Keeps (execMemWr byte index s) :=
  h.runRule <| .check fun hi =>
    have hlt : index < s.params.dataMax := Nat.lt_of_not_le hi
    .of_ok (Engine.memWrite_ok hlt) (h.engineOk.withMemories (h.dataMem.write hlt byte) h.outMem)

/-- Both readers of a byte memory of DATA_MAX bytes change RES alone (spec/46_control.md R230, R231). -/
theorem Engine.loadByte_ends {p : Params} {e : Engine} (h : EngineOk p e) {sp : Space} (hs : spaceSize p sp = p.dataMax) (index : Nat) :
    Ends (e.loadByte p sp index) (EngineOk p) :=
  .check fun hi => by
    rw [Engine.memRead_ok (hs ▸ Nat.lt_of_not_le hi), Run.ok_bind]
    exact .ok (h.setRes _)

theorem execMemRd_keeps {s : State} (h : Inv s) (index : Nat) : Keeps (execMemRd index s) :=
  h.runRule (Engine.loadByte_ends h.engineOk rfl index)

theorem execOutRd_keeps {s : State} (h : Inv s) (index : Nat) : Keeps (execOutRd index s) :=
  h.runRule (Engine.loadByte_ends h.engineOk rfl index)

/-! ### Bit buffer -/

theorem EngineOk.freshBuffer {p : Params} {e : Engine} (hp : ParamsOk p) (h : EngineOk p e) {cap : Nat} (h1 : 1 ≤ cap) (h2 : cap ≤ p.bbMax) :
    EngineOk p (e.freshBuffer cap) := h.withBuffer rfl (e.freshBuffer_ok hp h1 h2).1

/-- `bb_append` fails or leaves a buffer in order (spec/41_bitbuffer.md R119). -/
theorem Engine.bbAppend_ends {p : Params} {e : Engine} (hp : ParamsOk p) (h : EngineOk p e) (v : Word64) (n : Nat) :
    Ends (e.bbAppend p v n) (EngineOk p) := by
  by_cases hn : p.bbMax < ceil8 (e.bbTotal.toNat + n)
  · rw [Engine.bbAppend_raise hn]
    exact .raise _
  · obtain ⟨e', hr, hf, _, _, _, _, _, hb⟩ := Engine.bbAppend_ok hp h.buffer v (Nat.le_of_not_lt hn)
    exact .of_ok hr (h.withBuffer hf hb)

theorem execBbNew_keeps {s : State} (h : Inv s) (capacity : Nat) : Keeps (execBbNew capacity s) :=
  h.runRule <| .check fun hc => .ok <| h.engineOk.freshBuffer h.params (Nat.le_max_right _ _) <|
    Nat.max_le.mpr ⟨Nat.le_of_not_lt hc, Nat.le_trans h.params.dataMax_ge h.params.dataMax_le⟩

theorem execBbWrite_keeps {s : State} (h : Inv s) (width numBits : Nat) : Keeps (execBbWrite width numBits s) :=
  h.runRule <| .check fun _ => .check fun _ => Engine.bbAppend_ends h.params h.engineOk _ _

theorem execBbReadBit_keeps {s : State} (h : Inv s) : Keeps (execBbReadBit s) :=
  h.runRule <| .check fun hc => by
    rw [Engine.streamBit_ok _ (h.buffer.bit_lt (Nat.lt_of_not_le hc)), Run.ok_bind]
    exact .ok (h.engineOk.setRes _)

theorem execBbAdvance_keeps {s : State} (h : Inv s) : Keeps (execBbAdvance s) :=
  h.runRule <| .check fun hc => .ok (h.engineOk.setCursor h.params (Nat.lt_of_not_le hc))

theorem execBbRewind_keeps {s : State} (h : Inv s) : Keeps (execBbRewind s) :=
  h.runRule (.ok (h.engineOk.setCursor h.params (q := 0) (Nat.zero_le _)))

theorem execBbSizeBits_keeps {s : State} (h : Inv s) : Keeps (execBbSizeBits s) := h.runRule (.ok (h.engineOk.setRes _))

theorem execBbByteOffset_keeps {s : State} (h : Inv s) : Keeps (execBbByteOffset s) := h.runRule (.ok (h.engineOk.setRes _))

theorem execBbBitOffset_keeps {s : State} (h : Inv s) : Keeps (execBbBitOffset s) := h.runRule (.ok (h.engineOk.setRes _))

theorem execBbGetByte_keeps {s : State} (h : Inv s) (index : Nat) : Keeps (execBbGetByte index s) :=
  h.runRule <| .check fun hc => by
    have hlt : index < s.params.bbMax := Nat.lt_of_lt_of_le (Nat.lt_of_not_le hc) h.buffer.cap_le
    rw [Engine.memRead_ok (sp := .bbMem) hlt, Run.ok_bind]
    exact .ok (h.engineOk.setRes _)

/-! ### Priority queue -/

/-- The check of an operand that names a node: it raises, or the rule goes on with an allocated node (spec/42_priority_queue.md R157). -/
theorem Engine.validNode_ends {α : Type} {e : Engine} {node : Nat} {f : Node → Run α} {P : α → Prop}
    (h : node ≤ 510 → (e.nodeAt (BitVec.ofNat 9 node)).valid = true → Ends (f (e.nodeAt (BitVec.ofNat 9 node))) P) :
    Ends (e.validNode node >>= f) P := by
  rcases e.validNode_cases node with ⟨_, hr⟩ | ⟨hle, hv, hr⟩
  · rw [hr]; exact .raise _
  · rw [hr]; exact h hle hv

theorem Node.withSlot_zero {n : Node} (h : n.heapSlot = 0) : n.withSlot 0 = n := by
  rw [Node.withSlot, show BitVec.ofNat 9 0 = n.heapSlot from h.symm]

theorem Node.eq_of_eq_withSlot {m n : Node} {k : Nat} (h : m = n.withSlot k) : m = { n with heapSlot := m.heapSlot } := by
  rw [h]
  rfl

theorem execPqInit_keeps {s : State} (h : Inv s) (capacity : Nat) : Keeps (execPqInit capacity s) := by
  refine h.runRule (.check fun hc => ?_)
  have hcap : (BitVec.ofNat 9 capacity).toNat = capacity := slot_toNat (Nat.le_trans (Nat.le_of_not_lt hc) h.params.pqMax_le)
  obtain ⟨e, hr, hf, hin, hout⟩ := Engine.clearSlots_ok h.params.pqMax_le h.queue.entries
    (Nat.le_trans h.queue.size_le h.queue.cap_le) (Nat.le_refl _)
  rw [hr, Run.ok_bind]
  have hslots : ∀ i, e.nodeAt i = (s.engine.nodeAt i).withSlot 0 := by
    intro i
    by_cases hi : s.engine.inHeap i
    · exact hin i hi
    · have hslot : (s.engine.nodeAt i).heapSlot = 0 := by
        by_contra hne
        exact hi ((h.queue.queued_iff i).mp hne)
      rw [hout i hi, Node.withSlot_zero hslot]
  have hfree : ∀ i, ¬ e.queued i := fun i hi => hi (by rw [hslots]; rfl)
  refine .ok (h.engineOk.requeue (by rw [hf]; rfl) (QueueOk.of_empty rfl (Engine.heapAt_clearHeap e) hfree ?_) ?_ ?_)
  · exact hcap.trans_le (Nat.le_of_not_lt hc)
  · exact fun i => Node.eq_of_eq_withSlot (hslots i)
  · exact fun i hi => absurd hi (hfree i)

theorem execPqInsert_keeps {s : State} (h : Inv s) (node : Nat) : Keeps (execPqInsert node s) := by
  refine h.runRule (Engine.validNode_ends fun _ hv => .check fun htree => .check fun hslot => .check fun hfull => ?_)
  have hroom : s.engine.pqSize.toNat < s.engine.pqCap.toNat :=
    Nat.lt_of_le_of_ne h.queue.size_le (fun heq => hfull (BitVec.eq_of_toNat_eq heq))
  obtain ⟨e, m, hr, hf, _, hq, hn, hqueued, _⟩ := Engine.enqueue_ok h.params.pqMax_le h.queue hv hslot hroom
  refine .of_ok hr (h.engineOk.requeue (hf.trans (by rw [hf])) hq hn fun i hi => ?_)
  rcases (hqueued i).mp hi with hold | rfl
  · exact h.arena.queued_scratch i hold
  · simpa using htree

theorem execPqExtractMin_keeps {s : State} (h : Inv s) : Keeps (execPqExtractMin s) := by
  refine h.runRule (.check fun hne => ?_)
  have hpos : 1 ≤ s.engine.pqSize.toNat := Nat.one_le_iff_ne_zero.mpr (fun h0 => hne (BitVec.eq_of_toNat_eq h0))
  obtain ⟨e, hr, hf, _, hq, hn, hqueued, _⟩ := Engine.dequeue_ok h.params.pqMax_le h.queue hpos
  rw [hr, Run.ok_bind]
  exact .ok (EngineOk.setRes (h.engineOk.requeue (hf.trans (by rw [hf])) hq hn
    fun i hi => h.arena.queued_scratch i ((hqueued i).mp hi).1) _)

theorem execPqSize_keeps {s : State} (h : Inv s) : Keeps (execPqSize s) := h.runRule (.ok (h.engineOk.setRes _))

/-- Sifting from a state in order leaves one in order. -/
theorem EngineOk.moved {p : Params} {a b : Engine} (h : EngineOk p a) (hm : Moved a b) (hb : EntriesOk b) : EngineOk p b := by
  have hq : QueueOk p b := QueueOk.of_moved hm hb h.queue.size_le h.queue.cap_le h.queue.vacant (fun i => (h.queue.queued_iff i).mp)
  refine h.requeue (hm.frame.trans (by rw [hm.frame])) hq hm.nodes fun i hi => ?_
  exact h.arena.queued_scratch i ((h.queue.queued_iff i).mpr ((hm.entries i).mp ((hq.queued_iff i).mp hi)))

/-- Sifting a heap entry up or down ends (spec/42_priority_queue.md R161). -/
theorem Engine.reposition_ends {p : Params} {e : Engine} (hp : ParamsOk p) (h : EngineOk p e) {k : Nat} (h1 : 1 ≤ k)
    (h2 : k ≤ e.pqSize.toNat) : Ends (e.reposition p k) (EngineOk p) := by
  have he := h.queue.entries
  have hs := Nat.le_trans h.queue.size_le h.queue.cap_le
  have sift : ∀ o : Ordering, Ends (if o = .gt then e.siftUp p k else e.siftDown p k) (EngineOk p) := by
    intro o
    by_cases hgt : o = .gt
    · obtain ⟨e', m, hr, hm, he', _⟩ := Engine.siftUp_ok hp.pqMax_le he hs h1 h2
      rw [if_pos hgt]
      exact .of_ok hr (h.moved hm he')
    · obtain ⟨e', m, hr, hm, he', _⟩ := Engine.siftDown_ok hp.pqMax_le he hs h1 h2
      rw [if_neg hgt]
      exact .of_ok hr (h.moved hm he')
  rw [Engine.reposition]
  by_cases hk : 1 < k
  · rw [if_pos hk, Engine.cmpHeap_ok he hp.pqMax_le hs (by omega) (by omega) h1 h2]
    exact sift _
  · rw [if_neg hk]
    exact sift .eq

theorem execPqChangePriority_keeps {s : State} (h : Inv s) (node : Nat) : Keeps (execPqChangePriority node s) := by
  refine h.runRule (Engine.validNode_ends fun _ _ => .check fun hslot => ?_)
  have hpos : 1 ≤ (s.engine.nodeAt (BitVec.ofNat 9 node)).heapSlot.toNat :=
    Nat.one_le_iff_ne_zero.mpr (fun h0 => hslot (BitVec.eq_of_toNat_eq h0))
  exact Engine.reposition_ends h.params h.engineOk hpos (h.queue.slot_entry _ hslot).1

theorem execPqReadHeap_keeps {s : State} (h : Inv s) (heapIndex : Nat) : Keeps (execPqReadHeap heapIndex s) :=
  h.runRule <| .check fun hk => by
    have hle := Nat.le_trans h.queue.size_le h.queue.cap_le
    rw [Engine.readHeap_ok _ (by omega) (by omega) h.params.pqMax_le, Run.ok_bind]
    exact .ok (h.engineOk.setRes _)

/-! ### Frequency table -/

theorem execFreqClear_keeps {s : State} (h : Inv s) : Keeps (execFreqClear s) := h.runRule (.ok (h.engineOk.withFreq _))

theorem execFreqSet_keeps {s : State} (h : Inv s) (symbol : Byte) : Keeps (execFreqSet symbol s) :=
  h.runRule (.check fun _ => .ok (h.engineOk.withFreq _))

theorem execFreqGet_keeps {s : State} (h : Inv s) (symbol : Byte) : Keeps (execFreqGet symbol s) :=
  h.runRule (.ok (h.engineOk.setRes _))

theorem EngineOk.countBytes {p : Params} {e : Engine} (h : EngineOk p e) (input : List Byte) :
    EngineOk p (input.foldl Engine.countByte e) := by
  induction input generalizing e with
  | nil => exact h
  | cons c cs ih => exact ih (h.withFreq _)

theorem execFreqCount_keeps {s : State} (h : Inv s) (length : Nat) : Keeps (execFreqCount length s) :=
  h.runRule (.check fun _ => .ok (EngineOk.countBytes (h.engineOk.withFreq _) _))

end Sys2Proof.Machine
end

section
/-! SUPPORT. The commands on nodes, on the tree, on the map and on streams keep the invariant (spec/43_tree_builder.md R175 to R183,
spec/44_encoding_map.md R201, spec/45_codec.md R211 to R214). -/

namespace Sys2Proof.Machine

/-! ### Nodes -/

/-- A scratch leaf: what NODE_NEW_LEAF makes and NODE_SET_WEIGHT changes (spec/43_tree_builder.md R175, R176). -/
structure ScratchLeaf (n : Node) : Prop where
  valid : n.valid = true
  inTree : n.inTree = false
  leaf : n.leaf = true
  left : n.left = nil
  right : n.right = nil

/-- A scratch leaf may stand at any allocated index that is not in the tree, with the slot of the node it replaces. -/
theorem EngineOk.putScratch {p : Params} {e e' : Engine} {i : NodeIdx} {n : Node} (h : EngineOk p e)
    (hf : e' = { e with nodes := e'.nodes, nodeCount := e'.nodeCount }) (hat : ∀ j, e'.nodeAt j = if j = i then n else e.nodeAt j)
    (hn : ScratchLeaf n) (hout : (e.nodeAt i).inTree = false) (hslot : n.heapSlot = (e.nodeAt i).heapSlot)
    (hcount : e.nodeCount.toNat ≤ e'.nodeCount.toNat) (hle : e'.nodeCount.toNat ≤ 511) (hi : i.toNat < e'.nodeCount.toNat) :
    EngineOk p e' := by
  have hself : e'.nodeAt i = n := (hat i).trans (if_pos rfl)
  have hother : ∀ j, j ≠ i → e'.nodeAt j = e.nodeAt j := fun j hj => (hat j).trans (if_neg hj)
  have hsame : ∀ j, (e'.nodeAt j).heapSlot = (e.nodeAt j).heapSlot ∧ (e'.nodeAt j).inTree = (e.nodeAt j).inTree := by
    intro j
    by_cases hj : j = i
    · rw [hj, hself]; exact ⟨hslot, hn.inTree.trans hout.symm⟩
    · rw [hother j hj]; exact ⟨rfl, rfl⟩
  refine h.withArena (hf.trans (by rw [hf])) ?_ ⟨hle, fun j hj => ?_, fun j hj => ?_, fun j => ?_, fun j hj => ?_⟩ ?_
  · refine h.queue.congr (by rw [hf]) (by rw [hf]) (by rw [hf]) (fun j => (hsame j).1) (fun j hj => ?_)
    by_cases hji : j = i
    · rw [h.queue.valid_of_queued hj, hji, hself, hn.valid]
    · rw [hother j hji]
  · rw [hother j (by rintro rfl; omega)]
    exact h.arena.unallocated j (hcount.trans hj)
  · by_cases hji : j = i
    · rw [hji, hself, hn.valid] at hj
      exact absurd hj.symm Bool.false_ne_true
    · rw [hother j hji] at hj ⊢
      exact h.arena.freed j hj
  · by_cases hji : j = i
    · rw [hji, hself]
      exact fun _ _ => ⟨hn.leaf, hn.left, hn.right⟩
    · rw [hother j hji]
      exact h.arena.scratch j
  · rw [Engine.queued, (hsame j).1] at hj
    exact (hsame j).2.trans (h.arena.queued_scratch j hj)
  · refine h.tree.congr (by rw [hf]) (fun j => (hsame j).2) (fun j hj => ?_)
    rw [hother j]
    rintro rfl
    exact Bool.false_ne_true (hout.symm.trans hj)

theorem execNodeNewLeaf_keeps {s : State} (h : Inv s) (symbol : Byte) : Keeps (execNodeNewLeaf symbol s) := by
  refine h.runRule ?_
  by_cases hfull : s.engine.nodeCount = 511
  · rw [Engine.nodeAlloc_raise hfull]
    exact .raise _
  have hlt : s.engine.nodeCount.toNat < 511 := Nat.lt_of_le_of_ne h.arena.count_le (fun heq => hfull (BitVec.eq_of_toNat_eq heq))
  obtain ⟨e, hr, hf, hcount, hidx, hat⟩ := Engine.nodeAlloc_ok hlt (Node.newLeaf false symbol s.dataLatch)
  have hold : s.engine.nodeAt (s.engine.nodeCount.setWidth 9) = Node.empty := h.arena.unallocated _ hidx.ge
  have hok : EngineOk s.params e := h.engineOk.putScratch hf hat ⟨rfl, rfl, rfl, rfl, rfl⟩ (by rw [hold]; rfl) (by rw [hold]; rfl)
    (by omega) (by omega) (by omega)
  rw [hr, Run.ok_bind]
  exact .ok (hok.setRes _)

theorem execNodeSetWeight_keeps {s : State} (h : Inv s) (node : Nat) : Keeps (execNodeSetWeight node s) := by
  refine h.runRule (Engine.validNode_ends fun hle hv => .check fun hs => ?_)
  have hout : (s.engine.nodeAt (BitVec.ofNat 9 node)).inTree = false := by simpa using hs
  obtain ⟨hleaf, hleft, hright⟩ := h.arena.scratch _ hv hout
  have hlt : (BitVec.ofNat 9 node).toNat < s.engine.nodeCount.toNat := by
    by_contra hge
    rw [h.arena.unallocated _ (Nat.le_of_not_lt hge)] at hv
    exact Bool.false_ne_true hv
  exact .of_ok (Engine.writeNode_eq_ok.mpr ⟨Nat.lt_succ_of_le hle, rfl⟩) <|
    h.engineOk.putScratch rfl (Engine.nodeAt_putNode _ (Engine.lt_of_valid hv) _) ⟨hv, hout, hleaf, hleft, hright⟩ hout rfl
      (Nat.le_refl _) h.arena.count_le hlt

theorem execNodeRead_keeps {s : State} (h : Inv s) (field node : Nat) : Keeps (execNodeRead field node s) := by
  refine h.runRule (.check fun hle => ?_)
  rw [Engine.readNode_nat _ (show node < 511 by omega), Run.ok_bind]
  cases (s.engine.nodeAt (BitVec.ofNat 9 node)).fieldValue field with
  | some v => exact .ok (h.engineOk.setRes v)
  | none => exact .raise _

/-- Releasing every node at once leaves an empty arena and an empty queue (spec/43_tree_builder.md R178). -/
theorem EngineOk.clearArena {p : Params} {e : Engine} (h : EngineOk p e) : EngineOk p e.clearArena :=
  h.withArena rfl
    (QueueOk.of_empty rfl e.heapAt_clearArena (fun i => not_queued_of_eq_empty (e.nodeAt_clearArena i)) h.queue.cap_le)
    (ArenaOk.of_empty rfl e.nodeAt_clearArena) (TreeOk.of_empty rfl e.nodeAt_clearArena)

theorem execArenaReset_keeps {s : State} (h : Inv s) : Keeps (execArenaReset s) := h.runRule (.ok h.engineOk.clearArena)

/-! ### Tree -/

/-- The height of the tree under ROOT (spec/43_tree_builder.md R170). -/
theorem Engine.rootHeight_ok {e : Engine} {t : Shape} (ht : TreeIs e t) : e.rootHeight = .ok t.height := by
  rw [Engine.rootHeight, ← ht.root_eq]
  exact Engine.height_ok ht.fits ht.height_lt

theorem execTreeHeight_keeps {s : State} (h : Inv s) : Keeps (execTreeHeight s) :=
  h.runRule <| .check fun hr => by
    obtain ⟨t, ht⟩ := h.tree.exists_tree hr
    rw [Engine.rootHeight_ok ht, Run.ok_bind]
    exact .ok (h.engineOk.setRes _)

/-- The tree's nodes released and ROOT cleared: no node of it was queued, so the queue stays (spec/43_tree_builder.md R183). -/
theorem EngineOk.released {p : Params} {e e' : Engine} {t : Shape} (h : EngineOk p e) (ht : TreeIs e t)
    (hf : e' = { e with nodes := e'.nodes }) (hn : ∀ i, e'.nodeAt i = if i ∈ t.indices then Node.empty else e.nodeAt i) :
    EngineOk p { e' with root := nil } := by
  have hkeep : ∀ i, (e.nodeAt i).inTree = false → e'.nodeAt i = e.nodeAt i := fun i hi => by
    rw [hn, if_neg (fun hmem => Bool.false_ne_true (hi.symm.trans ((ht.all i).mpr hmem)))]
  have hgone : ∀ i, (e.nodeAt i).inTree = true → e'.nodeAt i = Node.empty := fun i hi => by
    rw [hn, if_pos ((ht.all i).mp hi)]
  have hcases : ∀ i, e'.nodeAt i = Node.empty ∨ (e.nodeAt i).inTree = false ∧ e'.nodeAt i = e.nodeAt i := by
    intro i
    cases hi : (e.nodeAt i).inTree with
    | true => exact .inl (hgone i hi)
    | false => exact .inr ⟨rfl, hkeep i hi⟩
  have hempty : ∀ i, e.nodeAt i = Node.empty → e'.nodeAt i = Node.empty := fun i hi =>
    (hcases i).elim id (fun hk => hk.2.trans hi)
  have hslot : ∀ i, (e'.nodeAt i).heapSlot = (e.nodeAt i).heapSlot := by
    intro i
    cases hi : (e.nodeAt i).inTree with
    | false => rw [hkeep i hi]
    | true =>
      have : ¬ e.queued i := fun hq => Bool.false_ne_true ((h.arena.queued_scratch i hq).symm.trans hi)
      rw [hgone i hi, not_not.mp this]
      rfl
  have hcount : e'.nodeCount = e.nodeCount := by rw [hf]
  refine h.withArena (by rw [hf]) ?_ ⟨?_, ?_, ?_, ?_, ?_⟩ (.inl ⟨rfl, fun i => ?_⟩)
  · exact h.queue.congr (by rw [hf]) (by rw [hf]) (by rw [hf]) hslot
      (fun i hi => congrArg Node.valid (hkeep i (h.arena.queued_scratch i hi)))
  · exact hcount ▸ h.arena.count_le
  · exact fun i hi => hempty i (h.arena.unallocated i (hcount ▸ hi))
  · exact fun i hi => (hcases i).elim id (fun hk => hempty i (h.arena.freed i (hk.2 ▸ hi)))
  · intro i hv hs
    rcases hcases i with he | ⟨_, hk⟩
    · exact absurd ((congrArg Node.valid he).symm.trans hv) Bool.false_ne_true
    · have := h.arena.scratch i (hk ▸ hv) (hk ▸ hs)
      rwa [← hk] at this
  · intro i hi
    have hq : e.queued i := fun h0 => hi ((hslot i).trans h0)
    have hs := h.arena.queued_scratch i hq
    exact (congrArg Node.inTree (hkeep i hs)).trans hs
  · rcases hcases i with he | ⟨hs, hk⟩
    · exact (congrArg Node.inTree he).trans rfl
    · exact (congrArg Node.inTree hk).trans hs

theorem execTreeFree_keeps {s : State} (h : Inv s) : Keeps (execTreeFree s) :=
  h.runRule <| .check fun hr => by
    obtain ⟨t, ht⟩ := h.tree.exists_tree hr
    obtain ⟨e, hrel, hf, hn⟩ := Engine.release_ok ht.fits ht.nodup ht.height_lt
    rw [← ht.root_eq, hrel, Run.ok_bind]
    exact .ok (h.engineOk.released ht hf hn)

/-! ### Encoding map -/

/-- A code of `k` bits with a path behind it is below 2 to the number of bits, up to 64 (spec/44_encoding_map.md R204 item 3). -/
theorem pathWord_lt (bits : List Bool) {c : Word64} {k : Nat} (hc : c.toNat < 2 ^ k) (hk : k + bits.length ≤ 64) :
    (pathWord c bits).toNat < 2 ^ (k + bits.length) := by
  induction bits generalizing c k with
  | nil => exact hc
  | cons b bits ih =>
    rw [List.length_cons] at hk ⊢
    have hshift : (c <<< 1).toNat < 2 ^ (k + 1) := by
      rw [BitVec.toNat_shiftLeft, Nat.shiftLeft_eq]
      exact Nat.lt_of_le_of_lt (Nat.mod_le _ _) (by rw [Nat.pow_succ]; omega)
    have hnext : (if b then c <<< 1 ||| 1 else c <<< 1).toNat < 2 ^ (k + 1) := by
      cases b with
      | false => exact hshift
      | true =>
        rw [if_pos rfl, BitVec.toNat_or]
        exact Nat.or_lt_two_pow hshift (Nat.one_lt_two_pow (Nat.succ_ne_zero k))
    have := ih hnext (by omega)
    rwa [Nat.add_right_comm, Nat.add_assoc] at this

theorem EntryOk.present {c : Word64} {len : Nat} (h1 : 1 ≤ len) (h2 : len ≤ 64) (hc : c.toNat < 2 ^ len) :
    EntryOk (CodeEntry.present c len) := by
  have hlen : (BitVec.ofNat 7 len).toNat = len := by
    rw [BitVec.toNat_ofNat, Nat.mod_eq_of_lt]
    omega
  simp only [EntryOk, CodeEntry.present, if_true, hlen]
  exact ⟨h1, h2, hc⟩

/-- A tree of more than one leaf has no empty path. -/
theorem Shape.paths_length_pos {i j : NodeIdx} {l r : Shape} {bits : List Bool} (h : (j, bits) ∈ (Shape.branch i l r).paths) :
    1 ≤ bits.length := by
  simp only [Shape.paths, List.mem_append, List.mem_map, Prod.mk.injEq] at h
  rcases h with ⟨x, _, _, rfl⟩ | ⟨x, _, _, rfl⟩ <;> exact Nat.le_add_left 1 _

/-- Every leaf is at the end of a path. -/
theorem Shape.exists_path {t : Shape} {i : NodeIdx} (h : i ∈ t.leaves) : ∃ bits, (i, bits) ∈ t.paths := by
  rw [← t.paths_leaves, List.mem_map] at h
  obtain ⟨⟨_, bits⟩, hmem, rfl⟩ := h
  exact ⟨bits, hmem⟩

/-- MAP_BUILD's filling ends in a map whose entries are in order, for a tree no higher than 64 (spec/44_encoding_map.md R200, R201). -/
theorem Engine.fillMap_ends {p : Params} {e : Engine} {t : Shape} (h : EngineOk p e) (ht : TreeIs e t)
    (hh : (e.nodeAt e.root).leaf = true ∨ t.height ≤ 64) : Ends (e.fillMap (e.nodeAt e.root)) (EngineOk p) := by
  rw [Engine.fillMap]
  cases t with
  | leaf i =>
    have hleaf := (Shape.fits_leaf ht.fits).2.1
    rw [(Shape.root_leaf i).symm.trans ht.root_eq] at hleaf
    rw [if_pos hleaf]
    refine .ok (h.withCodeMap rfl fun c => ?_)
    rw [Engine.mapAt_setMap]
    split
    · exact EntryOk.present (Nat.le_refl 1) (by decide) (by decide)
    · rw [Engine.mapAt_clearMap]; exact EntryOk.absent
  | branch i l r =>
    have hleaf := (Shape.fits_branch ht.fits).2.1
    rw [(Shape.root_branch i l r).symm.trans ht.root_eq] at hleaf
    have hheight := hh.resolve_left (fun hl => Bool.false_ne_true (hleaf.symm.trans hl))
    have hfits : (Shape.branch i l r).fits e.clearMap = true := (Shape.fits_congr (a := e) (b := e.clearMap) (fun _ _ => rfl)).trans ht.fits
    obtain ⟨e', hr, hf, hpaths, hothers⟩ := Engine.assign_ok hfits ht.symbols_nodup ht.height_lt 0 0
    rw [hleaf, if_neg Bool.false_ne_true, ← ht.root_eq]
    refine .of_ok hr (h.withCodeMap (hf.trans rfl) fun c => ?_)
    by_cases hc : c ∈ (Shape.branch i l r).leaves.map (fun j => (e.clearMap.nodeAt j).symbol)
    · obtain ⟨j, hj, rfl⟩ := List.mem_map.mp hc
      obtain ⟨bits, hbits⟩ := Shape.exists_path hj
      have hlen : bits.length ≤ 64 := Nat.le_trans (Shape.paths_length hbits) hheight
      rw [hpaths j bits hbits, Nat.zero_add]
      have hlt := pathWord_lt bits (c := 0) (k := 0) (by decide) (by omega)
      rw [Nat.zero_add] at hlt
      exact EntryOk.present (Shape.paths_length_pos hbits) hlen hlt
    · rw [hothers c hc, Engine.mapAt_clearMap]
      exact EntryOk.absent

theorem execMapBuild_keeps {s : State} (h : Inv s) : Keeps (execMapBuild s) :=
  h.runRule <| .check fun hr => by
    obtain ⟨t, ht⟩ := h.tree.exists_tree hr
    have hroot : s.engine.root.toNat < 511 := ht.root_eq ▸ Shape.fits_root_lt ht.fits
    rw [Engine.readNode_ok _ hroot, Run.ok_bind, Engine.rootHeight_ok ht, Run.ok_bind]
    refine .check fun hdeep => (Engine.fillMap_ends h.engineOk ht ?_).bind fun e he => .ok (he.setRes _)
    by_cases hleaf : (s.engine.nodeAt s.engine.root).leaf = true
    · exact .inl hleaf
    · refine .inr (Nat.le_of_not_lt fun hlt => hdeep ?_)
      simp [hleaf, hlt]

theorem execMapGetCode_keeps {s : State} (h : Inv s) (symbol : Byte) : Keeps (execMapGetCode symbol s) :=
  h.runRule (.check fun _ => .ok (h.engineOk.setRes _))

theorem execMapGetLen_keeps {s : State} (h : Inv s) (symbol : Byte) : Keeps (execMapGetLen symbol s) :=
  h.runRule (.check fun _ => .ok (h.engineOk.setRes _))

/-! ### Codec -/

/-- Appending one symbol's code after another fails or leaves a buffer in order (spec/45_codec.md R211). -/
theorem Engine.appendCodes_ends {p : Params} {e : Engine} (hp : ParamsOk p) (h : EngineOk p e) (input : List Byte) :
    Ends (input.foldlM (Engine.appendCode p) e) (EngineOk p) := by
  induction input generalizing e with
  | nil => exact .ok h
  | cons c cs ih => exact (Engine.bbAppend_ends hp h _ _).bind fun _ he => ih he

theorem execEncode_keeps {s : State} (h : Inv s) (length : Nat) : Keeps (execEncode length s) :=
  h.runRule <| .check fun hlen => .check fun _ => .check fun _ => by
    have hcap : max length 1 ≤ s.params.bbMax := by
      have h1 := h.params.dataMax_ge
      have h2 := h.params.dataMax_le
      omega
    have hfresh := h.engineOk.freshBuffer h.params (Nat.le_max_right length 1) hcap
    exact (Engine.appendCodes_ends h.params hfresh _).bind fun _ he => .ok (he.setRes _)

theorem execEncSym_keeps {s : State} (h : Inv s) (symbol : Byte) : Keeps (execEncSym symbol s) :=
  h.runRule (.check fun _ => Engine.bbAppend_ends h.params h.engineOk _ _)

/-- A walk down the tree ends within the stream or overruns it (spec/45_codec.md R210). -/
theorem Engine.walk_ends {p : Params} {e : Engine} (h : EngineOk p e) (hr : e.root ≠ nil) (q : Nat) :
    Ends (e.walk p q) (fun r => r.2 ≤ e.bbTotal.toNat) := by
  obtain ⟨t, ht⟩ := h.tree.exists_tree hr
  obtain ⟨i, bits, hmem, hbits⟩ := t.exists_leads e q
  rw [Engine.walk_ok h.buffer ht ⟨bits, hmem, hbits, rfl⟩]
  by_cases hle : q + max bits.length 1 ≤ e.bbTotal.toNat
  · rw [if_pos hle]; exact .ok hle
  · rw [if_neg hle]; exact .raise _

/-- DECODE's loop ends with OUT_MEM in order and a position within the stream, or overruns the stream (spec/45_codec.md R213). -/
theorem Engine.decodeLoop_ends {p : Params} (n : Nat) {e : Engine} {j q : Nat} (h : EngineOk p e) (hr : e.root ≠ nil)
    (hj : j + n ≤ p.dataMax) (hq : q ≤ e.bbTotal.toNat) :
    Ends (Engine.decodeLoop p n e j q) (fun r => EngineOk p r.1 ∧ r.2 ≤ r.1.bbTotal.toNat) := by
  induction n generalizing e j q with
  | zero => exact .ok ⟨h, hq⟩
  | succ n ih =>
    refine (Engine.walk_ends h hr q).bind fun r hle => ?_
    have hlt : j < p.dataMax := by omega
    rw [Engine.memWrite_ok (sp := .outMem) hlt, Run.ok_bind]
    exact ih (h.withMemories h.dataMem (h.outMem.write hlt r.1)) hr (by omega) hle

theorem execDecode_keeps {s : State} (h : Inv s) (length : Nat) : Keeps (execDecode length s) :=
  h.runRule <| .check fun hlen => .check fun hr =>
    (Engine.decodeLoop_ends length h.engineOk hr (by omega) (Nat.zero_le _)).bind fun _ he =>
      .ok ((he.1.setCursor h.params he.2).setRes _)

theorem execDecSym_keeps {s : State} (h : Inv s) : Keeps (execDecSym s) :=
  h.runRule <| .check fun hr => (Engine.walk_ends h.engineOk hr _).bind fun _ hle =>
    .ok ((h.engineOk.setCursor h.params hle).setRes _)

end Sys2Proof.Machine
end

section
/-! SUPPORT. TREE_BUILD (spec/43_tree_builder.md R179 to R181): its leaf loop and its merges keep a forest in the arena, with the roots
of its trees in the queue, until one tree is left. -/

namespace Sys2Proof.Machine

/-! ### Counting nodes and leaves -/

/-- A tree in which every internal node has two children has one node less than twice its leaves (R180). -/
theorem Shape.length_indices (t : Shape) : t.indices.length + 1 = 2 * t.leaves.length := by
  induction t with
  | leaf i => rfl
  | branch i l r hl hr =>
    simp only [Shape.indices, Shape.leaves, List.length_cons, List.length_append]
    omega

theorem forest_length_indices (ts : List Shape) :
    (ts.flatMap Shape.indices).length + ts.length = 2 * (ts.flatMap Shape.leaves).length := by
  induction ts with
  | nil => rfl
  | cons t ts ih =>
    have := t.length_indices
    simp only [List.flatMap_cons, List.length_append, List.length_cons]
    omega

theorem forest_length_le_leaves (ts : List Shape) : ts.length ≤ (ts.flatMap Shape.leaves).length := by
  induction ts with
  | nil => exact Nat.le_refl 0
  | cons t ts ih =>
    have := t.length_indices
    simp only [List.flatMap_cons, List.length_append, List.length_cons]
    omega

theorem forest_leaves_subset (ts : List Shape) : ts.flatMap Shape.leaves ⊆ ts.flatMap Shape.indices := by
  intro i hi
  obtain ⟨t, ht, hit⟩ := List.mem_flatMap.mp hi
  exact List.mem_flatMap.mpr ⟨t, ht, t.leaves_subset i hit⟩

/-- There are 256 symbols (spec/00_scope.md R9). -/
theorem distinct_symbols_length_le {l : List Byte} (h : l.Nodup) : l.length ≤ 256 := by
  have := (h.subperm (fun c _ => mem_symbols c)).length_le
  simpa [symbols] using this

/-- Every node of a tree the arena holds is allocated and marked as a tree node. -/
theorem Shape.fits_mem {e : Engine} {t : Shape} (h : t.fits e = true) :
    ∀ i ∈ t.indices, (e.nodeAt i).valid = true ∧ (e.nodeAt i).inTree = true := by
  induction t with
  | leaf i =>
    obtain ⟨hv, _, ht, _⟩ := Shape.fits_leaf h
    simpa [Shape.indices] using ⟨hv, ht⟩
  | branch i l r ihl ihr =>
    obtain ⟨hv, _, ht, _, _, _, _, hl, hr⟩ := Shape.fits_branch h
    intro j hj
    simp only [Shape.indices, List.mem_cons, List.mem_append] at hj
    rcases hj with rfl | hj | hj
    · exact ⟨hv, ht⟩
    · exact ihl hl j hj
    · exact ihr hr j hj

/-! ### The forest -/

/-- The symbols of the leaves of the trees. -/
def Engine.leafSymbols (e : Engine) (ts : List Shape) : List Byte := (ts.flatMap Shape.leaves).map (fun i => (e.nodeAt i).symbol)

theorem Engine.leafSymbols_congr {a b : Engine} {ts : List Shape}
    (h : ∀ i ∈ ts.flatMap Shape.indices, (b.nodeAt i).symbol = (a.nodeAt i).symbol) : b.leafSymbols ts = a.leafSymbols ts :=
  List.map_congr_left (fun i hi => h i (forest_leaves_subset ts hi))

/-- A branch over two trees has their leaves. -/
theorem Engine.leafSymbols_branch (e : Engine) (i : NodeIdx) (a b : Shape) (ts : List Shape) :
    e.leafSymbols (.branch i a b :: ts) = e.leafSymbols (a :: b :: ts) := by
  simp [Engine.leafSymbols, Shape.leaves]

/-- A TREE_BUILD that began at `e₀` has reached `e`: the arena holds the trees `ts` and nothing else, and the queue the roots of
the trees `qs`. -/
structure Building (p : Params) (e₀ e : Engine) (ts qs : List Shape) : Prop where
  frame : e = { e₀ with nodes := e.nodes, nodeCount := e.nodeCount, heap := e.heap, pqSize := e.pqSize }
  cap : e.pqCap.toNat = p.pqMax
  fits : ∀ t ∈ ts, t.fits e = true
  weight : ∀ t ∈ ts, (e.nodeAt t.root).weight.toNat ≤ t.leaves.length * 2 ^ 32
  nodup : (ts.flatMap Shape.indices).Nodup
  symbols_nodup : (e.leafSymbols ts).Nodup
  mem : ∀ i, i ∈ ts.flatMap Shape.indices ↔ i.toNat < e.nodeCount.toNat
  count : e.nodeCount.toNat = (ts.flatMap Shape.indices).length
  empty : ∀ i : NodeIdx, e.nodeCount.toNat ≤ i.toNat → e.nodeAt i = Node.empty
  queue : QueueOk p e
  roots_nodup : (qs.map Shape.root).Nodup
  queued : ∀ i, e.queued i ↔ i ∈ qs.map Shape.root
  size : e.pqSize.toNat = qs.length

namespace Building

variable {p : Params} {e₀ e e' : Engine} {ts ts' qs qs' : List Shape}

/-- The order of the trees does not matter. -/
theorem perm (h : Building p e₀ e ts qs) (ht : ts.Perm ts') (hq : qs.Perm qs') : Building p e₀ e ts' qs' where
  frame := h.frame
  cap := h.cap
  fits t hmem := h.fits t (ht.mem_iff.mpr hmem)
  weight t hmem := h.weight t (ht.mem_iff.mpr hmem)
  nodup := (ht.flatMap_right _).nodup_iff.mp h.nodup
  symbols_nodup := ((ht.flatMap_right _).map _).nodup_iff.mp h.symbols_nodup
  mem i := (ht.flatMap_right _).mem_iff.symm.trans (h.mem i)
  count := h.count.trans (ht.flatMap_right _).length_eq
  empty := h.empty
  queue := h.queue
  roots_nodup := (hq.map _).nodup_iff.mp h.roots_nodup
  queued i := (h.queued i).trans (hq.map _).mem_iff
  size := h.size.trans hq.length_eq

theorem leaves_length_le (h : Building p e₀ e ts qs) : (ts.flatMap Shape.leaves).length ≤ 256 := by
  simpa [Engine.leafSymbols] using distinct_symbols_length_le h.symbols_nodup

/-- The next index to be allocated is in no tree. -/
theorem ne_of_mem (h : Building p e₀ e ts qs) {i j : NodeIdx} (hi : i.toNat = e.nodeCount.toNat)
    (hj : j ∈ ts.flatMap Shape.indices) : j ≠ i := by
  rintro rfl
  exact Nat.ne_of_lt ((h.mem _).mp hj) hi

/-- A step that moves the queue changes no node but for its slot, so the forest stays. -/
theorem requeue (h : Building p e₀ e ts qs) (hf : e' = { e with nodes := e'.nodes, heap := e'.heap, pqSize := e'.pqSize })
    (hn : ∀ i, e'.nodeAt i = { e.nodeAt i with heapSlot := (e'.nodeAt i).heapSlot }) (hq : QueueOk p e')
    (hnd : (qs'.map Shape.root).Nodup) (hqueued : ∀ i, e'.queued i ↔ i ∈ qs'.map Shape.root)
    (hsize : e'.pqSize.toNat = qs'.length) : Building p e₀ e' ts qs' where
  frame := by
    have := congrArg (fun x : Engine => ({ x with nodes := e'.nodes, heap := e'.heap, pqSize := e'.pqSize } : Engine)) h.frame
    have hcount : e'.nodeCount = e.nodeCount := by rw [hf]
    rw [hcount]
    exact hf.trans this
  cap := by rw [hf]; exact h.cap
  fits t ht := (Shape.fits_congr_slots (fun i _ => hn i)).trans (h.fits t ht)
  weight t ht := by rw [hn]; exact h.weight t ht
  nodup := h.nodup
  symbols_nodup := by
    rw [Engine.leafSymbols_congr (a := e) (fun i _ => by rw [hn])]
    exact h.symbols_nodup
  mem := by rw [hf]; exact h.mem
  count := by rw [hf]; exact h.count
  empty i hi := by
    have hcount : e'.nodeCount = e.nodeCount := by rw [hf]
    exact hq.empty_of_slots (hn i) (h.empty i (hcount ▸ hi))
  queue := hq
  roots_nodup := hnd
  queued := hqueued
  size := hsize

/-- `pq_extract` takes the root of some tree out of the queue. -/
theorem dequeue (hp : ParamsOk p) (h : Building p e₀ e ts qs) (hne : qs ≠ []) :
    ∃ t qs' e', qs.Perm (t :: qs') ∧ e.dequeue p = .ok (t.root, e') ∧ Building p e₀ e' ts qs' := by
  have hpos : 1 ≤ e.pqSize.toNat := by
    rw [h.size]
    exact List.length_pos_iff.mpr hne
  obtain ⟨e', hr, hf, hsize, hq, hn, hqueued, _⟩ := Engine.dequeue_ok hp.pqMax_le h.queue hpos
  have hfirst : e.queued (e.heapAt 1) := (h.queue.queued_iff _).mpr ⟨1, Nat.le_refl 1, hpos, rfl⟩
  obtain ⟨t, ht, hroot⟩ := List.mem_map.mp ((h.queued _).mp hfirst)
  obtain ⟨l, r, rfl⟩ := List.append_of_mem ht
  have hperm : (l ++ t :: r).Perm (t :: (l ++ r)) := List.perm_middle
  have hnd := (hperm.map Shape.root).nodup_iff.mp h.roots_nodup
  rw [List.map_cons, List.nodup_cons] at hnd
  refine ⟨t, l ++ r, e', hperm, hroot ▸ hr, h.requeue hf hn hq hnd.2 (fun i => ?_) ?_⟩
  · rw [hqueued, h.queued, (hperm.map Shape.root).mem_iff, ← hroot, List.map_cons, List.mem_cons]
    constructor
    · rintro ⟨rfl | hi, hne⟩
      · exact absurd rfl hne
      · exact hi
    · exact fun hi => ⟨.inr hi, fun heq => hnd.1 (heq ▸ hi)⟩
  · rw [hsize, h.size, hperm.length_eq, List.length_cons, Nat.add_sub_cancel]

/-- A node allocated as the root of a tree `u` over the trees `as`: the forest has `u` in their place. -/
theorem alloc {as : List Shape} {u : Shape} {n : Node} (h : Building p e₀ e (as ++ ts) qs)
    (hf : e' = { e with nodes := e'.nodes, nodeCount := e'.nodeCount }) (hcount : e'.nodeCount.toNat = e.nodeCount.toNat + 1)
    (hidx : u.root.toNat = e.nodeCount.toNat) (hat : ∀ i, e'.nodeAt i = if i = u.root then n else e.nodeAt i)
    (hslot : n.heapSlot = 0) (hind : u.indices = u.root :: as.flatMap Shape.indices) (hfits : u.fits e' = true)
    (hweight : n.weight.toNat ≤ u.leaves.length * 2 ^ 32) (hsym : (e'.leafSymbols (u :: ts)).Nodup) :
    Building p e₀ e' (u :: ts) qs := by
  have hnew : u.root ∉ (as ++ ts).flatMap Shape.indices := fun hmem => h.ne_of_mem hidx hmem rfl
  have hold : ∀ i ∈ (as ++ ts).flatMap Shape.indices, e'.nodeAt i = e.nodeAt i := fun i hi => by
    rw [hat, if_neg (h.ne_of_mem hidx hi)]
  have hempty : e.nodeAt u.root = Node.empty := h.empty _ hidx.ge
  have hall : (u :: ts).flatMap Shape.indices = u.root :: (as ++ ts).flatMap Shape.indices := by
    rw [List.flatMap_cons, hind, List.flatMap_append, List.cons_append]
  have hts : ∀ t ∈ ts, ∀ i ∈ t.indices, i ∈ (as ++ ts).flatMap Shape.indices := fun t ht i hi =>
    List.mem_flatMap.mpr ⟨t, List.mem_append_right as ht, hi⟩
  have hslots : ∀ i, (e'.nodeAt i).heapSlot = (e.nodeAt i).heapSlot := by
    intro i
    rw [hat]
    split
    · next hi => rw [hi, hempty, hslot]; rfl
    · rfl
  have hqueued : ∀ i, e'.queued i ↔ e.queued i := fun i => by rw [Engine.queued, hslots, Engine.queued]
  refine ⟨?_, ?_, ?_, ?_, ?_, hsym, ?_, ?_, ?_, ?_, h.roots_nodup, ?_, ?_⟩
  · have := congrArg (fun x : Engine => ({ x with nodes := e'.nodes, nodeCount := e'.nodeCount } : Engine)) h.frame
    have hheap : e'.heap = e.heap := by rw [hf]
    have hsize : e'.pqSize = e.pqSize := by rw [hf]
    rw [hheap, hsize]
    exact hf.trans this
  · rw [hf]; exact h.cap
  · rintro t (_ | ⟨_, ht⟩)
    · exact hfits
    · exact (Shape.fits_congr (a := e) (fun i hi => hold i (hts t ht i hi))).trans (h.fits t (List.mem_append_right as ht))
  · rintro t (_ | ⟨_, ht⟩)
    · rw [hat, if_pos rfl]; exact hweight
    · rw [hold _ (hts t ht _ t.root_mem)]
      exact h.weight t (List.mem_append_right as ht)
  · rw [hall]; exact List.nodup_cons.mpr ⟨hnew, h.nodup⟩
  · intro i
    rw [hall, List.mem_cons, h.mem, hcount, ← hidx, ← BitVec.toNat_inj]
    omega
  · rw [hall, List.length_cons, hcount, h.count]
  · intro i hi
    rw [hat, if_neg (fun heq => by rw [heq] at hi; omega)]
    exact h.empty i (by omega)
  · refine h.queue.congr (by rw [hf]) (by rw [hf]) (by rw [hf]) hslots (fun i hi => ?_)
    rw [hat, if_neg]
    rintro rfl
    exact not_queued_of_eq_empty hempty hi
  · exact fun i => (hqueued i).trans (h.queued i)
  · rw [hf]; exact h.size

/-- `pq_insert` of the root of a tree that is not in the queue yet. -/
theorem enqueue {t : Shape} (hp : ParamsOk p) (h : Building p e₀ e ts qs) (ht : t ∈ ts) (hnew : t.root ∉ qs.map Shape.root)
    (hroom : qs.length < p.pqMax) :
    ∃ e', e.enqueue p t.root = .ok e' ∧ Building p e₀ e' ts (t :: qs) ∧
      ∀ i, e'.nodeAt i = { e.nodeAt i with heapSlot := (e'.nodeAt i).heapSlot } := by
  obtain ⟨e', m, hr, hf, hsize, hq, hn, hqueued, _⟩ := Engine.enqueue_ok hp.pqMax_le h.queue (Shape.fits_mem (h.fits t ht) _ t.root_mem).1
    (fun hqd => hnew ((h.queued _).mp hqd)) (by rw [h.size, h.cap]; exact hroom)
  refine ⟨e', hr, h.requeue hf hn hq (List.nodup_cons.mpr ⟨hnew, h.roots_nodup⟩) (fun i => ?_) ?_, hn⟩
  · rw [hqueued, h.queued, List.map_cons, List.mem_cons, or_comm]
  · rw [hsize, h.size, List.length_cons]

/-- One more tree `u`, over the trees `as`: its root is allocated and inserted in the queue. Every node has its place in the arena
and in the queue, since 256 leaves make at most 511 nodes. -/
theorem addTree {as : List Shape} {u : Shape} {n : Node} (hp : ParamsOk p) (h : Building p e₀ e (as ++ ts) ts)
    (hroot : u.root = e.nodeCount.setWidth 9) (hslot : n.heapSlot = 0) (hind : u.indices = u.root :: as.flatMap Shape.indices)
    (hweight : n.weight.toNat ≤ u.leaves.length * 2 ^ 32) (hleaves : ((u :: ts).flatMap Shape.leaves).length ≤ 256)
    (hu : ∀ e' : Engine, e'.nodeAt u.root = n → (∀ i ∈ (as ++ ts).flatMap Shape.indices, e'.nodeAt i = e.nodeAt i) →
      u.fits e' = true ∧ (e'.leafSymbols (u :: ts)).Nodup) :
    ∃ e', (e.nodeAlloc n >>= fun r => r.2.enqueue p r.1) = .ok e' ∧ Building p e₀ e' (u :: ts) (u :: ts) ∧
      (e'.nodeAt u.root).symbol = n.symbol ∧
      ∀ i ∈ (as ++ ts).flatMap Shape.indices, (e'.nodeAt i).symbol = (e.nodeAt i).symbol := by
  have hlen := forest_length_indices (u :: ts)
  have hle := forest_length_le_leaves (u :: ts)
  simp only [List.flatMap_cons, hind, List.length_append, List.length_cons] at hlen hle hleaves
  have hcnt : e.nodeCount.toNat = (as.flatMap Shape.indices).length + (ts.flatMap Shape.indices).length := by
    rw [h.count, List.flatMap_append, List.length_append]
  obtain ⟨e1, hr, hf, hcount, hidx, hat⟩ := Engine.nodeAlloc_ok (show e.nodeCount.toNat < 511 by omega) n
  rw [← hroot] at hr hidx hat
  have hself : e1.nodeAt u.root = n := (hat _).trans (if_pos rfl)
  have hold : ∀ i ∈ (as ++ ts).flatMap Shape.indices, e1.nodeAt i = e.nodeAt i := fun i hi =>
    (hat i).trans (if_neg (h.ne_of_mem hidx hi))
  obtain ⟨hfits, hsym⟩ := hu e1 hself hold
  have hb := h.alloc hf hcount hidx hat hslot hind hfits hweight hsym
  have hout : u.root ∉ ts.map Shape.root := fun hmem =>
    not_queued_of_eq_empty (h.empty _ hidx.ge) ((h.queued _).mpr hmem)
  have hroom := hp.pqMax_ge
  obtain ⟨e', hr', hb', hn⟩ := hb.enqueue hp (List.mem_cons_self ..) hout (by omega)
  refine ⟨e', ?_, hb', by rw [hn, hself], fun i hi => by rw [hn, hold i hi]⟩
  rw [hr]
  exact hr'

end Building
end Sys2Proof.Machine
end

section
/-! SUPPORT. The loops of TREE_BUILD end in one tree under ROOT that holds the whole arena (spec/43_tree_builder.md R179 to R181). -/

namespace Sys2Proof.Machine

namespace Building

variable {p : Params} {e₀ e : Engine} {ts : List Shape}

/-- One turn of the leaf loop adds a leaf for a symbol that is counted, and does nothing for one that is not (R179). -/
theorem addLeaf (hp : ParamsOk p) (h : Building p e₀ e ts ts) {c : Byte} (hc : c ∉ e.leafSymbols ts) :
    ∃ e' ts', e.addLeaf p c = .ok e' ∧ Building p e₀ e' ts' ts' ∧
      ∀ d, d ∈ e'.leafSymbols ts' ↔ d ∈ e.leafSymbols ts ∨ d = c ∧ e₀.freqAt c ≠ 0 := by
  have hfreq : e.freqAt c = e₀.freqAt c := by rw [h.frame]; rfl
  by_cases h0 : e₀.freqAt c = 0
  · refine ⟨e, ts, by rw [Engine.addLeaf, hfreq, if_pos h0], h, fun d => ?_⟩
    exact (or_iff_left (fun hd => hd.2 h0)).symm
  let i := e.nodeCount.setWidth 9
  let n := Node.newLeaf true c ((e.freqAt c).setWidth 64)
  have hsym : ∀ e' : Engine, (e'.nodeAt i).symbol = c → (∀ j ∈ ts.flatMap Shape.indices, (e'.nodeAt j).symbol = (e.nodeAt j).symbol) →
      e'.leafSymbols (.leaf i :: ts) = c :: e.leafSymbols ts := by
    intro e' hi hold
    rw [← Engine.leafSymbols_congr hold, ← hi]
    rfl
  have hnd : (c :: e.leafSymbols ts).Nodup := List.nodup_cons.mpr ⟨hc, h.symbols_nodup⟩
  have hweight : n.weight.toNat ≤ (Shape.leaf i).leaves.length * 2 ^ 32 := by
    have hlt := (e.freqAt c).isLt
    simp only [n, Node.newLeaf, Shape.leaves, BitVec.toNat_setWidth, List.length_singleton]
    omega
  have hleaves : ((Shape.leaf i :: ts).flatMap Shape.leaves).length ≤ 256 := by
    simpa [Engine.leafSymbols, Shape.leaves] using distinct_symbols_length_le hnd
  obtain ⟨e', hr, hb, hi, hold⟩ := addTree (as := []) (u := .leaf i) (n := n) hp h rfl rfl rfl hweight hleaves fun e' hi hold => by
    refine ⟨?_, ?_⟩
    · rw [Shape.root_leaf] at hi
      rw [Shape.fits, hi]
      rfl
    · rw [hsym e' (congrArg Node.symbol hi) (fun j hj => by rw [hold j hj])]
      exact hnd
  refine ⟨e', _, ?_, hb, fun d => ?_⟩
  · rw [Engine.addLeaf, if_neg (fun hz => h0 (hfreq.symm.trans hz))]
    exact hr
  · rw [hsym e' hi hold, List.mem_cons, or_comm, and_iff_left h0]

/-- The leaf loop over distinct symbols makes a leaf for each that is counted (R179). -/
theorem addLeaves (hp : ParamsOk p) {l : List Byte} (hl : l.Nodup) (h : Building p e₀ e ts ts) (hnew : ∀ c ∈ l, c ∉ e.leafSymbols ts) :
    ∃ e' ts', l.foldlM (Engine.addLeaf p) e = .ok e' ∧ Building p e₀ e' ts' ts' ∧
      ∀ d, d ∈ e'.leafSymbols ts' ↔ d ∈ e.leafSymbols ts ∨ d ∈ l ∧ e₀.freqAt d ≠ 0 := by
  induction l generalizing e ts with
  | nil => exact ⟨e, ts, rfl, h, fun d => by simp⟩
  | cons c l ih =>
    obtain ⟨hcl, hl⟩ := List.nodup_cons.mp hl
    obtain ⟨e1, ts1, hr1, hb1, hs1⟩ := h.addLeaf hp (hnew c (List.mem_cons_self ..))
    have hnew1 : ∀ d ∈ l, d ∉ e1.leafSymbols ts1 := by
      intro d hd hmem
      rcases (hs1 d).mp hmem with hold | ⟨rfl, _⟩
      · exact hnew d (List.mem_cons_of_mem c hd) hold
      · exact hcl hd
    obtain ⟨e2, ts2, hr2, hb2, hs2⟩ := ih hl hb1 hnew1
    refine ⟨e2, ts2, ?_, hb2, fun d => ?_⟩
    · rw [List.foldlM_cons, hr1]
      exact hr2
    · rw [hs2, hs1, List.mem_cons, or_assoc]
      refine or_congr_right ⟨?_, ?_⟩
      · rintro (⟨rfl, h0⟩ | ⟨hd, h0⟩)
        · exact ⟨.inl rfl, h0⟩
        · exact ⟨.inr hd, h0⟩
      · rintro ⟨rfl | hd, h0⟩
        · exact .inl ⟨rfl, h0⟩
        · exact .inr ⟨hd, h0⟩

/-- The sum of two trees' weights is exact: 256 leaves of 32-bit counts stay below 2^64 (R181 item 3). -/
theorem weight_add {a b : Shape} (h : Building p e₀ e (a :: b :: ts) ts) :
    ((e.nodeAt a.root).weight + (e.nodeAt b.root).weight).toNat = (e.nodeAt a.root).weight.toNat + (e.nodeAt b.root).weight.toNat ∧
    (e.nodeAt a.root).weight.toNat + (e.nodeAt b.root).weight.toNat ≤ (a.leaves.length + b.leaves.length) * 2 ^ 32 := by
  have ha := h.weight a (List.mem_cons_self ..)
  have hb := h.weight b (List.mem_cons_of_mem a (List.mem_cons_self ..))
  have hle := h.leaves_length_le
  simp only [List.flatMap_cons, List.length_append] at hle
  refine ⟨?_, by omega⟩
  rw [BitVec.toNat_add, Nat.mod_eq_of_lt]
  omega

/-- One merge makes one tree of two (R179). -/
theorem mergeOnce (hp : ParamsOk p) (h : Building p e₀ e ts ts) (h2 : 2 ≤ ts.length) :
    ∃ e' ts', e.mergeOnce p = .ok e' ∧ Building p e₀ e' ts' ts' ∧ ts'.length + 1 = ts.length := by
  obtain ⟨a, q1, e1, hperm1, hr1, hb1⟩ := h.dequeue hp (List.ne_nil_of_length_pos (by omega))
  have hlen1 := hperm1.length_eq
  rw [List.length_cons] at hlen1
  obtain ⟨b, q2, e2, hperm2, hr2, hb2⟩ := hb1.dequeue hp (List.ne_nil_of_length_pos (by omega))
  have hlen2 := hperm2.length_eq
  rw [List.length_cons] at hlen2
  have hb : Building p e₀ e2 (a :: b :: q2) q2 := hb2.perm (hperm1.trans (hperm2.cons a)) (List.Perm.refl q2)
  have hafits := hb.fits a (List.mem_cons_self ..)
  have hbfits := hb.fits b (List.mem_cons_of_mem a (List.mem_cons_self ..))
  obtain ⟨hsum, hle⟩ := hb.weight_add
  let i := e2.nodeCount.setWidth 9
  let n := Node.newInternal ((e2.nodeAt a.root).weight + (e2.nodeAt b.root).weight) a.root b.root
  obtain ⟨e3, hr3, hb3, _, _⟩ := addTree (as := [a, b]) (u := .branch i a b) (n := n) hp hb rfl rfl (by simp [Shape.indices])
    (by rw [Shape.leaves, List.length_append]; exact hsum.trans_le hle) (by simpa [Shape.leaves] using hb.leaves_length_le) fun e' hi hold => by
      have hin : ∀ t ∈ [a, b], ∀ j ∈ t.indices, e'.nodeAt j = e2.nodeAt j := fun t ht j hj =>
        hold j (List.mem_flatMap.mpr ⟨t, List.mem_append_left q2 ht, hj⟩)
      have hina := hin a (by simp)
      have hinb := hin b (by simp)
      refine ⟨?_, ?_⟩
      · rw [Shape.root_branch] at hi
        rw [Shape.fits, hi, Shape.fits_congr hina, Shape.fits_congr hinb, hafits, hbfits, hina _ a.root_mem, hinb _ b.root_mem]
        simp [n, Node.newInternal, hsum]
      · rw [Engine.leafSymbols_branch, Engine.leafSymbols_congr (a := e2) (fun j hj => by rw [hold j hj])]
        exact hb.symbols_nodup
  refine ⟨e3, _, ?_, hb3, by rw [List.length_cons]; omega⟩
  rw [Engine.mergeOnce, hr1, Run.ok_bind, hr2, Run.ok_bind, Engine.readNode_ok _ (Shape.fits_root_lt hafits), Run.ok_bind,
    Engine.readNode_ok _ (Shape.fits_root_lt hbfits), Run.ok_bind]
  exact hr3

/-- The merges go on until one tree is left (R179). -/
theorem mergeAll (hp : ParamsOk p) (fuel : Nat) (h : Building p e₀ e ts ts) (hne : ts ≠ []) (hf : ts.length ≤ fuel + 1) :
    ∃ e' t, Engine.mergeAll p fuel e = .ok e' ∧ Building p e₀ e' [t] [t] := by
  induction fuel generalizing e ts with
  | zero =>
    have hpos := List.length_pos_iff.mpr hne
    obtain ⟨t, rfl⟩ := List.length_eq_one_iff.mp (show ts.length = 1 by omega)
    exact ⟨e, t, rfl, h⟩
  | succ fuel ih =>
    rw [Engine.mergeAll, h.size]
    by_cases h1 : 1 < ts.length
    · obtain ⟨e1, ts1, hr1, hb1, hlen⟩ := h.mergeOnce hp h1
      obtain ⟨e', t, hr, hb⟩ := ih hb1 (List.ne_nil_of_length_pos (by omega)) (by omega)
      refine ⟨e', t, ?_, hb⟩
      rw [if_pos h1, hr1]
      exact hr
    · have hpos := List.length_pos_iff.mpr hne
      obtain ⟨t, rfl⟩ := List.length_eq_one_iff.mp (show ts.length = 1 by omega)
      exact ⟨e, t, if_neg h1, h⟩

end Building

/-- The engine TREE_BUILD begins with: nothing in the arena or the queue, and room for PQ_MAX nodes (R179). -/
def Engine.buildStart (p : Params) (e : Engine) : Engine := { e.clearArena with pqCap := BitVec.ofNat 9 p.pqMax }

theorem Building.start {p : Params} (hp : ParamsOk p) (e : Engine) : Building p (e.buildStart p) (e.buildStart p) [] [] where
  frame := rfl
  cap := slot_toNat hp.pqMax_le
  fits t ht := absurd ht List.not_mem_nil
  weight t ht := absurd ht List.not_mem_nil
  nodup := List.nodup_nil
  symbols_nodup := List.nodup_nil
  mem i := by simp [Engine.buildStart]
  count := rfl
  empty i _ := e.nodeAt_clearArena i
  queue := QueueOk.of_empty rfl e.heapAt_clearArena (fun i => not_queued_of_eq_empty (e.nodeAt_clearArena i)) (slot_toNat hp.pqMax_le).le
  roots_nodup := List.nodup_nil
  queued i := iff_of_false (not_queued_of_eq_empty (e.nodeAt_clearArena i)) List.not_mem_nil
  size := rfl

/-- Everything TREE_BUILD does with some symbol counted: it ends with one tree in the arena, whose root it answers, and nothing in
the queue (R179). -/
theorem Engine.buildTree_ok {p : Params} (hp : ParamsOk p) {e : Engine} {c : Byte} (hc : e.freqAt c ≠ 0) :
    ∃ e' t, Building p (e.buildStart p) e' [t] [] ∧ e.buildTree p = .ok ({ e' with root := t.root }.setRes t.root.toNat) := by
  obtain ⟨e1, ts, hr1, hb1, hs1⟩ := (Building.start hp e).addLeaves hp symbols_nodup (fun _ _ => List.not_mem_nil)
  have hne : ts ≠ [] := by
    rintro rfl
    exact List.not_mem_nil ((hs1 c).mpr (.inr ⟨mem_symbols c, hc⟩))
  obtain ⟨e2, u, hr2, hb2⟩ := hb1.mergeAll hp e1.pqSize.toNat hne (by rw [hb1.size]; omega)
  obtain ⟨t, qs, e', hperm, hr3, hb3⟩ := hb2.dequeue hp (List.cons_ne_nil u [])
  obtain ⟨rfl, rfl⟩ : t = u ∧ qs = [] := by simpa [eq_comm] using hperm
  refine ⟨e', t, hb3, ?_⟩
  rw [Engine.buildTree]
  show (symbols.foldlM (Engine.addLeaf p) (e.buildStart p) >>= _) = _
  rw [hr1, Run.ok_bind, hr2, Run.ok_bind, hr3]
  rfl

/-- A single tree that holds the whole arena, under ROOT, with nothing queued. -/
theorem Building.finished {p : Params} {e e' : Engine} {t : Shape} (h : EngineOk p e)
    (hb : Building p (e.buildStart p) e' [t] []) : EngineOk p { e' with root := t.root } := by
  have hidx : ∀ i, i ∈ t.indices ↔ i.toNat < e'.nodeCount.toNat := fun i => by simpa using hb.mem i
  have hfits := hb.fits t (List.mem_singleton_self t)
  have hnd : t.indices.Nodup := by simpa using hb.nodup
  have hcount : e'.nodeCount.toNat = t.indices.length := by simpa using hb.count
  have hempty : ∀ i, i ∉ t.indices → e'.nodeAt i = Node.empty := fun i hi =>
    hb.empty i (Nat.le_of_not_lt (fun hlt => hi ((hidx i).mpr hlt)))
  have hfree : ∀ i, ¬ e'.queued i := fun i hi => List.not_mem_nil ((hb.queued i).mp hi)
  have hin := Shape.fits_mem hfits
  have hsym : (t.leaves.map (fun i => (e'.nodeAt i).symbol)).Nodup := by simpa [Engine.leafSymbols] using hb.symbols_nodup
  have htree : TreeIs { e' with root := t.root } t := by
    refine ⟨rfl, (Shape.fits_congr (a := e') (b := { e' with root := t.root }) (fun _ _ => rfl)).trans hfits, hnd, fun i => ?_, hsym⟩
    refine ⟨fun hi => ?_, fun hi => (hin i hi).2⟩
    by_contra hout
    exact Bool.false_ne_true ((congrArg Node.inTree (hempty i hout)).symm.trans hi)
  have hvalid : ∀ i, (e'.nodeAt i).valid = true → i ∈ t.indices := by
    intro i hv
    by_contra hout
    rw [hempty i hout] at hv
    exact Bool.false_ne_true hv
  refine h.withArena ?_ (hb.queue.congr rfl rfl rfl (fun _ => rfl) (fun _ _ => rfl)) ⟨?_, hb.empty, ?_, ?_, ?_⟩ (.inr ⟨t, htree⟩)
  · rw [hb.frame]; rfl
  · exact hcount.trans_le (nodup_length_le hnd (Shape.fits_indices_lt hfits))
  · exact fun i hv => hempty i (fun hi => Bool.false_ne_true (hv.symm.trans (hin i hi).1))
  · exact fun i hv hout => absurd (hout.symm.trans (hin i (hvalid i hv)).2) Bool.false_ne_true
  · exact fun i hi => absurd hi (hfree i)

theorem execTreeBuild_keeps {s : State} (h : Inv s) : Keeps (execTreeBuild s) :=
  h.runRule <| .check fun hall => by
    obtain ⟨c, hc⟩ : ∃ c, s.engine.freqAt c ≠ 0 := by
      by_contra hnone
      simp only [not_exists, not_not] at hnone
      exact hall (by simp [hnone])
    obtain ⟨e', t, hb, hr⟩ := Engine.buildTree_ok h.params hc
    exact .of_ok hr ((hb.finished h.engineOk).setRes _)

end Sys2Proof.Machine
end

section
/-! SUPPORT. Every command, every event and so every step keeps the invariant (spec/60_exceptions.md R244 to R246). -/

namespace Sys2Proof.Machine

/-- Every command from a state of the invariant ends, and in a state of the invariant. -/
theorem exec_keeps {s : State} (h : Inv s) (i : Instr) : Keeps (exec i s) :=
  match i with
  | .nop => execNop_keeps h
  | .softReset => execSoftReset_keeps h
  | .clrSticky => execClrSticky_keeps h
  | .regRead selector => execRegRead_keeps h selector
  | .memWr byte index => execMemWr_keeps h byte index
  | .memRd index => execMemRd_keeps h index
  | .outRd index => execOutRd_keeps h index
  | .bbNew capacity => execBbNew_keeps h capacity
  | .bbWrite width numBits => execBbWrite_keeps h width numBits
  | .bbReadBit => execBbReadBit_keeps h
  | .bbAdvance => execBbAdvance_keeps h
  | .bbRewind => execBbRewind_keeps h
  | .bbSizeBits => execBbSizeBits_keeps h
  | .bbByteOffset => execBbByteOffset_keeps h
  | .bbBitOffset => execBbBitOffset_keeps h
  | .bbGetByte index => execBbGetByte_keeps h index
  | .pqInit capacity => execPqInit_keeps h capacity
  | .pqInsert node => execPqInsert_keeps h node
  | .pqExtractMin => execPqExtractMin_keeps h
  | .pqSize => execPqSize_keeps h
  | .pqChangePriority node => execPqChangePriority_keeps h node
  | .pqReadHeap heapIndex => execPqReadHeap_keeps h heapIndex
  | .freqClear => execFreqClear_keeps h
  | .freqSet symbol => execFreqSet_keeps h symbol
  | .freqGet symbol => execFreqGet_keeps h symbol
  | .freqCount length => execFreqCount_keeps h length
  | .nodeNewLeaf symbol => execNodeNewLeaf_keeps h symbol
  | .nodeSetWeight node => execNodeSetWeight_keeps h node
  | .nodeRead field node => execNodeRead_keeps h field node
  | .arenaReset => execArenaReset_keeps h
  | .treeBuild => execTreeBuild_keeps h
  | .treeHeight => execTreeHeight_keeps h
  | .treeFree => execTreeFree_keeps h
  | .mapBuild => execMapBuild_keeps h
  | .mapGetCode symbol => execMapGetCode_keeps h symbol
  | .mapGetLen symbol => execMapGetLen_keeps h symbol
  | .encode length => execEncode_keeps h length
  | .encSym symbol => execEncSym_keeps h symbol
  | .decode length => execDecode_keeps h length
  | .decSym => execDecSym_keeps h

/-- The engine's turn completes the running command, fails a reserved word, or idles (R245, R255). -/
theorem State.engineTurn_keeps {s : State} (h : Inv s) : Keeps s.engineTurn := by
  rw [State.engineTurn]
  by_cases hbusy : s.status.busy = true
  · rw [if_pos hbusy, State.completeCommand]
    cases decode s.cmdLatch with
    | ok i => exact exec_keeps h i
    | error x => exact ⟨_, rfl, h.fail .illegalCommand⟩
  · rw [if_neg hbusy]
    exact ⟨s, rfl, h⟩

theorem Inv.storeCmd {s : State} (h : Inv s) (v : Word64) : Inv (s.storeCmd v) := by
  rcases s.storeCmd_cases v with ⟨_, heq⟩ | ⟨_, heq⟩ <;> rw [heq] <;>
    exact h.update rfl h.status h.engineOk (List.Subset.refl _)

/-- An access whose address lies in the window reaches something of the HCE (spec/20_memory.md R69). -/
theorem target_ne_outside {base addr : Nat} {width : AccessWidth} (h : inWindow base addr = true) : target base width addr ≠ .outside := by
  rw [target, h]
  by_cases hw : width = .w64 ∧ addr % 8 = 0
  · rw [if_neg (by decide), if_pos hw]
    unfold registerAt
    split <;> decide
  · rw [if_neg (by decide), if_neg hw]
    decide

/-- A host store in the window keeps the invariant, whatever it reaches (spec/10_state.md R20). -/
theorem State.hostStore_keeps {s : State} (h : Inv s) {width : AccessWidth} {addr : Nat} (v : Word64)
    (hin : inWindow s.params.baseAddr addr = true) : Keeps (s.hostStore width addr v) := by
  have hne := target_ne_outside (width := width) hin
  rw [State.hostStore]
  cases ht : target s.params.baseAddr width addr with
  | outside => exact absurd ht hne
  | cmd => exact ⟨_, rfl, h.storeCmd v⟩
  | data => exact ⟨_, rfl, h.update rfl h.status h.engineOk (List.Subset.refl _)⟩
  | nothing | res | status | id => exact ⟨s, rfl, h⟩

/-- A host load in the window changes the model's `busOut` alone (spec/20_memory.md R68). -/
theorem State.hostLoad_keeps {s : State} (h : Inv s) {width : AccessWidth} {addr : Nat} (hin : inWindow s.params.baseAddr addr = true) :
    Keeps (s.hostLoad width addr) := by
  have hne := target_ne_outside (width := width) hin
  have hbus : ∀ b, Inv { s with busOut := b } := fun b => h.update rfl h.status h.engineOk (List.Subset.refl _)
  rw [State.hostLoad]
  cases ht : target s.params.baseAddr width addr with
  | outside => exact absurd ht hne
  | nothing | cmd | data | res | status | id => exact ⟨_, rfl, hbus _⟩

/-- Every event that can reach the HCE keeps the invariant (R244). -/
theorem State.deliver_keeps {s : State} (h : Inv s) {ev : Event} (hev : ev.delivered s.params = true) : Keeps (s.deliver ev) :=
  match ev, hev with
  | .store _ _ value, hin => State.hostStore_keeps h value hin
  | .load _ _, hin => State.hostLoad_keeps h hin
  | .engine, _ => State.engineTurn_keeps h
  | .reset, _ => ⟨_, rfl, h.update rfl statusReset_ok (engineReset_ok h.params) (List.Subset.refl _)⟩

/-- A step from a state of the invariant answers a next state, and there the invariant holds. -/
theorem step_keeps {s : State} (h : Inv s) : Keeps (step s) := by
  cases hs : s.schedule with
  | nil =>
    rw [step_idle_schedule hs]
    exact State.engineTurn_keeps h
  | cons ev rest =>
    rw [step_event hs]
    have hrest : Inv { s with schedule := rest } :=
      h.update rfl h.status h.engineOk (fun x hx => hs ▸ List.mem_cons_of_mem ev hx)
    exact State.deliver_keeps hrest (h.schedule ev (hs ▸ List.mem_cons_self ..))

/-- Settles O13: the step's only answer is the next state of `step_keeps`. -/
theorem stepKeepsTheInvariant : Obligations.StepKeepsTheInvariant := by
  intro s t h hstep
  obtain ⟨u, hu, hinv⟩ := step_keeps h
  rw [hstep] at hu
  cases hu
  exact hinv

end Sys2Proof.Machine
end

section
/-! SUPPORT. Accesses of the window that are narrow or misaligned (spec/20_memory.md R66). -/

namespace Sys2Proof.Machine

/-- A store that reaches nothing is dropped (R66). -/
theorem State.hostStore_of_target_nothing {s : State} {width : AccessWidth} {addr : Nat} (v : Word64)
    (h : target s.params.baseAddr width addr = .nothing) : s.hostStore width addr v = .next s := by
  rw [State.hostStore, h]

/-- A load that reaches nothing is answered with 0 (R66). -/
theorem State.hostLoad_of_target_nothing {s : State} {width : AccessWidth} {addr : Nat}
    (h : target s.params.baseAddr width addr = .nothing) :
    s.hostLoad width addr = .next { s with busOut := some 0 } := by
  rw [State.hostLoad, h]
  rfl

/-- Settles O10: an undefined access of the window reaches nothing (`target_undefined`), so the store is dropped and the load reads 0. -/
theorem undefinedAccessesDoNothing : Obligations.UndefinedAccessesDoNothing := by
  intro s width addr v rest hlow hhigh hundef
  have hnothing : target s.params.baseAddr width addr = .nothing := target_undefined hlow hhigh hundef
  refine ⟨fun hs => ?_, fun hs => ?_⟩
  · rw [step_event hs]
    exact State.hostStore_of_target_nothing v hnothing
  · rw [step_event hs]
    exact State.hostLoad_of_target_nothing hnothing

end Sys2Proof.Machine
end

section
/-! SUPPORT. Settles the command words (spec/30_encoding.md R91 to R96): the encoder's round trip, which fields of a word the decoder
reads, and the reserved OPC values. -/

namespace Sys2Proof.Laws.FieldsFit

/-- The lemmas above cover every row of the opcode map (R94). -/
theorem all : ∀ i : Instr, Statement i
  | .nop => nop
  | .softReset => softReset
  | .clrSticky => clrSticky
  | .regRead selector => regRead selector
  | .memWr byte index => memWr byte index
  | .memRd index => memRd index
  | .outRd index => outRd index
  | .bbNew capacity => bbNew capacity
  | .bbWrite width numBits => bbWrite width numBits
  | .bbReadBit => bbReadBit
  | .bbAdvance => bbAdvance
  | .bbRewind => bbRewind
  | .bbSizeBits => bbSizeBits
  | .bbByteOffset => bbByteOffset
  | .bbBitOffset => bbBitOffset
  | .bbGetByte index => bbGetByte index
  | .pqInit capacity => pqInit capacity
  | .pqInsert node => pqInsert node
  | .pqExtractMin => pqExtractMin
  | .pqSize => pqSize
  | .pqChangePriority node => pqChangePriority node
  | .pqReadHeap heapIndex => pqReadHeap heapIndex
  | .freqClear => freqClear
  | .freqSet symbol => freqSet symbol
  | .freqGet symbol => freqGet symbol
  | .freqCount length => freqCount length
  | .nodeNewLeaf symbol => nodeNewLeaf symbol
  | .nodeSetWeight node => nodeSetWeight node
  | .nodeRead field node => nodeRead field node
  | .arenaReset => arenaReset
  | .treeBuild => treeBuild
  | .treeHeight => treeHeight
  | .treeFree => treeFree
  | .mapBuild => mapBuild
  | .mapGetCode symbol => mapGetCode symbol
  | .mapGetLen symbol => mapGetLen symbol
  | .encode length => encode length
  | .encSym symbol => encSym symbol
  | .decode length => decode length
  | .decSym => decSym

end Sys2Proof.Laws.FieldsFit

namespace Sys2Proof

open Machine

/-- Settles O1: the encoder packs operands that fit, so the decoder finds them in their fields and reads the command's own row. -/
theorem decodeEncodeRoundTrip : Obligations.DecodeEncodeRoundTrip := by
  intro i hwf
  obtain ⟨ho, ha, hb, hrow⟩ := Laws.FieldsFit.all i hwf
  rw [decode, encode, opcField_packWord ho ha hb, aField_packWord ho ha hb, bField_packWord ho ha hb, hrow]

/-! ### What the decoder reads -/

theorem bField_lt (w : Word32) : bField w < 65536 := (w.extractLsb' 0 16).isLt

/-- A command read from three fields has their OPC, its operands are the fields its row names, and so it is well formed (R91, R94). -/
theorem decodeFields_eq_ok {opc a : Byte} {b : Nat} {i : Instr} (hb : b < 65536) (h : decodeFields opc a b = .ok i) :
    i.wellFormed = true ∧ i.opcode = opc.toNat ∧
      (rowNamesA i = true → i.aOperand = a.toNat) ∧ (rowNamesB i = true → i.bOperand = b) := by
  have ha := a.isLt
  unfold decodeFields at h
  split at h <;> cases h <;> rename_i hopc <;>
    simp [Instr.wellFormed, fitsA, fitsB, Instr.opcode, Instr.aOperand, Instr.bOperand, rowNamesA, rowNamesB, hopc, ha, hb]

/-- With the OPC of a command, every two other fields give a command (R95), and the same one when they agree on the fields its row
names (R93). -/
theorem decodeFields_of_sameOpc {opc a : Byte} {b : Nat} {i : Instr} (h : decodeFields opc a b = .ok i) (a' : Byte) (b' : Nat) :
    ∃ i', decodeFields opc a' b' = .ok i' ∧ ((rowNamesA i = true → a' = a) → (rowNamesB i = true → b' = b) → i' = i) := by
  unfold decodeFields at h
  split at h <;> cases h <;> rename_i hopc <;> simp +contextual [decodeFields, hopc, rowNamesA, rowNamesB]

/-- Settles O2: what holds of the three fields of a word, read for `w` and for the word that shares its OPC. -/
theorem decodingReadsOpcAndUsedFields : Obligations.DecodingReadsOpcAndUsedFields := by
  intro w i h
  obtain ⟨hwf, hopc, ha, hb⟩ := decodeFields_eq_ok (bField_lt w) h
  refine ⟨hwf, hopc, ha, hb, fun w' hsame => ?_⟩
  obtain ⟨i', hi', hagree⟩ := decodeFields_of_sameOpc h (aField w') (bField w')
  rw [← hsame] at hi'
  obtain ⟨-, hopc', -, -⟩ := decodeFields_eq_ok (bField_lt w') hi'
  refine ⟨⟨i', hi', by rw [hopc', hopc, hsame]⟩, fun hA hB => ?_⟩
  rw [← hagree hA hB]
  exact hi'

/-- Settles O3: ten closed words, each read by its row of R94. -/
theorem wordsOfTheOpcodeMapDecode : Obligations.WordsOfTheOpcodeMapDecode := by
  unfold Obligations.WordsOfTheOpcodeMapDecode
  decide

/-! ### Reserved OPC values -/

/-- The ranges of R96. -/
def ReservedOpc (o : Nat) : Prop :=
  (0x04 ≤ o ∧ o ≤ 0x0F) ∨ (0x13 ≤ o ∧ o ≤ 0x1F) ∨ (0x29 ≤ o ∧ o ≤ 0x2F) ∨ (0x36 ≤ o ∧ o ≤ 0x3F) ∨
  (0x48 ≤ o ∧ o ≤ 0x4F) ∨ (0x53 ≤ o ∧ o ≤ 0x5F) ∨ (0x63 ≤ o ∧ o ≤ 0x6F) ∨ 0x74 ≤ o

/-- No row of R94 has a reserved OPC. -/
theorem opcode_not_reserved (i : Instr) : ¬ ReservedOpc i.opcode := by
  cases i <;> simp [Instr.opcode, ReservedOpc]

theorem decode_of_reservedOpc {w : Word32} (h : ReservedOpc (opcField w).toNat) : ∃ x, decode w = .error x := by
  cases hd : decode w with
  | error x => exact ⟨x, rfl⟩
  | ok i =>
    obtain ⟨-, hopc, -, -⟩ := decodeFields_eq_ok (bField_lt w) hd
    exact absurd (hopc ▸ h) (opcode_not_reserved i)

/-- A running word that is no command fails with IllegalCommand at the engine's turn (R96, R245). -/
theorem Machine.State.engineTurn_of_decode_error {s : State} {x : DecodeError} (hb : s.status.busy = true)
    (hd : decode s.cmdLatch = .error x) : s.engineTurn = .next (s.fail .illegalCommand) := by
  rw [State.engineTurn, if_pos hb, State.completeCommand, hd, State.illegalCommand, State.finish_raise]

/-- Settles O4: a reserved OPC is no command's, so the word does not decode and the turn fails. -/
theorem reservedOpcodeFailsWithIllegalCommand : Obligations.ReservedOpcodeFailsWithIllegalCommand := by
  intro s hb hs hres
  obtain ⟨x, hd⟩ := decode_of_reservedOpc hres
  rw [step_idle_schedule hs, State.engineTurn_of_decode_error hb hd]
  rfl

end Sys2Proof
end

section
/-! SUPPORT. Settles what the bit-buffer commands answer and how they fail (spec/41_bitbuffer.md R120 to R130): each command's rule is
evaluated once per outcome, and the end of the command commits it. -/

namespace Sys2Proof.Machine

/-! ### From a rule's outcome to the command's -/

/-- A command whose rule answers an engine state completes with it (spec/60_exceptions.md R245). -/
theorem Completes.of_rule {i : Instr} {s : State} {r : Run Engine} {e : Engine} (hi : exec i s = s.finish r) (h : r = .ok e) :
    Completes i s e := by rw [Completes, hi, h]; rfl

/-- A command whose rule raises an error fails with that error's code (R245). -/
theorem FailsWith.of_rule {i : Instr} {s : State} {r : Run Engine} (k : ErrorKind) (hi : exec i s = s.finish r) (h : r = raise k) :
    FailsWith i s k.code := by rw [FailsWith, hi, h]; rfl

/-- A register value in RES, zero-extended (spec/00_scope.md R13). -/
theorem Engine.setRes_toNat (e : Engine) {w : Nat} (x : BitVec w) : e.setRes x.toNat = { e with res := x.setWidth 64 } := by
  rw [Engine.setRes, BitVec.ofNat_toNat]

/-- A bit in RES. -/
theorem Engine.setRes_bit (e : Engine) (b : Bool) : e.setRes b.toNat = { e with res := if b then 1 else 0 } := by
  cases b <;> rfl

/-! ### The operands of BB_WRITE -/

theorem legalWidth_iff {width : Nat} : legalWidth width = true ↔ width = 8 ∨ width = 16 ∨ width = 32 ∨ width = 64 := by
  simp [legalWidth, or_assoc]

/-- Cutting DATA to `width` bits keeps every bit below `width` (spec/30_encoding.md R92). -/
theorem getLsbD_dataLow {width k : Nat} (data : Word64) (h : k < width) : (dataLow width data).getLsbD k = data.getLsbD k := by
  rw [dataLow, BitVec.getLsbD_ofNat, Nat.testBit_mod_two_pow, decide_eq_true h, Bool.true_and, BitVec.testBit_toNat]
  by_cases hk : k < 64
  · rw [decide_eq_true hk, Bool.true_and]
  · rw [decide_eq_false hk, Bool.false_and, BitVec.getLsbD_of_ge _ _ (Nat.le_of_not_lt hk)]

/-! ### BB_NEW and BB_WRITE -/

/-- Settles O24: the fresh buffer of R120, whose capacity fits its register, or the check on BB_MAX. -/
theorem bbNewMakesAnEmptyBuffer : Obligations.BbNewMakesAnEmptyBuffer := by
  intro s capacity hp
  have hone : 1 ≤ s.params.bbMax := Nat.le_trans hp.dataMax_ge hp.dataMax_le
  refine ⟨fun hle => ⟨s.engine.freshBuffer (max capacity 1), .of_rule rfl (if_neg (Nat.not_lt.mpr hle)), rfl, ?_, Memory.read_nil⟩,
    fun hlt => .of_rule .allocationFailure rfl (if_pos hlt)⟩
  exact (s.engine.freshBuffer_ok hp (Nat.le_max_right capacity 1) (Nat.max_le.mpr ⟨hle, hone⟩)).2

/-- Settles O25: after its two checks the command is `bb_append` of DATA cut to the width. -/
theorem bbWriteAppendsTheLowBits : Obligations.BbWriteAppendsTheLowBits := by
  intro s width numBits hp hb hw hn hfit
  obtain ⟨e, hrun, hframe, htotal, hbyte, hbit, hbits, hgrown, hok⟩ :=
    Engine.bbAppend_ok hp hb (dataLow width s.dataLatch) (n := numBits) hfit
  refine ⟨e, .of_rule rfl ?_, hframe, htotal, hbyte, hbit, fun j hj => ?_, fun q hq => ?_, hok.tail_zero, hgrown⟩
  · simp [legalWidth_iff.mpr hw, Nat.not_lt.mpr hn, hrun]
  · rw [hbits, if_pos (by omega), Nat.add_sub_cancel_left, getLsbD_dataLow _ (by omega)]
  · rw [hbits, if_neg (by omega)]

/-- Settles O26: the first check that applies decides. -/
theorem bbWriteFailsInCheckOrder : Obligations.BbWriteFailsInCheckOrder := by
  intro s width numBits
  refine ⟨fun hw => .of_rule .invalidArgument rfl ?_, fun hw hlt => .of_rule .invalidArgument rfl ?_,
    fun hw hle hfull => .of_rule .allocationFailure rfl ?_⟩
  · simp [mt legalWidth_iff.mp hw]
  · simp [legalWidth_iff.mpr hw, hlt]
  · simp [legalWidth_iff.mpr hw, Nat.not_lt.mpr hle, Engine.bbAppend_raise hfull]

/-! ### Reading and the cursor -/

/-- Settles O27: below the logical end the stream bit at the cursor exists and is read into RES. -/
theorem bbReadBitReadsAtTheCursor : Obligations.BbReadBitReadsAtTheCursor := by
  intro s
  refine ⟨fun hlt hmax => .of_rule rfl ((if_neg (Nat.not_le.mpr hlt)).trans ?_), fun hend => .of_rule .cursorOverrun rfl (if_pos hend)⟩
  rw [Engine.streamBit_ok _ (Nat.lt_of_lt_of_le hlt hmax), Run.ok_bind, Engine.setRes_bit]

/-- Settles O28: the next position is still a byte offset of 16 bits, so the cursor's registers hold it. -/
theorem bbAdvanceMovesOneBit : Obligations.BbAdvanceMovesOneBit := by
  intro s
  refine ⟨fun hlt hmax hp => ⟨s.engine.setCursor (s.engine.cursor + 1), .of_rule rfl (if_neg (Nat.not_le.mpr hlt)), rfl, ?_⟩,
    fun hend => .of_rule .cursorOverrun rfl (if_pos hend)⟩
  exact Engine.cursor_setCursor _ (by omega)

/-- Settles O29: four rules without a check. -/
theorem bbRewindAndAccessors : Obligations.BbRewindAndAccessors := fun s =>
  ⟨.of_rule rfl rfl,
   .of_rule rfl (congrArg Except.ok (s.engine.setRes_toNat s.engine.bbTotal)),
   .of_rule rfl (congrArg Except.ok (s.engine.setRes_toNat s.engine.bbByteOff)),
   .of_rule rfl (congrArg Except.ok (s.engine.setRes_toNat s.engine.bbBitOff))⟩

/-- Settles O30: a byte below BB_CAP lies below BB_MAX too, so it exists. -/
theorem bbGetByteReadsBelowCapacity : Obligations.BbGetByteReadsBelowCapacity := by
  intro s index
  refine ⟨fun hcap hlt => .of_rule rfl ((if_neg (Nat.not_le.mpr hlt)).trans ?_), fun hge => .of_rule .invalidArgument rfl (if_pos hge)⟩
  rw [Engine.memRead_ok (sp := .bbMem) (Nat.lt_of_lt_of_le hlt hcap), Run.ok_bind, Engine.setRes_toNat,
    Engine.space_bbMem]

end Sys2Proof.Machine
end

section
/-! SUPPORT. Settles that no command but BB_NEW, ENCODE and SOFT_RESET shortens the bit buffer (spec/41_bitbuffer.md R131): every
command that does not write BB_TOTAL leaves the buffer whole, from any state, and what is left appends. -/

namespace Sys2Proof.Machine

/-- Whatever value the run answers has the property; a run that raises an error or stops answers none. -/
def Yields {α : Type} (r : Run α) (P : α → Prop) : Prop := ∀ a, r = .ok a → P a

namespace Yields

variable {α β : Type} {P : α → Prop} {Q : β → Prop}

theorem ok {a : α} (h : P a) : Yields (.ok a) P := by
  rintro _ ⟨⟩
  exact h

theorem raise (k : ErrorKind) : Yields (Machine.raise k) P := fun _ h => absurd h raise_ne_ok

theorem stuck (f : Fault) : Yields (Machine.stuck f) P := fun _ h => absurd h stuck_ne_ok

theorem bind {r : Run α} {f : α → Run β} (h : Yields r P) (hf : ∀ a, P a → Yields (f a) Q) : Yields (r >>= f) Q := by
  intro b hb
  obtain ⟨a, ha, hfa⟩ := Run.bind_eq_ok.mp hb
  exact hf a (h a ha) b hfa

/-- A read is followed by a rule that meets the property whatever is read. -/
theorem read {r : Run α} {f : α → Run β} (hf : ∀ a, Yields (f a) Q) : Yields (r >>= f) Q :=
  bind (P := fun _ => True) (fun _ _ => trivial) fun a _ => hf a

theorem read_ok {a : α} {f : α → Run β} (h : Yields (f a) Q) : Yields (Except.ok a >>= f) Q := h

theorem ite {c : Prop} [Decidable c] {r r' : Run α} (h : Yields r P) (h' : Yields r' P) : Yields (if c then r else r') P := by
  by_cases hc : c
  · rw [if_pos hc]; exact h
  · rw [if_neg hc]; exact h'

/-- A check of a rule: it raises, or the rule goes on. -/
theorem check {c : Prop} [Decidable c] {k : ErrorKind} {r : Run α} (h : Yields r P) : Yields (if c then Machine.raise k else r) P :=
  ite (raise k) h

/-- A loop over a list whose every turn keeps the property. -/
theorem foldlM {f : α → β → Run α} (hf : ∀ a b, P a → Yields (f a b) P) (l : List β) {a : α} (h : P a) : Yields (l.foldlM f a) P := by
  induction l generalizing a with
  | nil => exact ok h
  | cons b l ih =>
    rw [List.foldlM_cons]
    exact bind (hf a b h) fun _ ha => ih ha

end Yields

/-- Every next state the command answers has an engine state with the property. -/
def Answers (r : Result) (P : Engine → Prop) : Prop := ∀ t, r = .next t → P t.engine

/-- The end of a rule: what the rule yields is committed, and after an error the engine state is as before (R245). -/
theorem Answers.of_rule {i : Instr} {s : State} {r : Run Engine} {P : Engine → Prop} (hi : exec i s = s.finish r) (hs : P s.engine)
    (hr : Yields r P) : Answers (exec i s) P := by
  intro t ht
  rw [hi] at ht
  rcases State.finish_eq_next ht with ⟨e, he, rfl⟩ | ⟨k, -, rfl⟩
  · exact hr e he
  · exact hs

/-! ### The procedures that leave the bit buffer alone -/

/-- The contents, the capacity and the length of the bit buffer, without the cursor (spec/10_state.md R34). -/
def Engine.buffer (e : Engine) : Memory × BitVec 17 × BitVec 20 := (e.bbMem, e.bbCap, e.bbTotal)

namespace Engine

variable {p : Params} {b : Memory × BitVec 17 × BitVec 20} {e : Engine}

theorem writeNode_buffer {i : Nat} {n : Node} (h : e.buffer = b) : Yields (e.writeNode i n) (·.buffer = b) := .ite (.ok h) (.stuck _)

theorem setSlot_buffer {i : NodeIdx} {k : Nat} (h : e.buffer = b) : Yields (e.setSlot i k) (·.buffer = b) :=
  .read fun _ => writeNode_buffer h

theorem writeHeap_buffer {k : Nat} {i : NodeIdx} (h : e.buffer = b) : Yields (e.writeHeap p k i) (·.buffer = b) := .ite (.ok h) (.stuck _)

theorem swap_buffer {i j : Nat} (h : e.buffer = b) : Yields (e.swap p i j) (·.buffer = b) :=
  .read fun _ => .read fun _ => .bind (writeHeap_buffer h) fun _ h => .bind (writeHeap_buffer h) fun _ h =>
    .bind (setSlot_buffer h) fun _ h => setSlot_buffer h

theorem siftUpLoop_buffer {fuel k : Nat} (h : e.buffer = b) : Yields (siftUpLoop p fuel e k) (·.buffer = b) := by
  induction fuel generalizing e k with
  | zero => exact .ok h
  | succ fuel ih => exact .ite (.read fun _ => .ite (.bind (swap_buffer h) fun _ h => ih h) (.ok h)) (.ok h)

theorem siftUp_buffer {k : Nat} (h : e.buffer = b) : Yields (e.siftUp p k) (·.buffer = b) := siftUpLoop_buffer h

theorem siftDownLoop_buffer {fuel k : Nat} (h : e.buffer = b) : Yields (siftDownLoop p fuel e k) (·.buffer = b) := by
  induction fuel generalizing e k with
  | zero => exact .ok h
  | succ fuel ih => exact .ite (.ok h) (.read fun _ => .read fun _ => .ite (.bind (swap_buffer h) fun _ h => ih h) (.ok h))

theorem siftDown_buffer {k : Nat} (h : e.buffer = b) : Yields (e.siftDown p k) (·.buffer = b) := siftDownLoop_buffer h

theorem enqueue_buffer {i : NodeIdx} (h : e.buffer = b) : Yields (e.enqueue p i) (·.buffer = b) :=
  .bind (writeHeap_buffer h) fun _ h => .bind (setSlot_buffer h) fun _ h => siftUp_buffer h

theorem dequeue_buffer (h : e.buffer = b) : Yields (e.dequeue p) (·.2.buffer = b) :=
  .read fun _ => .read fun _ => .bind (writeHeap_buffer h) fun _ h => .ite
    (.bind (writeHeap_buffer h) fun _ h => .bind (setSlot_buffer h) fun _ h => .bind (siftDown_buffer h) fun _ h =>
      .bind (setSlot_buffer h) fun _ h => .ok h)
    (.read_ok (.bind (setSlot_buffer h) fun _ h => .ok h))

theorem clearSlots_buffer {n : Nat} (h : e.buffer = b) : Yields (e.clearSlots p n) (·.buffer = b) :=
  .foldlM (fun _ _ h => .read fun _ => setSlot_buffer h) _ h

theorem reposition_buffer {k : Nat} (h : e.buffer = b) : Yields (e.reposition p k) (·.buffer = b) :=
  have hsift {o : Ordering} : Yields (if o = .gt then e.siftUp p k else e.siftDown p k) (·.buffer = b) :=
    .ite (siftUp_buffer h) (siftDown_buffer h)
  .ite (.read fun _ => hsift) (.read fun _ => hsift)

theorem nodeAlloc_buffer {n : Node} (h : e.buffer = b) : Yields (e.nodeAlloc n) (·.2.buffer = b) :=
  .check (.bind (writeNode_buffer h) fun _ h => .ok h)

theorem addLeaf_buffer {c : Byte} (h : e.buffer = b) : Yields (e.addLeaf p c) (·.buffer = b) :=
  .ite (.ok h) (.bind (nodeAlloc_buffer h) fun _ h => enqueue_buffer h)

theorem mergeOnce_buffer (h : e.buffer = b) : Yields (e.mergeOnce p) (·.buffer = b) :=
  .bind (dequeue_buffer h) fun _ h => .bind (dequeue_buffer h) fun _ h => .read fun _ => .read fun _ =>
    .bind (nodeAlloc_buffer h) fun _ h => enqueue_buffer h

theorem mergeAll_buffer {fuel : Nat} (h : e.buffer = b) : Yields (mergeAll p fuel e) (·.buffer = b) := by
  induction fuel generalizing e with
  | zero => exact .ok h
  | succ fuel ih => exact .ite (.bind (mergeOnce_buffer h) fun _ h => ih h) (.ok h)

theorem buildTree_buffer (h : e.buffer = b) : Yields (e.buildTree p) (·.buffer = b) :=
  .bind (.foldlM (fun _ _ h => addLeaf_buffer h) _ h) fun _ h => .bind (mergeAll_buffer h) fun _ h =>
    .bind (dequeue_buffer h) fun _ h => .ok h

theorem release_buffer {fuel i : Nat} (h : e.buffer = b) : Yields (release fuel e i) (·.buffer = b) := by
  induction fuel generalizing e i with
  | zero => exact .stuck _
  | succ fuel ih =>
    exact .read fun _ => .ite (writeNode_buffer h) (.bind (ih h) fun _ h => .bind (ih h) fun _ h => writeNode_buffer h)

theorem assign_buffer {fuel i : Nat} {c : Word64} {len : Nat} (h : e.buffer = b) : Yields (assign fuel e i c len) (·.buffer = b) := by
  induction fuel generalizing e i c len with
  | zero => exact .stuck _
  | succ fuel ih => exact .read fun _ => .ite (.ok h) (.bind (ih h) fun _ h => ih h)

theorem fillMap_buffer {n : Node} (h : e.buffer = b) : Yields (e.fillMap n) (·.buffer = b) := .ite (.ok h) (assign_buffer h)

theorem decodeLoop_buffer {n j q : Nat} (h : e.buffer = b) : Yields (decodeLoop p n e j q) (·.1.buffer = b) := by
  induction n generalizing e j q with
  | zero => exact .ok h
  | succ n ih => exact .read fun _ => .bind (.ite (.ok h) (.stuck _)) fun _ h => ih h

theorem loadByte_buffer {sp : Space} {index : Nat} (h : e.buffer = b) : Yields (e.loadByte p sp index) (·.buffer = b) :=
  .check (.read fun _ => .ok h)

theorem countBytes_buffer {input : List Byte} (h : e.buffer = b) : (input.foldl countByte e).buffer = b :=
  List.foldlRecOn (motive := fun e : Engine => e.buffer = b) input countByte h fun _ h _ _ => h

end Engine

/-! ### The commands -/

/-- The commands whose rule writes BB_TOTAL. -/
theorem bbTotal_mem_partsWritten {i : Instr} (h : Part.bbTotal ∈ partsWritten i) :
    i = .softReset ∨ (∃ n, i = .bbNew n) ∨ (∃ w n, i = .bbWrite w n) ∨ (∃ n, i = .encode n) ∨ ∃ c, i = .encSym c := by
  cases i <;> simp [partsWritten] at h ⊢

/-- A rule that leaves the bit buffer alone makes a command that does. -/
theorem Answers.sameBuffer {i : Instr} {s : State} {r : Run Engine} (hi : exec i s = s.finish r)
    (h : Yields r (·.buffer = s.engine.buffer)) : Answers (exec i s) (·.buffer = s.engine.buffer) := .of_rule hi rfl h

/-- A rule without a check, by the engine state it commits. -/
theorem Answers.commits {i : Instr} {s : State} (e : Engine) (hi : exec i s = s.finish (.ok e)) (h : e.buffer = s.engine.buffer) :
    Answers (exec i s) (·.buffer = s.engine.buffer) := .sameBuffer hi (.ok h)

theorem exec_regRead_buffer (s : State) (selector : Nat) : Answers (exec (.regRead selector) s) (·.buffer = s.engine.buffer) := by
  refine .sameBuffer rfl ?_
  cases hv : s.engine.regValue s.params selector with
  | some v => simp only [hv]; exact .ok rfl
  | none => simp only [hv]; exact .raise _

/-- Every other command leaves contents, capacity and length of the bit buffer as they are. -/
theorem exec_buffer (s : State) : ∀ i, Part.bbTotal ∉ partsWritten i → Answers (exec i s) (·.buffer = s.engine.buffer)
  | .nop, _ => .commits s.engine rfl rfl
  | .clrSticky, _ => by rintro _ ⟨⟩; rfl
  | .regRead selector, _ => exec_regRead_buffer s selector
  | .memWr _ _, _ => .sameBuffer rfl (.check (.ite (.ok rfl) (.stuck _)))
  | .memRd _, _ => .sameBuffer rfl (Engine.loadByte_buffer rfl)
  | .outRd _, _ => .sameBuffer rfl (Engine.loadByte_buffer rfl)
  | .bbReadBit, _ => .sameBuffer rfl (.check (.read fun _ => .ok rfl))
  | .bbAdvance, _ => .sameBuffer rfl (.check (.ok rfl))
  | .bbRewind, _ => .commits (s.engine.setCursor 0) rfl rfl
  | .bbSizeBits, _ => .commits (s.engine.setRes _) rfl rfl
  | .bbByteOffset, _ => .commits (s.engine.setRes _) rfl rfl
  | .bbBitOffset, _ => .commits (s.engine.setRes _) rfl rfl
  | .bbGetByte _, _ => .sameBuffer rfl (.check (.read fun _ => .ok rfl))
  | .pqInit _, _ => .sameBuffer rfl (.check (.bind (Engine.clearSlots_buffer rfl) fun _ h => .ok h))
  | .pqInsert _, _ => .sameBuffer rfl (.read fun _ => .check (.check (.check (Engine.enqueue_buffer rfl))))
  | .pqExtractMin, _ => .sameBuffer rfl (.check (.bind (Engine.dequeue_buffer rfl) fun _ h => .ok h))
  | .pqSize, _ => .commits (s.engine.setRes _) rfl rfl
  | .pqChangePriority _, _ => .sameBuffer rfl (.read fun _ => .check (Engine.reposition_buffer rfl))
  | .pqReadHeap _, _ => .sameBuffer rfl (.check (.read fun _ => .ok rfl))
  | .freqClear, _ => .commits s.engine.clearFreq rfl rfl
  | .freqSet _, _ => .sameBuffer rfl (.check (.ok rfl))
  | .freqGet _, _ => .commits (s.engine.setRes _) rfl rfl
  | .freqCount _, _ => .sameBuffer rfl (.check (.ok (Engine.countBytes_buffer rfl)))
  | .nodeNewLeaf _, _ => .sameBuffer rfl (.bind (Engine.nodeAlloc_buffer rfl) fun _ h => .ok h)
  | .nodeSetWeight _, _ => .sameBuffer rfl (.read fun _ => .check (Engine.writeNode_buffer rfl))
  | .nodeRead field _, _ => .sameBuffer rfl <| .check <| .read fun n => by
    cases n.fieldValue field with
    | some v => exact .ok rfl
    | none => exact .raise _
  | .arenaReset, _ => .commits s.engine.clearArena rfl rfl
  | .treeBuild, _ => .sameBuffer rfl (.check (Engine.buildTree_buffer rfl))
  | .treeHeight, _ => .sameBuffer rfl (.check (.read fun _ => .ok rfl))
  | .treeFree, _ => .sameBuffer rfl (.check (.bind (Engine.release_buffer rfl) fun _ h => .ok h))
  | .mapBuild, _ => .sameBuffer rfl (.check (.read fun _ => .read fun _ => .check (.bind (Engine.fillMap_buffer rfl) fun _ h => .ok h)))
  | .mapGetCode _, _ => .sameBuffer rfl (.check (.ok rfl))
  | .mapGetLen _, _ => .sameBuffer rfl (.check (.ok rfl))
  | .decode _, _ => .sameBuffer rfl (.check (.check (.bind (Engine.decodeLoop_buffer rfl) fun _ h => .ok h)))
  | .decSym, _ => .sameBuffer rfl (.check (.read fun _ => .ok rfl))
  | .softReset, h => absurd (by decide) h
  | .bbNew _, h => absurd (by simp [partsWritten]) h
  | .bbWrite _ _, h => absurd (by simp [partsWritten]) h
  | .encode _, h => absurd (by simp [partsWritten]) h
  | .encSym _, h => absurd (by simp [partsWritten]) h

/-- `bb_append` makes the stream longer by the bits it writes, or fails (R119, R121). -/
theorem Engine.bbAppend_grows {p : Params} {e : Engine} (hp : ParamsOk p) (hb : BufferOk p e) (v : Word64) (n : Nat) :
    Yields (e.bbAppend p v n) (fun e' => e.bbTotal.toNat ≤ e'.bbTotal.toNat) := by
  by_cases hn : p.bbMax < ceil8 (e.bbTotal.toNat + n)
  · rw [Engine.bbAppend_raise hn]
    exact .raise _
  · obtain ⟨e', hr, -, htotal, -⟩ := Engine.bbAppend_ok hp hb v (Nat.le_of_not_lt hn)
    rw [hr]
    exact .ok (htotal ▸ Nat.le_add_right _ _)

/-- Settles O31: BB_WRITE and ENC_SYM append, and every command that does not write BB_TOTAL leaves the buffer whole. -/
theorem otherCommandsNeverShortenTheStream : Obligations.OtherCommandsNeverShortenTheStream := by
  intro i s t hinv hnew henc hreset h
  by_cases hw : Part.bbTotal ∈ partsWritten i
  · have happend := Engine.bbAppend_grows hinv.params hinv.buffer
    rcases bbTotal_mem_partsWritten hw with rfl | ⟨n, rfl⟩ | ⟨w, n, rfl⟩ | ⟨n, rfl⟩ | ⟨c, rfl⟩
    · exact absurd rfl hreset
    · exact absurd rfl (hnew n)
    · exact Answers.of_rule rfl (Nat.le_refl _) (.check (.check (happend _ _))) t h
    · exact absurd rfl (henc n)
    · exact Answers.of_rule rfl (Nat.le_refl _) (.check (happend _ _)) t h
  · have hbuffer : t.engine.buffer = s.engine.buffer := exec_buffer s i hw t h
    have htotal : t.engine.bbTotal = s.engine.bbTotal := congrArg (fun x => x.2.2) hbuffer
    rw [htotal]

end Sys2Proof.Machine
end

section
/-! SUPPORT. The heap order (spec/42_priority_queue.md R162): what it depends on, and why the layouts that sift-up and sift-down
leave have it when only the entry that was sifted stood out of order (R152, R153). -/

namespace Sys2Proof.Machine

/-! ### What the heap order depends on -/

/-- A heap of at most one entry is ordered. -/
theorem HeapOrdered.of_size_le_one {e : Engine} (h : e.pqSize.toNat ≤ 1) : HeapOrdered e := fun k h2 hk => by omega

theorem HeapOrdered.of_pqSize_eq_zero {e : Engine} (h : e.pqSize = 0) : HeapOrdered e :=
  .of_size_le_one (by rw [h]; exact Nat.zero_le 1)

theorem HeapOrdered.congr {a b : Engine} (h : HeapOrdered a) (hs : b.pqSize = a.pqSize)
    (hw : ∀ k, 1 ≤ k → k ≤ a.pqSize.toNat → b.heapWeight k = a.heapWeight k) : HeapOrdered b := by
  intro k h2 hk
  rw [hs] at hk
  rw [hw (k / 2) (by omega) (by omega), hw k (by omega) hk]
  exact h k h2 hk

/-- The heap order reads the weights of the queued nodes alone. -/
theorem HeapOrdered.congr_queued {p : Params} {a b : Engine} (h : HeapOrdered a) (hq : QueueOk p a) (hs : b.pqSize = a.pqSize)
    (hh : b.heap = a.heap) (hw : ∀ i, a.queued i → (b.nodeAt i).weight = (a.nodeAt i).weight) : HeapOrdered b := by
  refine h.congr hs fun k h1 hk => ?_
  rw [Engine.heapWeight, Engine.heapAt_congr hh, hw _ ((hq.queued_iff _).mpr ⟨k, h1, hk, rfl⟩), Engine.heapWeight]

/-- The root of an ordered heap weighs no more than any entry. -/
theorem HeapOrdered.root_le {e : Engine} (h : HeapOrdered e) {k : Nat} (h1 : 1 ≤ k) (hk : k ≤ e.pqSize.toNat) :
    e.heapWeight 1 ≤ e.heapWeight k := by
  induction k using Nat.strong_induction_on with
  | _ k ih =>
    obtain rfl | h2 : k = 1 ∨ 2 ≤ k := by omega
    · exact Nat.le_refl _
    · exact (ih (k / 2) (by omega) (by omega) (by omega)).trans (h k h2 hk)

/-! ### One entry out of order -/

/-- The first `size` entries are ordered but for the weight at heap index `k`, which is compared with nothing: the entries below
`k` are compared with the one above it. -/
structure OrderedBut (e : Engine) (size k : Nat) : Prop where
  edge : ∀ j, 2 ≤ j → j ≤ size → j ≠ k → j / 2 ≠ k → e.heapWeight (j / 2) ≤ e.heapWeight j
  across : ∀ j, 2 ≤ k → j ≤ size → j / 2 = k → e.heapWeight (k / 2) ≤ e.heapWeight j

theorem HeapOrdered.orderedBut {e : Engine} (h : HeapOrdered e) {size : Nat} (hs : size ≤ e.pqSize.toNat) (k : Nat) :
    OrderedBut e size k where
  edge j h2 hj _ _ := h j h2 (by omega)
  across j h2 hj hjk := by
    have hlow := h k h2 (by omega)
    have hhigh := h j (by omega) (by omega)
    rw [hjk] at hhigh
    exact hlow.trans hhigh

/-- The weights may differ at heap index `k`. -/
theorem OrderedBut.congr {a b : Engine} {size k : Nat} (h : OrderedBut a size k)
    (hw : ∀ j, j ≤ size → j ≠ k → b.heapWeight j = a.heapWeight j) : OrderedBut b size k where
  edge j h2 hj hjk hhalf := by
    rw [hw (j / 2) (by omega) hhalf, hw j hj hjk]
    exact h.edge j h2 hj hjk hhalf
  across j h2 hj hjk := by
    rw [hw (k / 2) (by omega) (by omega), hw j hj (by omega)]
    exact h.across j h2 hj hjk

/-! ### Sifting up -/

theorem div_two_pow_half (k t : Nat) : k / 2 ^ t / 2 = k / 2 ^ (t + 1) := by rw [Nat.div_div_eq_div_mul, Nat.pow_succ]

theorem div_two_pow_lt {k t : Nat} (hk : 1 ≤ k) (ht : 1 ≤ t) : k / 2 ^ t < k := Nat.div_lt_self hk (Nat.one_lt_two_pow (by omega))

namespace SiftedUp

variable {a b : Engine} {i : NodeIdx} {k m : Nat}

theorem heapWeight_end (h : SiftedUp a b i k m) (hw : ∀ n, (b.nodeAt n).weight = (a.nodeAt n).weight) :
    b.heapWeight (k / 2 ^ m) = (a.nodeAt i).weight.toNat := by
  obtain ⟨-, -, hend, -, -⟩ := h
  rw [Engine.heapWeight, hend, hw]

theorem heapWeight_path (h : SiftedUp a b i k m) (hw : ∀ n, (b.nodeAt n).weight = (a.nodeAt n).weight) {t : Nat} (ht : t < m) :
    b.heapWeight (k / 2 ^ t) = a.heapWeight (k / 2 ^ (t + 1)) := by
  obtain ⟨-, -, -, hpath, -⟩ := h
  rw [Engine.heapWeight, hpath t ht, hw, Engine.heapWeight]

theorem heapWeight_off (h : SiftedUp a b i k m) (hw : ∀ n, (b.nodeAt n).weight = (a.nodeAt n).weight) {j : Nat}
    (hj : ∀ t, t ≤ m → j ≠ k / 2 ^ t) : b.heapWeight j = a.heapWeight j := by
  obtain ⟨-, -, -, -, hoff⟩ := h
  rw [Engine.heapWeight, hoff j hj, hw, Engine.heapWeight]

/-- At every place an ancestor left, a lighter entry or one as heavy stands now: its own parent, or the sifted node (R152). -/
theorem heapWeight_le (h : SiftedUp a b i k m) (hw : ∀ n, (b.nodeAt n).weight = (a.nodeAt n).weight) (hk : 1 ≤ k) {size : Nat}
    (hks : k ≤ size) (ho : OrderedBut a size k) {t : Nat} (h1 : 1 ≤ t) (ht : t ≤ m) :
    b.heapWeight (k / 2 ^ t) ≤ a.heapWeight (k / 2 ^ t) := by
  have ⟨hmoved, _⟩ := h
  obtain htm | rfl := Nat.lt_or_eq_of_le ht
  · have hpos := (hmoved t htm).1
    have hlt := div_two_pow_lt hk h1
    have hhalf := div_two_pow_half k t
    rw [h.heapWeight_path hw htm, ← hhalf]
    exact ho.edge _ (by omega) (by omega) (by omega) (by omega)
  · obtain ⟨u, rfl⟩ : ∃ u, t = u + 1 := ⟨t - 1, by omega⟩
    rw [h.heapWeight_end hw]
    exact (hmoved u (Nat.lt_succ_self u)).2.le

/-- The layout sift-up leaves is ordered when only the sifted entry was out of order and no entry below it is lighter (R152). -/
theorem heapOrdered (h : SiftedUp a b i k m) (hw : ∀ n, (b.nodeAt n).weight = (a.nodeAt n).weight) {size : Nat}
    (hs : b.pqSize.toNat = size) (hk : 1 ≤ k) (hks : k ≤ size) (ho : OrderedBut a size k)
    (hbelow : ∀ j, j ≤ size → j / 2 = k → (a.nodeAt i).weight.toNat ≤ a.heapWeight j) : HeapOrdered b := by
  have ⟨hmoved, hstop, _⟩ := h
  intro j h2 hj
  rw [hs] at hj
  by_cases hon : ∃ t, t ≤ m ∧ j = k / 2 ^ t
  · obtain ⟨t, ht, rfl⟩ := hon
    have hhalf := div_two_pow_half k t
    rw [hhalf]
    obtain htm | rfl := Nat.lt_or_eq_of_le ht
    · -- an ancestor that moved down, under what stands in its old place
      rw [h.heapWeight_path hw htm]
      exact h.heapWeight_le hw hk hks ho (Nat.succ_pos t) htm
    · -- the sifted node, under the ancestor it stopped at
      rw [h.heapWeight_end hw, h.heapWeight_off hw fun u hu heq => ?_]
      · exact hstop.resolve_left (by omega)
      · have hmono : k / 2 ^ t ≤ k / 2 ^ u := Nat.div_le_div_left (Nat.pow_le_pow_right Nat.two_pos hu) (Nat.two_pow_pos u)
        omega
  have hoff : ∀ t, t ≤ m → j ≠ k / 2 ^ t := fun t ht hjt => hon ⟨t, ht, hjt⟩
  have hjk : j ≠ k := by simpa using hoff 0 (Nat.zero_le m)
  rw [h.heapWeight_off hw hoff]
  by_cases hpon : ∃ t, t ≤ m ∧ j / 2 = k / 2 ^ t
  · obtain ⟨t, ht, hjt⟩ := hpon
    obtain rfl | h1 := Nat.eq_zero_or_pos t
    · -- an entry below the starting index
      have hjk2 : j / 2 = k := by simpa using hjt
      obtain rfl | h0 := Nat.eq_zero_or_pos m
      · rw [hjt, h.heapWeight_end hw]
        exact hbelow j hj hjk2
      · have hpos := (hmoved 0 h0).1
        rw [hjt, h.heapWeight_path hw h0]
        simpa using ho.across j (by simpa using by omega) hj hjk2
    · -- the other child of an ancestor that moved
      have hlt := div_two_pow_lt hk h1
      have hedge := ho.edge j h2 hj hjk (by omega)
      rw [hjt] at hedge ⊢
      exact (h.heapWeight_le hw hk hks ho h1 ht).trans hedge
  · have hpoff : ∀ t, t ≤ m → j / 2 ≠ k / 2 ^ t := fun t ht hjt => hpon ⟨t, ht, hjt⟩
    rw [h.heapWeight_off hw hpoff]
    exact ho.edge j h2 hj hjk (by simpa using hpoff 0 (Nat.zero_le m))

end SiftedUp

/-! ### Sifting down -/

namespace Engine

/-- The child sift-down compares with is at most as heavy as each child there is (R153). -/
theorem lighterChild_weight_le (e : Engine) {size k j : Nat} (h2 : 2 ≤ j) (hj : j ≤ size) (hk : j / 2 = k) :
    e.heapWeight (e.lighterChild size k) ≤ e.heapWeight j := by
  obtain rfl | rfl : j = 2 * k ∨ j = 2 * k + 1 := by omega
  all_goals
    unfold Engine.lighterChild
    split <;> omega

theorem downPath_half (e : Engine) (size k j : Nat) : e.downPath size k (j + 1) / 2 = e.downPath size k j := by
  rw [Engine.downPath]
  rcases e.lighterChild_cases size (e.downPath size k j) with h | h <;> omega

theorem downPath_strictMono (e : Engine) (size : Nat) {k : Nat} (hk : 1 ≤ k) : StrictMono (e.downPath size k) :=
  strictMono_nat_of_lt_succ fun j => by
    have := e.downPath_half size k j
    have := e.downPath_ge size k j
    omega

/-- A child of an entry on the way down is on the way itself only as the next entry. -/
theorem downPath_child (e : Engine) {size k j t u : Nat} (hk : 1 ≤ k) (hjt : j / 2 = e.downPath size k t)
    (hju : j = e.downPath size k u) : u = t + 1 := by
  have hge := e.downPath_ge size k t
  cases u with
  | zero =>
    have hroot : e.downPath size k 0 = k := rfl
    omega
  | succ u => rw [(e.downPath_strictMono size hk).injective ((e.downPath_half size k u).symm.trans (hju ▸ hjt))]

end Engine

namespace SiftedDown

variable {a b : Engine} {i : NodeIdx} {size k m : Nat}

theorem heapWeight_end (h : SiftedDown a b i size k m) (hw : ∀ n, (b.nodeAt n).weight = (a.nodeAt n).weight) :
    b.heapWeight (a.downPath size k m) = (a.nodeAt i).weight.toNat := by
  obtain ⟨-, -, hend, -, -⟩ := h
  rw [Engine.heapWeight, hend, hw]

theorem heapWeight_path (h : SiftedDown a b i size k m) (hw : ∀ n, (b.nodeAt n).weight = (a.nodeAt n).weight) {t : Nat} (ht : t < m) :
    b.heapWeight (a.downPath size k t) = a.heapWeight (a.downPath size k (t + 1)) := by
  obtain ⟨-, -, -, hpath, -⟩ := h
  rw [Engine.heapWeight, hpath t ht, hw, Engine.heapWeight]

theorem heapWeight_off (h : SiftedDown a b i size k m) (hw : ∀ n, (b.nodeAt n).weight = (a.nodeAt n).weight) {j : Nat}
    (hjs : j ≤ size) (hj : ∀ t, t ≤ m → j ≠ a.downPath size k t) : b.heapWeight j = a.heapWeight j := by
  obtain ⟨-, -, -, -, hoff⟩ := h
  rw [Engine.heapWeight, hoff j hjs hj, hw, Engine.heapWeight]

/-- At every place an entry left upwards, a heavier entry or one as heavy stands now: its own child, or the sifted node (R153). -/
theorem le_heapWeight (h : SiftedDown a b i size k m) (hw : ∀ n, (b.nodeAt n).weight = (a.nodeAt n).weight) (hk : 1 ≤ k)
    (ho : OrderedBut a size k) {t : Nat} (h1 : 1 ≤ t) (ht : t ≤ m) :
    a.heapWeight (a.downPath size k t) ≤ b.heapWeight (a.downPath size k t) := by
  have ⟨hmoved, _⟩ := h
  obtain htm | rfl := Nat.lt_or_eq_of_le ht
  · have hroot : a.downPath size k 0 = k := rfl
    have hbelow := a.downPath_strictMono size hk h1
    have hnext := a.downPath_strictMono size hk (Nat.lt_succ_self t)
    have hhalf := a.downPath_half size k t
    rw [h.heapWeight_path hw htm]
    nth_rw 1 [← hhalf]
    exact ho.edge _ (by omega) (a.lighterChild_le (hmoved t htm).1) (by omega) (by omega)
  · obtain ⟨u, rfl⟩ : ∃ u, t = u + 1 := ⟨t - 1, by omega⟩
    rw [h.heapWeight_end hw]
    exact (hmoved u (Nat.lt_succ_self u)).2.le

/-- The layout sift-down leaves is ordered when only the sifted entry was out of order and the entry above it is no heavier: each
entry that moved up was the lighter child (R153). -/
theorem heapOrdered (h : SiftedDown a b i size k m) (hw : ∀ n, (b.nodeAt n).weight = (a.nodeAt n).weight)
    (hs : b.pqSize.toNat = size) (hk : 1 ≤ k) (ho : OrderedBut a size k)
    (habove : 2 ≤ k → a.heapWeight (k / 2) ≤ (a.nodeAt i).weight.toNat) : HeapOrdered b := by
  have ⟨hmoved, hstop, _⟩ := h
  intro j h2 hj
  rw [hs] at hj
  by_cases hpon : ∃ t, t ≤ m ∧ j / 2 = a.downPath size k t
  · obtain ⟨t, ht, hjt⟩ := hpon
    have hlight : a.heapWeight (a.downPath size k (t + 1)) ≤ a.heapWeight j := a.lighterChild_weight_le h2 hj hjt
    rw [hjt]
    obtain htm | rfl := Nat.lt_or_eq_of_le ht
    · -- below an entry that moved up: what stands in its old place, or its former sibling
      rw [h.heapWeight_path hw htm]
      by_cases hon : j = a.downPath size k (t + 1)
      · exact hon ▸ h.le_heapWeight hw hk ho (Nat.succ_pos t) htm
      · rw [h.heapWeight_off hw hj fun u _ hu => hon (a.downPath_child hk hjt hu ▸ hu)]
        exact hlight
    · -- below the sifted node, where it stopped
      rw [h.heapWeight_end hw, h.heapWeight_off hw hj fun u hu hju => by have := a.downPath_child hk hjt hju; omega]
      exact (hstop.resolve_left (by omega)).trans hlight
  have hpoff : ∀ t, t ≤ m → j / 2 ≠ a.downPath size k t := fun t ht hjt => hpon ⟨t, ht, hjt⟩
  have hjk2 : j / 2 ≠ k := hpoff 0 (Nat.zero_le m)
  rw [h.heapWeight_off hw (by omega) hpoff]
  by_cases hjk : j = k
  · -- the starting index itself
    subst hjk
    obtain rfl | h0 := Nat.eq_zero_or_pos m
    · exact (habove h2).trans_eq (h.heapWeight_end hw).symm
    · exact (ho.across _ h2 (a.lighterChild_le (hmoved 0 h0).1) (a.downPath_half size j 0)).trans_eq (h.heapWeight_path hw h0).symm
  · rw [h.heapWeight_off hw hj]
    · exact ho.edge j h2 hj hjk hjk2
    · intro u hu hju
      cases u with
      | zero => exact hjk hju
      | succ u => exact hpoff u (by omega) (by rw [hju, a.downPath_half])

end SiftedDown

end Sys2Proof.Machine
end

section
/-! SUPPORT. Settles what the priority-queue commands answer and how they fail (spec/42_priority_queue.md R156 to R161): after its
checks each command is one heap procedure. -/

namespace Sys2Proof.Machine

/-! ### The checks on an operand that names a node -/

/-- A rule goes on with the allocated node its operand names (R157, R161). -/
theorem Engine.validNode_bind {α : Type} {e : Engine} {node : Nat} {f : Node → Run α} (hle : node ≤ 510)
    (hv : (e.nodeAt (BitVec.ofNat 9 node)).valid = true) : e.validNode node >>= f = f (e.nodeAt (BitVec.ofNat 9 node)) := by
  rcases e.validNode_cases node with ⟨hlt | hfree, -⟩ | ⟨-, -, hr⟩
  · omega
  · exact absurd (hv.symm.trans hfree) (by decide)
  · rw [hr, Run.ok_bind]

/-- A rule whose operand names no allocated node raises InvalidArgument (R157, R161). -/
theorem Engine.validNode_bind_raise {α : Type} {e : Engine} {node : Nat} {f : Node → Run α}
    (h : 510 < node ∨ (e.nodeAt (BitVec.ofNat 9 node)).valid = false) : e.validNode node >>= f = raise .invalidArgument := by
  rcases e.validNode_cases node with ⟨-, hr⟩ | ⟨hle, hv, -⟩
  · rw [hr, Run.raise_bind]
  · rcases h with hlt | hfree
    · omega
    · exact absurd (hv.symm.trans hfree) (by decide)

/-! ### PQ_INIT and PQ_INSERT -/

/-- The slot loop over the whole queue gives every node slot 0: a node outside the heap has it already (R156, R162). -/
theorem QueueOk.clearSlots_ok {p : Params} (hp : ParamsOk p) {e : Engine} (hq : QueueOk p e) :
    ∃ e', e.clearSlots p e.pqSize.toNat = .ok e' ∧ e' = { e with nodes := e'.nodes } ∧
      ∀ i, e'.nodeAt i = { e.nodeAt i with heapSlot := 0 } := by
  obtain ⟨e', hr, hf, hin, hout⟩ := Engine.clearSlots_ok hp.pqMax_le hq.entries (hq.size_le.trans hq.cap_le) (Nat.le_refl _)
  refine ⟨e', hr, hf, fun i => ?_⟩
  by_cases hi : e.inHeap i
  · exact hin i hi
  · have hslot : (e.nodeAt i).heapSlot = 0 := not_not.mp (mt (hq.queued_iff i).mp hi)
    rw [hout i hi, ← hslot]

/-- A full queue refuses a node that passes the checks before (R157). -/
theorem pqInsert_full {s : State} {node : Nat} (hle : node ≤ 510) (hv : (s.engine.nodeAt (BitVec.ofNat 9 node)).valid = true)
    (htree : (s.engine.nodeAt (BitVec.ofNat 9 node)).inTree = false) (hnew : ¬ s.engine.queued (BitVec.ofNat 9 node))
    (hfull : s.engine.pqSize = s.engine.pqCap) : FailsWith (.pqInsert node) s 6 :=
  .of_rule .capacityExceeded rfl <| (Engine.validNode_bind hle hv).trans <|
    (if_neg (ne_true_of_eq_false htree)).trans <| (if_neg hnew).trans (if_pos hfull)

/-- Settles O32: the slot loop, then the cleared heap and the new capacity; with capacity 0 the empty queue is full. -/
theorem pqInitEmptiesTheQueue : Obligations.PqInitEmptiesTheQueue := by
  intro s capacity hp hq
  refine ⟨fun hle => ?_, fun hlt => .of_rule .allocationFailure rfl (if_pos hlt)⟩
  obtain ⟨e, hr, hf, hn⟩ := hq.clearSlots_ok hp
  have hcap : (BitVec.ofNat 9 capacity).toNat = capacity := slot_toNat (hle.trans hp.pqMax_le)
  refine ⟨{ e.clearHeap with pqCap := BitVec.ofNat 9 capacity }, .of_rule rfl ?_, ?_, hcap, e.heapAt_clearHeap, hn, ?_⟩
  · refine (if_neg (Nat.not_lt.mpr hle)).trans ?_
    rw [hr, Run.ok_bind]
  · exact congrArg (fun x : Engine => ({ x.clearHeap with pqCap := BitVec.ofNat 9 capacity } : Engine)) hf
  · rintro rfl u node hu hnode hv htree
    rw [← hu] at hv htree
    refine pqInsert_full hnode hv htree (fun hqueued => hqueued ?_) ?_ <;> rw [hu]
    · exact congrArg Node.heapSlot (hn _)
    · rfl

/-- Settles O33: the four checks of R157 in order, then `pq_insert`. -/
theorem pqInsertSiftsUp : Obligations.PqInsertSiftsUp := by
  intro s node hp hq
  refine ⟨fun hle hv htree hnew hroom => ?_, fun hbad => .of_rule .invalidArgument rfl (Engine.validNode_bind_raise hbad),
    fun hle hv hrefused => .of_rule .invalidArgument rfl ((Engine.validNode_bind hle hv).trans ?_), pqInsert_full⟩
  · have hlt : s.engine.pqSize.toNat < s.engine.pqCap.toNat := Nat.lt_of_le_of_ne hq.size_le fun h => hroom (BitVec.eq_of_toNat_eq h)
    obtain ⟨e, m, hr, hf, hsize, hqe, hn, hqueued, hsifted⟩ := Engine.enqueue_ok hp.pqMax_le hq hv hnew hlt
    refine ⟨e, .of_rule rfl ?_, hf, hsize, hqe, hn, hqueued, m, hsifted⟩
    exact (Engine.validNode_bind hle hv).trans <| (if_neg (ne_true_of_eq_false htree)).trans <|
      (if_neg hnew).trans <| (if_neg hroom).trans hr
  · by_cases htree : (s.engine.nodeAt (BitVec.ofNat 9 node)).inTree = true
    · exact if_pos htree
    · exact (if_neg htree).trans (if_pos (hrefused.resolve_left htree))

/-! ### PQ_EXTRACT_MIN -/

/-- PQ_EXTRACT_MIN of a queue that is not empty is `pq_extract` with its answer in RES (R158). -/
theorem pqExtractMin_completes {s : State} {e : Engine} {m : NodeIdx} (hne : 1 ≤ s.engine.pqSize.toNat)
    (hr : s.engine.dequeue s.params = .ok (m, e)) : Completes .pqExtractMin s { e with res := m.setWidth 64 } := by
  have h0 : s.engine.pqSize ≠ 0 := fun h => by rw [h] at hne; exact absurd hne (by decide)
  refine .of_rule rfl ((if_neg h0).trans ?_)
  rw [hr, Run.ok_bind, Engine.setRes_toNat]

/-- Settles O34: `pq_extract` leaves the reduced heap sifted down. -/
theorem pqExtractMinSiftsDown : Obligations.PqExtractMinSiftsDown := by
  intro s hp hq
  refine ⟨fun hne => ?_, fun h0 => .of_rule .emptyStructure rfl (if_pos h0)⟩
  obtain ⟨e, hr, hf, hsize, hqe, hn, hqueued, hsifted⟩ := Engine.dequeue_ok hp.pqMax_le hq hne
  refine ⟨_, pqExtractMin_completes hne hr, ?_, hsize, hqe.congr rfl rfl rfl (fun _ => rfl) (fun _ _ => rfl), hn, hqueued, hsifted⟩
  exact congrArg (fun x : Engine => ({ x with res := (s.engine.heapAt 1).setWidth 64 } : Engine)) hf

/-- Settles O35: the answer is the root, and every queued node stands somewhere in the ordered heap. -/
theorem pqExtractMinAnswersAMinimum : Obligations.PqExtractMinAnswersAMinimum := by
  intro s hp hq hord hne
  obtain ⟨e, hr, -⟩ := Engine.dequeue_ok hp.pqMax_le hq hne
  refine ⟨_, s.engine.heapAt 1, pqExtractMin_completes hne hr, rfl, (hq.queued_iff _).mpr ⟨1, Nat.le_refl 1, hne, rfl⟩, fun i hi => ?_⟩
  obtain ⟨k, h1, hk, rfl⟩ := (hq.queued_iff i).mp hi
  exact hord.root_le h1 hk

/-! ### PQ_CHANGE_PRIORITY -/

/-- Everything the sifting of PQ_CHANGE_PRIORITY can do at a heap index of the queue: up under a strictly heavier parent, else down
(R161). -/
theorem Engine.reposition_ok {p : Params} (hp : p.pqMax ≤ 511) {e : Engine} (he : EntriesOk e) (hs : e.pqSize.toNat ≤ p.pqMax) {k : Nat}
    (h1 : 1 ≤ k) (hk : k ≤ e.pqSize.toNat) :
    ∃ e', e.reposition p k = .ok e' ∧ Moved e e' ∧ EntriesOk e' ∧
      if 1 < k ∧ e.heapWeight k < e.heapWeight (k / 2) then ∃ m, SiftedUp e e' (e.heapAt k) k m
      else ∃ m, SiftedDown e e' (e.heapAt k) e.pqSize.toNat k m := by
  obtain ⟨u, mu, hru, hmu, heu, hup⟩ := Engine.siftUp_ok hp he hs h1 hk
  obtain ⟨d, md, hrd, hmd, hed, hdown⟩ := Engine.siftDown_ok hp he hs h1 hk
  by_cases hgt : 1 < k ∧ e.heapWeight k < e.heapWeight (k / 2)
  · refine ⟨u, ?_, hmu, heu, (if_pos hgt).mpr ⟨mu, hup⟩⟩
    rw [Engine.reposition, if_pos hgt.1, Engine.cmpHeap_ok he hp hs (by omega) (by omega) h1 hk, Run.ok_bind]
    exact (if_pos (compare_eq_gt.mpr hgt.2)).trans hru
  · refine ⟨d, ?_, hmd, hed, (if_neg hgt).mpr ⟨md, hdown⟩⟩
    rw [Engine.reposition]
    by_cases hlt : 1 < k
    · rw [if_pos hlt, Engine.cmpHeap_ok he hp hs (by omega) (by omega) h1 hk, Run.ok_bind]
      exact (if_neg (mt compare_eq_gt.mp fun h => hgt ⟨hlt, h⟩)).trans hrd
    · rw [if_neg hlt, Run.ok_bind]
      exact (if_neg (by decide)).trans hrd

/-- A queued node has its slot in 1 to PQ_SIZE and stands there (R162). -/
theorem QueueOk.slot_range {p : Params} {e : Engine} (h : QueueOk p e) {i : NodeIdx} (hi : e.queued i) :
    1 ≤ (e.nodeAt i).heapSlot.toNat ∧ (e.nodeAt i).heapSlot.toNat ≤ e.pqSize.toNat ∧ e.heapAt (e.nodeAt i).heapSlot.toNat = i :=
  ⟨Nat.one_le_iff_ne_zero.mpr fun h0 => hi (BitVec.eq_of_toNat_eq h0), h.slot_entry i hi⟩

/-- PQ_CHANGE_PRIORITY of a queued node sifts at the node's slot (R161). -/
theorem pqChangePriority_rule {s : State} {node : Nat} (hle : node ≤ 510) (hv : (s.engine.nodeAt (BitVec.ofNat 9 node)).valid = true)
    (hi : s.engine.queued (BitVec.ofNat 9 node)) : exec (.pqChangePriority node) s =
      s.finish (s.engine.reposition s.params (s.engine.nodeAt (BitVec.ofNat 9 node)).heapSlot.toNat) :=
  congrArg s.finish ((Engine.validNode_bind hle hv).trans (if_neg hi))

/-- Settles O36: the two checks of R161 in order, then the sifting at the node's slot. -/
theorem pqChangePrioritySiftsTheNode : Obligations.PqChangePrioritySiftsTheNode := by
  intro s node hp hq
  refine ⟨fun hle hv hi => ?_, fun hbad => .of_rule .invalidArgument rfl (Engine.validNode_bind_raise hbad),
    fun hle hv hi => .of_rule .invalidArgument rfl ((Engine.validNode_bind hle hv).trans (if_pos (not_not.mp hi)))⟩
  obtain ⟨h1, hk, hat⟩ := hq.slot_range hi
  obtain ⟨e, hr, hm, he, hsifted⟩ := Engine.reposition_ok hp.pqMax_le hq.entries (hq.size_le.trans hq.cap_le) h1 hk
  have hqe : QueueOk s.params e := QueueOk.of_moved hm he hq.size_le hq.cap_le hq.vacant fun j => (hq.queued_iff j).mp
  rw [hat] at hsifted
  refine ⟨e, .of_rule (pqChangePriority_rule hle hv hi) hr, hm.frame, hqe, hm.nodes, fun j => ?_, hsifted⟩
  rw [hqe.queued_iff, hm.entries, hq.queued_iff]

/-! ### PQ_SIZE and PQ_READ_HEAP -/

/-- Settles O37: an index in 1 to PQ_SIZE names a heap entry, which is read into RES. -/
theorem pqSizeAndReadHeapReadTheQueue : Obligations.PqSizeAndReadHeapReadTheQueue := by
  intro s
  refine ⟨.of_rule rfl (congrArg Except.ok (s.engine.setRes_toNat s.engine.pqSize)),
    fun k => ⟨fun h1 hk hp hq => .of_rule rfl ((if_neg (by omega)).trans ?_),
      fun hbad => .of_rule .invalidArgument rfl (if_pos hbad)⟩⟩
  rw [Engine.readHeap_ok _ h1 (hk.trans (hq.size_le.trans hq.cap_le)) hp.pqMax_le, Run.ok_bind, Engine.setRes_toNat]

end Sys2Proof.Machine
end

section
/-! SUPPORT. Settles that the heap order is kept by every command but NODE_SET_WEIGHT, and restored after one (spec/42_priority_queue.md
R162, spec/70_reset_and_hazards.md R280): most commands leave weights and heap alone, some leave an empty queue, and the others sift. -/

namespace Sys2Proof.Machine

/-! ### The procedures that leave the nodes and the heap alone -/

/-- The NODE table, HEAP and PQ_SIZE: all the heap order reads (R162). -/
def Engine.heapData (e : Engine) : Vector Node 511 × Vector NodeIdx 511 × BitVec 9 := (e.nodes, e.heap, e.pqSize)

theorem HeapOrdered.congr_heapData {a b : Engine} (h : HeapOrdered a) (hd : b.heapData = a.heapData) : HeapOrdered b := by
  obtain ⟨hn, hh, hs⟩ : b.nodes = a.nodes ∧ b.heap = a.heap ∧ b.pqSize = a.pqSize := by simpa [Engine.heapData] using hd
  refine h.congr hs fun k _ _ => ?_
  rw [Engine.heapWeight, Engine.heapAt_congr hh, Engine.nodeAt_congr hn, Engine.heapWeight]

namespace Engine

variable {p : Params} {d : Vector Node 511 × Vector NodeIdx 511 × BitVec 9} {e : Engine}

theorem withSpace_heapData (sp : Space) (m : Memory) : (e.withSpace sp m).heapData = e.heapData := by cases sp <;> rfl

theorem memWrite_heapData {sp : Space} {idx : Nat} {v : Byte} (h : e.heapData = d) : Yields (e.memWrite p sp idx v) (·.heapData = d) :=
  .ite (.ok ((withSpace_heapData _ _).trans h)) (.stuck _)

theorem loadByte_heapData {sp : Space} {index : Nat} (h : e.heapData = d) : Yields (e.loadByte p sp index) (·.heapData = d) :=
  .check (.read fun _ => .ok h)

theorem writeBits_heapData {v : Word64} {n q : Nat} (h : e.heapData = d) : Yields (writeBits p v n e q) (·.heapData = d) := by
  induction n generalizing e q with
  | zero => exact .ok h
  | succ n ih => exact .bind (.read fun _ => memWrite_heapData h) fun _ h => ih h

theorem bbAppend_heapData {v : Word64} {n : Nat} (h : e.heapData = d) : Yields (e.bbAppend p v n) (·.heapData = d) :=
  .check (.read fun _ => .bind (writeBits_heapData h) fun _ h => .ok h)

theorem assign_heapData {fuel i : Nat} {c : Word64} {len : Nat} (h : e.heapData = d) : Yields (assign fuel e i c len) (·.heapData = d) := by
  induction fuel generalizing e i c len with
  | zero => exact .stuck _
  | succ fuel ih => exact .read fun _ => .ite (.ok h) (.bind (ih h) fun _ h => ih h)

theorem fillMap_heapData {n : Node} (h : e.heapData = d) : Yields (e.fillMap n) (·.heapData = d) := .ite (.ok h) (assign_heapData h)

theorem decodeLoop_heapData {n j q : Nat} (h : e.heapData = d) : Yields (decodeLoop p n e j q) (·.1.heapData = d) := by
  induction n generalizing e j q with
  | zero => exact .ok h
  | succ n ih => exact .read fun _ => .bind (memWrite_heapData h) fun _ h => ih h

theorem countBytes_heapData {input : List Byte} (h : e.heapData = d) : (input.foldl countByte e).heapData = d :=
  List.foldlRecOn (motive := fun e : Engine => e.heapData = d) input countByte h fun _ h _ _ => h

end Engine

/-! ### The commands that move or change nodes -/

/-- A run known to end well yields what it ends with. -/
theorem Ends.yields {α : Type} {r : Run α} {P : α → Prop} (h : Ends r P) : Yields r P := by
  rcases h with ⟨a, rfl, ha⟩ | ⟨k, rfl⟩
  · exact .ok ha
  · exact .raise k

/-- A command whose rule fails or leaves an ordered heap keeps the heap order. -/
theorem HeapOrdered.of_ends {i : Instr} {s : State} {r : Run Engine} (h : HeapOrdered s.engine) (hi : exec i s = s.finish r)
    (hr : Ends r HeapOrdered) : Answers (exec i s) HeapOrdered := .of_rule hi h hr.yields

/-- A new last entry sifted up: nothing stands below it (R154). -/
theorem Engine.enqueue_heapOrdered {p : Params} (hp : p.pqMax ≤ 511) {e : Engine} (h : HeapOrdered e) (hq : QueueOk p e) {i : NodeIdx}
    (hv : (e.nodeAt i).valid = true) (hn : ¬ e.queued i) (hroom : e.pqSize.toNat < e.pqCap.toNat) : Ends (e.enqueue p i) HeapOrdered := by
  obtain ⟨e', m, hr, -, hsize, -, hnode, -, hsifted⟩ := Engine.enqueue_ok hp hq hv hn hroom
  have ho : OrderedBut e (e.pqSize.toNat + 1) (e.pqSize.toNat + 1) :=
    ⟨fun j h2 hj hjk _ => h j h2 (by omega), fun j _ hj hjk => absurd hjk (by omega)⟩
  exact .of_ok hr (hsifted.heapOrdered (fun n => by rw [hnode]) hsize (by omega) (Nat.le_refl _) ho fun j hj hjk => absurd hjk (by omega))

/-- A new node stands at an index that was empty, so not queued (spec/43_tree_builder.md R170). -/
theorem Engine.nodeAlloc_heapOrdered {p : Params} {e : Engine} (h : HeapOrdered e) (hq : QueueOk p e) (ha : ArenaOk e) (n : Node) :
    Ends (e.nodeAlloc n) (fun r => HeapOrdered r.2) := by
  by_cases hfull : e.nodeCount = 511
  · rw [Engine.nodeAlloc_raise hfull]
    exact .raise _
  have hlt : e.nodeCount.toNat < 511 := Nat.lt_of_le_of_ne ha.count_le fun heq => hfull (BitVec.eq_of_toNat_eq heq)
  obtain ⟨e', hr, hf, -, hidx, hat⟩ := Engine.nodeAlloc_ok hlt n
  refine .of_ok hr (h.congr_queued hq (by rw [hf]) (by rw [hf]) fun i hi => ?_)
  rw [hat, if_neg]
  rintro rfl
  exact not_queued_of_eq_empty (ha.unallocated _ hidx.ge) hi

/-- The last entry sifted down from the root of the reduced heap: nothing stands above it (R155). -/
theorem Engine.dequeue_heapOrdered {p : Params} (hp : p.pqMax ≤ 511) {e : Engine} (h : HeapOrdered e) (hq : QueueOk p e)
    (hne : 1 ≤ e.pqSize.toNat) : Ends (e.dequeue p) (fun r => HeapOrdered r.2) := by
  obtain ⟨e', hr, -, hsize, -, hnode, -, hsifted⟩ := Engine.dequeue_ok hp hq hne
  refine .of_ok hr ?_
  by_cases h2 : 2 ≤ e.pqSize.toNat
  · obtain ⟨m, hm⟩ := hsifted h2
    exact hm.heapOrdered (fun n => by rw [hnode]) hsize (Nat.le_refl 1) (h.orderedBut (Nat.sub_le _ 1) 1)
      fun h1 => absurd h1 (by decide)
  · exact .of_size_le_one (hsize.trans_le (by omega))

/-- Sifting restores the order of a heap in which only the entry at `k` stands out of order: up when the entry above is strictly
heavier, so that all below are heavier too, else down (R161). -/
theorem Engine.reposition_heapOrdered {p : Params} (hp : p.pqMax ≤ 511) {e : Engine} (hq : QueueOk p e) {k : Nat} (h1 : 1 ≤ k)
    (hk : k ≤ e.pqSize.toNat) (ho : OrderedBut e e.pqSize.toNat k) :
    ∃ e', e.reposition p k = .ok e' ∧ HeapOrdered e' := by
  obtain ⟨e', hr, hm, -, hsifted⟩ := Engine.reposition_ok hp hq.entries (hq.size_le.trans hq.cap_le) h1 hk
  refine ⟨e', hr, ?_⟩
  have hsize : e'.pqSize.toNat = e.pqSize.toNat := by rw [hm.pqSize]
  by_cases hup : 1 < k ∧ e.heapWeight k < e.heapWeight (k / 2)
  · rw [if_pos hup] at hsifted
    obtain ⟨m, hs⟩ := hsifted
    exact hs.heapOrdered hm.weight hsize h1 hk ho fun j hj hjk => hup.2.le.trans (ho.across j hup.1 hj hjk)
  · rw [if_neg hup] at hsifted
    obtain ⟨m, hs⟩ := hsifted
    exact hs.heapOrdered hm.weight hsize h1 ho fun h2 => Nat.le_of_not_lt fun hlt => hup ⟨h2, hlt⟩

variable {s : State}

theorem pqInit_heapOrdered (hinv : Inv s) (h : HeapOrdered s.engine) (capacity : Nat) :
    Answers (exec (.pqInit capacity) s) HeapOrdered :=
  h.of_ends rfl <| .check fun _ => by
    obtain ⟨e, hr, -⟩ := hinv.queue.clearSlots_ok hinv.params
    exact Ends.bind (.of_ok hr trivial) fun _ (_ : True) => .ok (.of_pqSize_eq_zero rfl)

theorem pqInsert_heapOrdered (hinv : Inv s) (h : HeapOrdered s.engine) (node : Nat) : Answers (exec (.pqInsert node) s) HeapOrdered :=
  h.of_ends rfl <| Engine.validNode_ends fun _ hv => .check fun _ => .check fun hnew => .check fun hfull =>
    Engine.enqueue_heapOrdered hinv.params.pqMax_le h hinv.queue hv hnew
      (Nat.lt_of_le_of_ne hinv.queue.size_le fun heq => hfull (BitVec.eq_of_toNat_eq heq))

theorem pqExtractMin_heapOrdered (hinv : Inv s) (h : HeapOrdered s.engine) : Answers (exec .pqExtractMin s) HeapOrdered :=
  h.of_ends rfl <| .check fun hne =>
    (Engine.dequeue_heapOrdered hinv.params.pqMax_le h hinv.queue
      (Nat.one_le_iff_ne_zero.mpr fun h0 => hne (BitVec.eq_of_toNat_eq h0))).bind fun _ hr => .ok (hr.congr_heapData rfl)

theorem pqChangePriority_heapOrdered (hinv : Inv s) (h : HeapOrdered s.engine) (node : Nat) :
    Answers (exec (.pqChangePriority node) s) HeapOrdered :=
  h.of_ends rfl <| Engine.validNode_ends fun _ _ => .check fun hslot => by
    obtain ⟨h1, hk, -⟩ := hinv.queue.slot_range hslot
    obtain ⟨e, hr, he⟩ := Engine.reposition_heapOrdered hinv.params.pqMax_le hinv.queue h1 hk (h.orderedBut (Nat.le_refl _) _)
    exact .of_ok hr he

theorem nodeNewLeaf_heapOrdered (hinv : Inv s) (h : HeapOrdered s.engine) (symbol : Byte) :
    Answers (exec (.nodeNewLeaf symbol) s) HeapOrdered :=
  h.of_ends rfl <| (Engine.nodeAlloc_heapOrdered h hinv.queue hinv.arena _).bind fun _ hr => .ok (hr.congr_heapData rfl)

/-- TREE_BUILD leaves the queue empty (spec/43_tree_builder.md R179). -/
theorem treeBuild_heapOrdered (hinv : Inv s) (h : HeapOrdered s.engine) : Answers (exec .treeBuild s) HeapOrdered :=
  h.of_ends rfl <| .check fun hall => by
    obtain ⟨c, hc⟩ : ∃ c, s.engine.freqAt c ≠ 0 := by
      by_contra hnone
      simp only [not_exists, not_not] at hnone
      exact hall (by simp [hnone])
    obtain ⟨e, t, hb, hr⟩ := Engine.buildTree_ok hinv.params hc
    exact .of_ok hr (.of_pqSize_eq_zero (BitVec.eq_of_toNat_eq hb.size))

/-- TREE_FREE empties nodes of the tree, and none of them is queued (spec/43_tree_builder.md R183). -/
theorem treeFree_heapOrdered (hinv : Inv s) (h : HeapOrdered s.engine) : Answers (exec .treeFree s) HeapOrdered :=
  h.of_ends rfl <| .check fun hroot => by
    obtain ⟨t, ht⟩ := hinv.tree.exists_tree hroot
    obtain ⟨e, hr, hf, hn⟩ := Engine.release_ok ht.fits ht.nodup ht.height_lt
    rw [ht.root_eq] at hr
    have he : HeapOrdered e := h.congr_queued hinv.queue (by rw [hf]) (by rw [hf]) fun i hi => by
      rw [hn, if_neg]
      exact fun hmem => Bool.false_ne_true ((hinv.arena.queued_scratch i hi).symm.trans ((ht.all i).mpr hmem))
    exact (Ends.of_ok hr he).bind fun _ he => .ok (he.congr_heapData rfl)

/-! ### Every command -/

/-- A rule that leaves nodes, heap and size alone keeps the heap order. -/
theorem HeapOrdered.of_heapData {i : Instr} {r : Run Engine} (h : HeapOrdered s.engine) (hi : exec i s = s.finish r)
    (hr : Yields r (·.heapData = s.engine.heapData)) : Answers (exec i s) HeapOrdered :=
  .of_rule hi h fun e he => h.congr_heapData (hr e he)

/-- A rule without a check, by the engine state it commits. -/
theorem HeapOrdered.commits {i : Instr} (h : HeapOrdered s.engine) (e : Engine) (hi : exec i s = s.finish (.ok e))
    (he : e.heapData = s.engine.heapData) : Answers (exec i s) HeapOrdered := h.of_heapData hi (.ok he)

theorem regRead_heapOrdered (h : HeapOrdered s.engine) (selector : Nat) : Answers (exec (.regRead selector) s) HeapOrdered := by
  refine h.of_heapData rfl ?_
  cases hv : s.engine.regValue s.params selector with
  | some v => simp only [hv]; exact .ok rfl
  | none => simp only [hv]; exact .raise _

/-- Every command but NODE_SET_WEIGHT keeps the heap order (R162). -/
theorem exec_heapOrdered (hinv : Inv s) (h : HeapOrdered s.engine) : ∀ i, (∀ n, i ≠ .nodeSetWeight n) → Answers (exec i s) HeapOrdered
  | .nop, _ => h.commits s.engine rfl rfl
  | .softReset, _ => by rintro _ ⟨⟩; exact .of_pqSize_eq_zero rfl
  | .clrSticky, _ => by rintro _ ⟨⟩; exact h
  | .regRead selector, _ => regRead_heapOrdered h selector
  | .memWr _ _, _ => h.of_heapData rfl (.check (Engine.memWrite_heapData rfl))
  | .memRd _, _ => h.of_heapData rfl (Engine.loadByte_heapData rfl)
  | .outRd _, _ => h.of_heapData rfl (Engine.loadByte_heapData rfl)
  | .bbNew _, _ => h.of_heapData rfl (.check (.ok rfl))
  | .bbWrite _ _, _ => h.of_heapData rfl (.check (.check (Engine.bbAppend_heapData rfl)))
  | .bbReadBit, _ => h.of_heapData rfl (.check (.read fun _ => .ok rfl))
  | .bbAdvance, _ => h.of_heapData rfl (.check (.ok rfl))
  | .bbRewind, _ => h.commits (s.engine.setCursor 0) rfl rfl
  | .bbSizeBits, _ => h.commits (s.engine.setRes _) rfl rfl
  | .bbByteOffset, _ => h.commits (s.engine.setRes _) rfl rfl
  | .bbBitOffset, _ => h.commits (s.engine.setRes _) rfl rfl
  | .bbGetByte _, _ => h.of_heapData rfl (.check (.read fun _ => .ok rfl))
  | .pqInit capacity, _ => pqInit_heapOrdered hinv h capacity
  | .pqInsert node, _ => pqInsert_heapOrdered hinv h node
  | .pqExtractMin, _ => pqExtractMin_heapOrdered hinv h
  | .pqSize, _ => h.commits (s.engine.setRes _) rfl rfl
  | .pqChangePriority node, _ => pqChangePriority_heapOrdered hinv h node
  | .pqReadHeap _, _ => h.of_heapData rfl (.check (.read fun _ => .ok rfl))
  | .freqClear, _ => h.commits s.engine.clearFreq rfl rfl
  | .freqSet _, _ => h.of_heapData rfl (.check (.ok rfl))
  | .freqGet _, _ => h.commits (s.engine.setRes _) rfl rfl
  | .freqCount _, _ => h.of_heapData rfl (.check (.ok (Engine.countBytes_heapData rfl)))
  | .nodeNewLeaf symbol, _ => nodeNewLeaf_heapOrdered hinv h symbol
  | .nodeSetWeight node, hne => absurd rfl (hne node)
  | .nodeRead field _, _ => h.of_heapData rfl <| .check <| .read fun n => by
    cases n.fieldValue field with
    | some v => exact .ok rfl
    | none => exact .raise _
  | .arenaReset, _ => .of_rule rfl h (.ok (.of_pqSize_eq_zero rfl))
  | .treeBuild, _ => treeBuild_heapOrdered hinv h
  | .treeHeight, _ => h.of_heapData rfl (.check (.read fun _ => .ok rfl))
  | .treeFree, _ => treeFree_heapOrdered hinv h
  | .mapBuild, _ =>
    h.of_heapData rfl (.check (.read fun _ => .read fun _ => .check (.bind (Engine.fillMap_heapData rfl) fun _ hd => .ok hd)))
  | .mapGetCode _, _ => h.of_heapData rfl (.check (.ok rfl))
  | .mapGetLen _, _ => h.of_heapData rfl (.check (.ok rfl))
  | .encode _, _ => h.of_heapData rfl <| .check <| .check <| .check <|
    .bind (.foldlM (fun _ _ hd => Engine.bbAppend_heapData hd) _ rfl) fun _ hd => .ok hd
  | .encSym _, _ => h.of_heapData rfl (.check (Engine.bbAppend_heapData rfl))
  | .decode _, _ => h.of_heapData rfl (.check (.check (.bind (Engine.decodeLoop_heapData rfl) fun _ hd => .ok hd)))
  | .decSym, _ => h.of_heapData rfl (.check (.read fun _ => .ok rfl))

/-- Settles O38: the case analysis of `exec_heapOrdered`. -/
theorem heapOrderIsKept : Obligations.HeapOrderIsKept := fun i _ t hinv h hne ht => exec_heapOrdered hinv h i hne t ht

/-! ### NODE_SET_WEIGHT and then PQ_CHANGE_PRIORITY -/

/-- What NODE_SET_WEIGHT can do: fail, or set the weight of an allocated node (spec/43_tree_builder.md R176). -/
theorem nodeSetWeight_cases {t : State} {node : Nat} (h : exec (.nodeSetWeight node) s = .next t) :
    t.engine = s.engine ∨ (node ≤ 510 ∧ (s.engine.nodeAt (BitVec.ofNat 9 node)).valid = true ∧ t.engine =
      s.engine.putNode (BitVec.ofNat 9 node) { s.engine.nodeAt (BitVec.ofNat 9 node) with weight := s.dataLatch }) := by
  rcases State.finish_eq_next (s := s) h with ⟨e, he, rfl⟩ | ⟨k, -, rfl⟩
  · rcases s.engine.validNode_cases node with ⟨hbad, -⟩ | ⟨hle, hv, -⟩
    · exact absurd ((Engine.validNode_bind_raise hbad).symm.trans he) raise_ne_ok
    · have hwrite := (ite_raise_eq_ok.mp ((Engine.validNode_bind hle hv).symm.trans he)).2
      exact .inr ⟨hle, hv, (Engine.writeNode_eq_ok.mp hwrite).2⟩
  · exact .inl rfl

/-- Another record at a queued node leaves the heap ordered but for that node's entry. -/
theorem HeapOrdered.putNode_queued {p : Params} {e : Engine} {i : NodeIdx} (h : HeapOrdered e) (hq : QueueOk p e) (hi : e.queued i)
    (n : Node) : OrderedBut (e.putNode i n) e.pqSize.toNat (e.nodeAt i).heapSlot.toNat := by
  refine (h.orderedBut (Nat.le_refl _) _).congr fun j hj hjk => ?_
  rw [Engine.heapWeight, Engine.heapAt_putNode, Engine.nodeAt_putNode _ (Engine.lt_of_queued hi), if_neg, Engine.heapWeight]
  rintro rfl
  obtain rfl | h1 := Nat.eq_zero_or_pos j
  · rw [Engine.heapAt_zero] at hi
    exact absurd (Engine.lt_of_queued hi) (by decide)
  · exact hjk (hq.entry_slot j h1 hj).2.symm

/-- Another record at a node that is not queued leaves the heap ordered. -/
theorem HeapOrdered.putNode_not_queued {p : Params} {e : Engine} {i : NodeIdx} (h : HeapOrdered e) (hq : QueueOk p e)
    (hlt : i.toNat < 511) (hi : ¬ e.queued i) (n : Node) : HeapOrdered (e.putNode i n) :=
  h.congr_queued hq rfl rfl fun j hj => by
    rw [Engine.nodeAt_putNode _ hlt, if_neg]
    rintro rfl
    exact hi hj

/-- After NODE_SET_WEIGHT on an ordered heap, the heap is still ordered, or the node is queued and only its entry stands out of order. -/
theorem nodeSetWeight_heapOrdered {t : State} {node : Nat} (hinv : Inv s) (hord : HeapOrdered s.engine)
    (h : exec (.nodeSetWeight node) s = .next t) :
    let i := BitVec.ofNat 9 node
    HeapOrdered t.engine ∨ node ≤ 510 ∧ (t.engine.nodeAt i).valid = true ∧ t.engine.queued i ∧
      OrderedBut t.engine t.engine.pqSize.toNat (t.engine.nodeAt i).heapSlot.toNat := by
  intro i
  rcases nodeSetWeight_cases h with heq | ⟨hle, hv, heq⟩
  · exact .inl (heq ▸ hord)
  have hlt := Engine.lt_of_valid hv
  rw [heq]
  by_cases hi : s.engine.queued i
  · refine .inr ?_
    rw [Engine.queued, Engine.nodeAt_putNode _ hlt, if_pos rfl]
    exact ⟨hle, hv, hi, hord.putNode_queued hinv.queue hi _⟩
  · exact .inl (hord.putNode_not_queued hinv.queue hlt hi _)

/-- PQ_CHANGE_PRIORITY of the one node that stands out of order restores the order (R161). -/
theorem pqChangePriority_restores {node : Nat} (hinv : Inv s) (hle : node ≤ 510)
    (hv : (s.engine.nodeAt (BitVec.ofNat 9 node)).valid = true) (hi : s.engine.queued (BitVec.ofNat 9 node))
    (hbut : OrderedBut s.engine s.engine.pqSize.toNat (s.engine.nodeAt (BitVec.ofNat 9 node)).heapSlot.toNat) :
    Answers (exec (.pqChangePriority node) s) HeapOrdered := by
  intro t ht
  obtain ⟨h1, hk, -⟩ := hinv.queue.slot_range hi
  obtain ⟨e, hr, he⟩ := Engine.reposition_heapOrdered hinv.params.pqMax_le hinv.queue h1 hk hbut
  rw [pqChangePriority_rule hle hv hi, hr] at ht
  cases ht
  exact he

/-- Settles O39: the second command finds an ordered heap, which it keeps, or sifts the one entry that stands out of order. -/
theorem changePriorityRestoresHeapOrder : Obligations.ChangePriorityRestoresHeapOrder := by
  intro s t u node w d hinv hord hset hchange
  have hinvt : Inv t := by
    obtain ⟨t', ht', h⟩ := exec_keeps hinv (.nodeSetWeight node)
    cases hset.symm.trans ht'
    exact h
  have hinv' : Inv { t with cmdLatch := w, dataLatch := d, status := { t.status with busy := true } } :=
    hinvt.update rfl hinvt.status hinvt.engineOk (List.Subset.refl _)
  rcases nodeSetWeight_heapOrdered hinv hord hset with hkept | ⟨hle, hv, hi, hbut⟩
  · exact pqChangePriority_heapOrdered hinv' hkept node u hchange
  · exact pqChangePriority_restores hinv' hle hv hi hbut u hchange

end Sys2Proof.Machine
end

section
/-! SUPPORT. Settles what the frequency and node commands answer and how they fail, and the two commands that walk the tree
(spec/43_tree_builder.md R170 to R178, R182, R183): each command's rule is evaluated once per outcome. -/

namespace Sys2Proof.Machine

/-! ### The frequency table -/

/-- A value of at most 32 bits passes the check of FREQ_SET and is its own count (spec/30_encoding.md R92). -/
theorem dataFits32_iff (data : Word64) : dataFits32 data = true ↔ data.toNat < 2 ^ 32 := by
  rw [dataFits32, beq_iff_eq, ← BitVec.toNat_inj, BitVec.extractLsb'_toNat, Nat.shiftRight_eq_div_pow]
  have := data.isLt
  show data.toNat / 2 ^ 32 % 2 ^ 32 = 0 ↔ _
  omega

theorem dataCount_toNat {data : Word64} (h : data.toNat < 2 ^ 32) : (dataCount data).toNat = data.toNat := by
  rw [dataCount, BitVec.extractLsb'_toNat, Nat.shiftRight_zero, Nat.mod_eq_of_lt h]

/-- Settles O40: FREQ_SET writes one entry, and what fits in 32 bits is written whole. -/
theorem freqCommandsSetAndReadCounters : Obligations.FreqCommandsSetAndReadCounters := by
  intro s
  refine ⟨⟨s.engine.clearFreq, .of_rule rfl rfl, rfl, s.engine.freqAt_clearFreq⟩, fun symbol => ⟨fun hfit => ?_, fun hwide => ?_, ?_⟩⟩
  · refine ⟨s.engine.setFreq symbol (dataCount s.dataLatch), .of_rule rfl ?_, rfl, ?_, fun c hc => ?_⟩
    · rw [(dataFits32_iff _).mpr hfit]; rfl
    · rw [Engine.freqAt_setFreq, if_pos rfl, dataCount_toNat hfit]
    · rw [Engine.freqAt_setFreq, if_neg hc]
  · refine .of_rule .invalidArgument rfl (if_pos ?_)
    rw [Bool.not_eq_true', ← Bool.not_eq_true, dataFits32_iff]
    exact Nat.not_lt.mpr hwide
  · exact .of_rule rfl (congrArg Except.ok (s.engine.setRes_toNat _))

namespace Engine

/-- The counting loop writes the frequency table alone. -/
theorem countBytes_frame (input : List Byte) (e : Engine) :
    input.foldl countByte e = { e with freq := (input.foldl countByte e).freq } :=
  List.foldlRecOn (motive := fun x : Engine => x = { e with freq := x.freq }) input countByte rfl fun x hx c _ =>
    congrArg (fun y : Engine => { y with freq := (x.countByte c).freq }) hx

/-- The counting loop adds to each counter how often its symbol stands in the input (R174). -/
theorem freqAt_countBytes (input : List Byte) (e : Engine) (c : Byte) :
    (input.foldl countByte e).freqAt c = e.freqAt c + BitVec.ofNat 32 (input.count c) := by
  induction input generalizing e with
  | nil => simp
  | cons d input ih =>
    rw [List.foldl_cons, ih, countByte, freqAt_setFreq, List.count_cons]
    by_cases hcd : c = d
    · subst hcd
      rw [if_pos rfl, if_pos (beq_self_eq_true c), BitVec.ofNat_add, BitVec.add_assoc, BitVec.add_comm (BitVec.ofNat 32 _)]
      rfl
    · rw [if_neg hcd, if_neg (fun h => hcd (eq_of_beq h).symm), Nat.add_zero]

theorem count_inputBytes (e : Engine) (n : Nat) (c : Byte) :
    (e.inputBytes n).count c = ((List.range n).filter (fun j => e.dataMem.read j = c)).length := by
  rw [inputBytes, List.count, List.countP_map, List.countP_eq_length_filter]
  congr 1

end Engine

/-- Settles O41: the counters start at 0, and no count reaches 2^32 since the input has at most 65535 bytes. -/
theorem freqCountCountsTheInput : Obligations.FreqCountCountsTheInput := by
  intro s length hp
  refine ⟨fun hle => ⟨_, .of_rule rfl (if_neg (Nat.not_lt.mpr hle)), Engine.countBytes_frame _ _, fun c => ?_⟩,
    fun hlt => .of_rule .invalidArgument rfl (if_pos hlt)⟩
  have hcount : (s.engine.inputBytes length).count c ≤ length := by
    exact List.count_le_length.trans_eq (by rw [Engine.inputBytes, List.length_map, List.length_range])
  have hdata := hp.dataMax_le
  have hbb := hp.bbMax_le
  rw [Engine.freqAt_countBytes, Engine.freqAt_clearFreq, ← Engine.count_inputBytes, BitVec.ofNat_eq_ofNat, BitVec.zero_add, BitVec.toNat_ofNat,
    Nat.mod_eq_of_lt (by omega)]

/-! ### Nodes -/

/-- Settles O42: `node_alloc` at NODE_COUNT, or its failure on a full arena. -/
theorem nodeNewLeafAllocates : Obligations.NodeNewLeafAllocates := by
  intro s symbol
  refine ⟨fun hlt => ?_, fun hfull => .of_rule .allocationFailure rfl ?_⟩
  · obtain ⟨e, hr, hf, hcount, hidx, hat⟩ := Engine.nodeAlloc_ok hlt (Node.newLeaf false symbol s.dataLatch)
    refine ⟨e.setRes (s.engine.nodeCount.setWidth 9).toNat, .of_rule rfl ?_, ?_, hcount, (hat _).trans (if_pos rfl),
      fun i hi => (hat i).trans (if_neg hi)⟩
    · exact congrArg (· >>= _) hr
    · rw [hidx]
      exact (congrArg (fun x : Engine => x.setRes s.engine.nodeCount.toNat) hf).trans (Engine.setRes_toNat _ _)
  · exact congrArg (· >>= _) (Engine.nodeAlloc_raise hfull _)

/-- Settles O43: after its two checks the command writes one record. -/
theorem nodeSetWeightSetsOneWeight : Obligations.NodeSetWeightSetsOneWeight := by
  intro s node i
  refine ⟨fun hle hv hscratch => ?_, fun hbad => .of_rule .invalidArgument rfl ?_⟩
  · have hlt := Engine.lt_of_valid hv
    refine ⟨s.engine.putNode i { s.engine.nodeAt i with weight := s.dataLatch }, .of_rule rfl ?_, rfl,
      (Engine.nodeAt_putNode _ hlt _ _).trans (if_pos rfl), fun j hj => (Engine.nodeAt_putNode _ hlt _ _).trans (if_neg hj)⟩
    exact (Engine.validNode_bind hle hv).trans <| (if_neg (ne_true_of_eq_false hscratch)).trans <|
      Engine.writeNode_eq_ok.mpr ⟨Nat.lt_succ_of_le hle, rfl⟩
  · by_cases hno : 510 < node ∨ (s.engine.nodeAt i).valid = false
    · exact Engine.validNode_bind_raise hno
    · rw [not_or, Nat.not_lt, Bool.not_eq_false] at hno
      have htree : (s.engine.nodeAt i).inTree = true := by
        rcases hbad with hgt | hfree | htree
        · exact absurd hno.1 (Nat.not_le.mpr hgt)
        · exact absurd (hno.2.symm.trans hfree) (by decide)
        · exact htree
      exact (Engine.validNode_bind hno.1 hno.2).trans (if_pos htree)

/-- NODE_READ with a selector that names a field (R177). -/
theorem nodeRead_completes {s : State} {field node v : Nat} (hle : node ≤ 510)
    (hv : (s.engine.nodeAt (BitVec.ofNat 9 node)).fieldValue field = some v) : Completes (.nodeRead field node) s (s.engine.setRes v) := by
  refine .of_rule rfl ((if_neg (Nat.not_lt.mpr hle)).trans ?_)
  rw [Engine.readNode_nat _ (Nat.lt_succ_of_le hle), Run.ok_bind, hv]

theorem Node.fieldValue_none (n : Node) {field : Nat} (h : 5 < field) : n.fieldValue field = none := by
  obtain ⟨k, rfl⟩ := Nat.exists_eq_add_of_le' (show 6 ≤ field from h)
  rfl

/-- Settles O44: one field per selector, each zero-extended into RES. -/
theorem nodeReadReadsTheField : Obligations.NodeReadReadsTheField := by
  intro s node n
  have hext : ∀ {w : Nat} (x : BitVec w), s.engine.setRes x.toNat = { s.engine with res := x.setWidth 64 } := s.engine.setRes_toNat
  refine ⟨fun hle => ⟨nodeRead_completes hle rfl, hext n.symbol ▸ nodeRead_completes hle rfl, ?_, hext n.left ▸ nodeRead_completes hle rfl,
    hext n.right ▸ nodeRead_completes hle rfl, hext n.heapSlot ▸ nodeRead_completes hle rfl, fun field h5 => ?_⟩,
    fun hgt field => .of_rule .invalidArgument rfl (if_pos hgt)⟩
  · have hweight : Completes (.nodeRead 2 node) s (s.engine.setRes n.weight.toNat) := nodeRead_completes hle rfl
    rwa [hext, BitVec.setWidth_eq] at hweight
  · refine .of_rule .invalidArgument rfl ((if_neg (Nat.not_lt.mpr hle)).trans ?_)
    rw [Engine.readNode_nat _ (Nat.lt_succ_of_le hle), Run.ok_bind, Node.fieldValue_none _ h5]

/-- Settles O45: the cleared arena and the cleared heap. -/
theorem arenaResetReleasesEveryNode : Obligations.ArenaResetReleasesEveryNode := fun s =>
  ⟨s.engine.clearArena, .of_rule rfl rfl, rfl, s.engine.nodeAt_clearArena, s.engine.heapAt_clearArena⟩

/-! ### Height and release -/

theorem TreeIs.root_ne_nil {e : Engine} {t : Shape} (h : TreeIs e t) : e.root ≠ nil :=
  NodeIdx.ne_nil_of_lt (h.root_eq ▸ Shape.fits_root_lt h.fits)

/-- Settles O48: `height` follows the shape of the tree. -/
theorem treeHeightAnswersTheHeight : Obligations.TreeHeightAnswersTheHeight := fun s t ht =>
  .of_rule rfl <| (if_neg ht.root_ne_nil).trans (by rw [Engine.rootHeight_ok ht, Run.ok_bind]; rfl)

/-- Settles O49: `release` empties the nodes of the shape, and these are the nodes marked as tree nodes. -/
theorem treeFreeReleasesTheTree : Obligations.TreeFreeReleasesTheTree := by
  intro s t ht
  obtain ⟨e, hr, hf, hat⟩ := Engine.release_ok ht.fits ht.nodup ht.height_lt
  rw [ht.root_eq] at hr
  refine ⟨{ e with root := nil }, .of_rule rfl ((if_neg ht.root_ne_nil).trans ?_), ?_, fun i => (hat i).trans ?_⟩
  · rw [hr, Run.ok_bind]
  · exact congrArg (fun x : Engine => { x with root := nil }) hf
  · simp only [← ht.all i]

/-- Settles O50: each of the five rules checks ROOT; DECODE checks the length before, with the same error. -/
theorem treeCommandsFailWithoutATree : Obligations.TreeCommandsFailWithoutATree := by
  intro s hroot
  refine ⟨.of_rule .invalidArgument rfl (if_pos hroot), .of_rule .invalidArgument rfl (if_pos hroot),
    .of_rule .invalidArgument rfl (if_pos hroot), .of_rule .invalidArgument rfl (if_pos hroot),
    fun length => .of_rule .invalidArgument rfl ?_⟩
  by_cases hlen : s.params.dataMax < length
  · exact if_pos hlen
  · exact (if_neg hlen).trans (if_pos hroot)

end Sys2Proof.Machine
end

section
/-! SUPPORT. The node table while TREE_BUILD fills it (spec/43_tree_builder.md R179, R181): the leaves in the order of their symbols,
then one internal node per merge over the two lightest nodes without a parent. The slots are left out: they follow the queue. -/

namespace Sys2Proof.Machine

/-! ### Records -/

/-- NODE[i] without its position slot, which is all of a node that sifting changes (spec/42_priority_queue.md R151). -/
def Engine.record (e : Engine) (i : NodeIdx) : Node := (e.nodeAt i).withSlot 0

theorem Engine.record_eq_of_slots {a b : Engine} {i : NodeIdx}
    (h : b.nodeAt i = { a.nodeAt i with heapSlot := (b.nodeAt i).heapSlot }) : b.record i = a.record i := by
  rw [Engine.record, h]; rfl

/-- A node that is not queued is its own record. -/
theorem Engine.record_eq_nodeAt {e : Engine} {i : NodeIdx} (h : ¬ e.queued i) : e.record i = e.nodeAt i :=
  Node.withSlot_zero (not_not.mp h)

/-- Node `j` is a child of node `k`. -/
def Engine.childOf (e : Engine) (j k : NodeIdx) : Prop := (e.record k).left = j ∨ (e.record k).right = j

/-! ### One extraction and one insertion -/

/-- What `pq_extract` does to an ordered queue: it takes out a lightest node `m`, and no record changes (R155, R158). -/
structure Extracted (p : Params) (e : Engine) (m : NodeIdx) (e' : Engine) : Prop where
  freq : e'.freq = e.freq
  cap : e'.pqCap = e.pqCap
  count : e'.nodeCount = e.nodeCount
  record : ∀ j, e'.record j = e.record j
  queue : QueueOk p e'
  ordered : HeapOrdered e'
  first : e.queued m
  least : ∀ j, e.queued j → (e.record m).weight.toNat ≤ (e.record j).weight.toNat
  queued : ∀ j, e'.queued j ↔ e.queued j ∧ j ≠ m

/-- What making the node `n` and inserting it does: it stands at NODE_COUNT and is queued in place of its children. -/
structure Added (p : Params) (e : Engine) (n : Node) (e' : Engine) : Prop where
  freq : e'.freq = e.freq
  cap : e'.pqCap = e.pqCap
  count_lt : e.nodeCount.toNat < 511
  count : e'.nodeCount.toNat = e.nodeCount.toNat + 1
  new : ∀ j : NodeIdx, j.toNat = e.nodeCount.toNat → e'.record j = n
  old : ∀ j : NodeIdx, j.toNat ≠ e.nodeCount.toNat → e'.record j = e.record j
  queue : QueueOk p e'
  ordered : HeapOrdered e'
  queued : ∀ j, e'.queued j ↔ (e.queued j ∧ n.left ≠ j ∧ n.right ≠ j) ∨ j.toNat = e.nodeCount.toNat

section
variable {p : Params} {e e₁ e₂ e' : Engine}

/-- An extraction that answers found a node in the queue. -/
theorem Engine.dequeue_eq_ok {r : NodeIdx × Engine} (h : e.dequeue p = .ok r) : 1 ≤ e.pqSize.toNat := by
  unfold Engine.dequeue at h
  obtain ⟨m, -, h⟩ := Run.bind_eq_ok.mp h
  obtain ⟨last, hlast, -⟩ := Run.bind_eq_ok.mp h
  exact (Engine.readHeap_eq_ok hlast).1

/-- An insertion that answers found a heap entry for the node. -/
theorem Engine.enqueue_eq_ok {i : NodeIdx} (h : e.enqueue p i = .ok e') : e.pqSize.toNat < p.pqMax := by
  unfold Engine.enqueue at h
  obtain ⟨x, hx, -⟩ := Run.bind_eq_ok.mp h
  exact (Engine.writeHeap_eq_ok.mp hx).1.2.1

theorem Engine.dequeue_extracted (hp : p.pqMax ≤ 511) (hq : QueueOk p e) (ho : HeapOrdered e) :
    Yields (e.dequeue p) (fun r => Extracted p e r.1 r.2) := by
  intro r hr
  have hne := Engine.dequeue_eq_ok hr
  have hord := (Engine.dequeue_heapOrdered hp ho hq hne).yields r hr
  obtain ⟨e', hr', hf, -, hqe, hn, hqueued, -⟩ := Engine.dequeue_ok hp hq hne
  cases hr.symm.trans hr'
  refine ⟨by rw [hf], by rw [hf], by rw [hf], fun j => Engine.record_eq_of_slots (hn j), hqe, hord,
    (hq.queued_iff _).mpr ⟨1, Nat.le_refl 1, hne, rfl⟩, fun j hj => ?_, hqueued⟩
  obtain ⟨k, h1, hk, rfl⟩ := (hq.queued_iff j).mp hj
  exact ho.root_le h1 hk

/-- A new node at an index that was not queued leaves the queue as it is (R170). -/
theorem QueueOk.alloc (hq : QueueOk p e) (ho : HeapOrdered e) {i : NodeIdx} {n : Node} (hi : ¬ e.queued i) (hslot : n.heapSlot = 0)
    (hf : e' = { e with nodes := e'.nodes, nodeCount := e'.nodeCount }) (hat : ∀ j, e'.nodeAt j = if j = i then n else e.nodeAt j) :
    QueueOk p e' ∧ HeapOrdered e' ∧ ∀ j, e'.queued j ↔ e.queued j := by
  have hother : ∀ j, e.queued j → e'.nodeAt j = e.nodeAt j := fun j hj => (hat j).trans (if_neg fun hji : j = i => hi (hji ▸ hj))
  have hslots : ∀ j, (e'.nodeAt j).heapSlot = (e.nodeAt j).heapSlot := by
    intro j
    rw [hat]
    split
    next hj => rw [hj, hslot]; exact (not_not.mp hi).symm
    next => rfl
  refine ⟨hq.congr (by rw [hf]) (by rw [hf]) (by rw [hf]) hslots fun j hj => congrArg Node.valid (hother j hj),
    ho.congr_queued hq (by rw [hf]) (by rw [hf]) fun j hj => congrArg Node.weight (hother j hj), fun j => ?_⟩
  rw [Engine.queued, hslots, Engine.queued]

theorem Engine.nodeAlloc_enqueue_added (hp : p.pqMax ≤ 511) (hq : QueueOk p e) (ho : HeapOrdered e) (hcap : e.pqCap.toNat = p.pqMax)
    (hle : e.nodeCount.toNat ≤ 511) (hfree : ∀ i : NodeIdx, i.toNat = e.nodeCount.toNat → ¬ e.queued i) {n : Node}
    (hv : n.valid = true) (hslot : n.heapSlot = 0) (hl : ¬ e.queued n.left) (hr : ¬ e.queued n.right) :
    Yields (e.nodeAlloc n >>= fun r => r.2.enqueue p r.1) (Added p e n) := by
  by_cases hfull : e.nodeCount = 511
  · rw [Engine.nodeAlloc_raise hfull]
    exact .raise _
  have hlt : e.nodeCount.toNat < 511 := Nat.lt_of_le_of_ne hle fun h => hfull (BitVec.eq_of_toNat_eq h)
  obtain ⟨e₁, halloc, hf, hcount, hidx, hat⟩ := Engine.nodeAlloc_ok hlt n
  rw [halloc, Run.ok_bind]
  generalize e.nodeCount.setWidth 9 = i at hidx hat
  intro e' hins
  obtain ⟨hq₁, ho₁, hqueued₁⟩ := hq.alloc ho (hfree i hidx) hslot hf hat
  have hself : e₁.nodeAt i = n := (hat i).trans (if_pos rfl)
  have hv₁ : (e₁.nodeAt i).valid = true := (congrArg Node.valid hself).trans hv
  have hn₁ : ¬ e₁.queued i := mt (hqueued₁ i).mp (hfree i hidx)
  have hroom : e₁.pqSize.toNat < e₁.pqCap.toNat := (Engine.enqueue_eq_ok hins).trans_eq (by rw [hf]; exact hcap.symm)
  have hord := (Engine.enqueue_heapOrdered hp ho₁ hq₁ hv₁ hn₁ hroom).yields e' hins
  obtain ⟨e₂, m, hins₂, hf₂, -, hq₂, hnode₂, hqueued₂, -⟩ := Engine.enqueue_ok hp hq₁ hv₁ hn₁ hroom
  cases hins.symm.trans hins₂
  have hrec : ∀ j, e'.record j = e₁.record j := fun j => Engine.record_eq_of_slots (hnode₂ j)
  have heq : ∀ j : NodeIdx, j.toNat = e.nodeCount.toNat ↔ j = i := fun j => by rw [← hidx, BitVec.toNat_inj]
  refine ⟨by rw [hf₂, hf], by rw [hf₂, hf], hlt, by rw [hf₂]; exact hcount, fun j hj => ?_, fun j hj => ?_, hq₂, hord, fun j => ?_⟩
  · rw [hrec, (heq j).mp hj, Engine.record, hself, Node.withSlot_zero hslot]
  · rw [hrec, Engine.record, hat, if_neg (mt (heq j).mpr hj), Engine.record]
  · rw [hqueued₂, hqueued₁, heq]
    exact or_congr_left (iff_self_and.mpr fun hj => ⟨fun h => hl (h ▸ hj), fun h => hr (h ▸ hj)⟩)

/-- The parents after an insertion: the new node is one, and the others are as before. -/
theorem Added.childOf_iff {n : Node} (h : Added p e n e') (j k : NodeIdx) :
    e'.childOf j k ↔ if k.toNat = e.nodeCount.toNat then n.left = j ∨ n.right = j else e.childOf j k := by
  by_cases hk : k.toNat = e.nodeCount.toNat
  · rw [if_pos hk, Engine.childOf, h.new k hk]
  · rw [if_neg hk, Engine.childOf, h.old k hk, Engine.childOf]

/-- Two extractions and the insertion of a node over the extracted two (R179). -/
theorem Added.of_extracted {n : Node} (h₁ : Extracted p e n.left e₁) (h₂ : Extracted p e₁ n.right e₂) (h : Added p e₂ n e') :
    Added p e n e' := by
  have hcount : e₂.nodeCount = e.nodeCount := h₂.count.trans h₁.count
  refine ⟨h.freq.trans (h₂.freq.trans h₁.freq), h.cap.trans (h₂.cap.trans h₁.cap), hcount ▸ h.count_lt, hcount ▸ h.count, hcount ▸ h.new,
    fun j hj => ((hcount ▸ h.old) j hj).trans ((h₂.record j).trans (h₁.record j)), h.queue, h.ordered, fun j => ?_⟩
  rw [h.queued, h₂.queued, h₁.queued, hcount]
  refine or_congr_left ⟨?_, ?_⟩
  · rintro ⟨⟨⟨hj, -⟩, -⟩, hl, hr⟩
    exact ⟨hj, hl, hr⟩
  · rintro ⟨hj, hl, hr⟩
    exact ⟨⟨⟨hj, hl.symm⟩, hr.symm⟩, hl, hr⟩

end

/-! ### The table -/

/-- Internal node `i` joins the two lightest of the nodes that stood below it without a parent, the lighter one left (R181 items 1
and 4). -/
structure Merged (e : Engine) (i : NodeIdx) : Prop where
  leaf : (e.record i).leaf = false
  inTree : (e.record i).inTree = true
  left_lt : (e.record i).left.toNat < i.toNat
  right_lt : (e.record i).right.toNat < i.toNat
  ne : (e.record i).left ≠ (e.record i).right
  le : (e.record (e.record i).left).weight.toNat ≤ (e.record (e.record i).right).weight.toNat
  least : ∀ j : NodeIdx, j.toNat < i.toNat → j ≠ (e.record i).left → j ≠ (e.record i).right →
    (∀ k, e.childOf j k → i.toNat < k.toNat) → (e.record (e.record i).right).weight.toNat ≤ (e.record j).weight.toNat

/-- Nodes made later do not matter: `i` stays the first to join its children. -/
theorem Merged.mono {a b : Engine} {i : NodeIdx} {n : Nat} (h : Merged a i) (hi : i.toNat < n)
    (hrec : ∀ j : NodeIdx, j.toNat < n → b.record j = a.record j) : Merged b i := by
  have hself := hrec i hi
  have hleft := hrec _ (h.left_lt.trans hi)
  have hright := hrec _ (h.right_lt.trans hi)
  refine ⟨?_, ?_, ?_, ?_, ?_, ?_, ?_⟩
  all_goals rw [hself]
  · exact h.leaf
  · exact h.inTree
  · exact h.left_lt
  · exact h.right_lt
  · exact h.ne
  · rw [hleft, hright]
    exact h.le
  · intro j hj hjl hjr hlater
    rw [hright, hrec j (hj.trans hi)]
    refine h.least j hj hjl hjr fun k hk => ?_
    by_cases hkn : k.toNat < n
    · refine hlater k ?_
      rwa [Engine.childOf, hrec k hkn]
    · omega

/-- The arena holds a leaf for each of the counted symbols `cs`, in this order, and above them only internal nodes that merged the
two lightest, up to NODE_COUNT. The counts are those of `e₀`. -/
structure Table (e₀ : Engine) (cs : List Byte) (e : Engine) : Prop where
  le_count : cs.length ≤ e.nodeCount.toNat
  count_le : e.nodeCount.toNat ≤ 511
  empty : ∀ i : NodeIdx, e.nodeCount.toNat ≤ i.toNat → e.record i = Node.empty
  leaf : ∀ j c, cs[j]? = some c → e.record (BitVec.ofNat 9 j) = Node.newLeaf true c ((e₀.freqAt c).setWidth 64)
  merged : ∀ i : NodeIdx, cs.length ≤ i.toNat → i.toNat < e.nodeCount.toNat → Merged e i

namespace Table

variable {p : Params} {e₀ e e' : Engine} {cs : List Byte}

theorem congr (h : Table e₀ cs e) (hcount : e'.nodeCount = e.nodeCount) (hrec : ∀ j, e'.record j = e.record j) : Table e₀ cs e' where
  le_count := hcount ▸ h.le_count
  count_le := hcount ▸ h.count_le
  empty i hi := (hrec i).trans (h.empty i (hcount ▸ hi))
  leaf j c hj := (hrec _).trans (h.leaf j c hj)
  merged i hle hlt := (h.merged i hle (hcount ▸ hlt)).mono (hcount ▸ hlt) fun j _ => hrec j

/-- The node at an index below the number of symbols is the leaf of one. -/
theorem exists_leaf (h : Table e₀ cs e) {i : NodeIdx} (hi : i.toNat < cs.length) :
    ∃ c, e.record i = Node.newLeaf true c ((e₀.freqAt c).setWidth 64) := by
  refine ⟨cs[i.toNat], ?_⟩
  have hleaf := h.leaf i.toNat _ (List.getElem?_eq_getElem hi)
  rwa [BitVec.ofNat_toNat, BitVec.setWidth_eq] at hleaf

/-- Every child stands below its parent, which is allocated (R181 item 1). -/
theorem childOf_lt (h : Table e₀ cs e) {j k : NodeIdx} (hj : j.toNat < 511) (hc : e.childOf j k) :
    j.toNat < k.toNat ∧ k.toNat < e.nodeCount.toNat := by
  have hnil : j ≠ nil := NodeIdx.ne_nil_of_lt hj
  by_cases hk : k.toNat < e.nodeCount.toNat
  · refine ⟨?_, hk⟩
    by_cases hlow : k.toNat < cs.length
    · obtain ⟨c, hleaf⟩ := h.exists_leaf hlow
      rw [Engine.childOf, hleaf] at hc
      exact absurd (hc.elim Eq.symm Eq.symm) hnil
    · have hm := h.merged k (Nat.le_of_not_lt hlow) hk
      rcases hc with rfl | rfl
      · exact hm.left_lt
      · exact hm.right_lt
  · rw [Engine.childOf, h.empty k (Nat.le_of_not_lt hk)] at hc
    exact absurd (hc.elim Eq.symm Eq.symm) hnil

theorem inTree_iff (h : Table e₀ cs e) (i : NodeIdx) : (e.record i).inTree = true ↔ i.toNat < e.nodeCount.toNat := by
  by_cases hi : i.toNat < e.nodeCount.toNat
  · refine iff_of_true ?_ hi
    by_cases hlow : i.toNat < cs.length
    · obtain ⟨c, hleaf⟩ := h.exists_leaf hlow
      rw [hleaf]; rfl
    · exact (h.merged i (Nat.le_of_not_lt hlow) hi).inTree
  · refine iff_of_false ?_ hi
    rw [h.empty i (Nat.le_of_not_lt hi)]
    exact Bool.false_ne_true

theorem leaf_iff (h : Table e₀ cs e) {i : NodeIdx} (hi : i.toNat < e.nodeCount.toNat) :
    (e.record i).leaf = true ↔ i.toNat < cs.length := by
  by_cases hlow : i.toNat < cs.length
  · obtain ⟨c, hleaf⟩ := h.exists_leaf hlow
    rw [hleaf]
    exact iff_of_true rfl hlow
  · rw [(h.merged i (Nat.le_of_not_lt hlow) hi).leaf]
    exact iff_of_false Bool.false_ne_true hlow

/-- While there are only leaves, one more leaf is the next symbol's. -/
theorem addLeaf (h : Table e₀ cs e) (hall : e.nodeCount.toNat = cs.length) {c : Byte}
    (ha : Added p e (Node.newLeaf true c ((e₀.freqAt c).setWidth 64)) e') : Table e₀ (cs ++ [c]) e' := by
  have hlen : (cs ++ [c]).length = e'.nodeCount.toNat := by rw [List.length_append, List.length_singleton, ha.count, hall]
  have hlt := ha.count_lt
  have hcount := ha.count
  refine ⟨hlen.le, by omega, fun i hi => (ha.old i (by omega)).trans (h.empty i (by omega)), fun j d hj => ?_,
    fun i hle hi => absurd hi (Nat.not_lt.mpr (hlen.ge.trans hle))⟩
  rw [List.getElem?_append] at hj
  split at hj
  next hlow =>
    exact (ha.old _ (by rw [slot_toNat (by omega)]; omega)).trans (h.leaf j d hj)
  next hhigh =>
    rw [List.getElem?_singleton] at hj
    split at hj
    · cases hj
      exact ha.new _ (by rw [slot_toNat (by omega)]; omega)
    · cases hj

/-- One more internal node. -/
theorem merge (h : Table e₀ cs e) {n : Node} (ha : Added p e n e') (hm : ∀ i : NodeIdx, i.toNat = e.nodeCount.toNat → Merged e' i) :
    Table e₀ cs e' := by
  have hcount := ha.count
  have hlt := ha.count_lt
  have hle := h.le_count
  refine ⟨by omega, by omega, fun i hi => (ha.old i (by omega)).trans (h.empty i (by omega)), fun j c hj => ?_, fun i hlow hi => ?_⟩
  · obtain ⟨hj', -⟩ := List.getElem?_eq_some_iff.mp hj
    exact (ha.old _ (by rw [slot_toNat (by omega)]; omega)).trans (h.leaf j c hj)
  · by_cases hnew : i.toNat = e.nodeCount.toNat
    · exact hm i hnew
    · have hi' : i.toNat < e.nodeCount.toNat := by omega
      exact (h.merged i hlow hi').mono hi' fun j hj => ha.old j (Nat.ne_of_lt hj)

end Table

/-! ### The table and the queue -/

theorem Engine.freqAt_congr {a b : Engine} (h : a.freq = b.freq) (c : Byte) : a.freqAt c = b.freqAt c := by
  simp only [Engine.freqAt, h]

/-- TREE_BUILD under way: the table so far, and in an ordered queue the nodes without a parent. -/
structure Growing (p : Params) (e₀ : Engine) (cs : List Byte) (e : Engine) : Prop where
  table : Table e₀ cs e
  freq : e.freq = e₀.freq
  cap : e.pqCap.toNat = p.pqMax
  queue : QueueOk p e
  ordered : HeapOrdered e
  queued : ∀ i, e.queued i ↔ i.toNat < e.nodeCount.toNat ∧ ∀ k, ¬ e.childOf i k

namespace Growing

variable {p : Params} {e₀ e e' : Engine} {cs cs' : List Byte}

theorem not_queued_of_le (h : Growing p e₀ cs e) (i : NodeIdx) (hi : e.nodeCount.toNat ≤ i.toNat) : ¬ e.queued i := fun hq =>
  Nat.not_lt.mpr hi ((h.queued i).mp hq).1

/-- A new node takes its children's place among the nodes without a parent. -/
theorem add (h : Growing p e₀ cs e) {n : Node} (ha : Added p e n e') (ht : Table e₀ cs' e')
    (hl : n.left.toNat ≠ e.nodeCount.toNat) (hr : n.right.toNat ≠ e.nodeCount.toNat) : Growing p e₀ cs' e' := by
  refine ⟨ht, ha.freq.trans h.freq, (congrArg BitVec.toNat ha.cap).trans h.cap, ha.queue, ha.ordered, fun j => ?_⟩
  have hlt := ha.count_lt
  have hidx : (BitVec.ofNat 9 e.nodeCount.toNat).toNat = e.nodeCount.toNat := slot_toNat hlt.le
  rw [ha.queued, h.queued, ha.count]
  constructor
  · rintro (⟨⟨hj, hnone⟩, hjl, hjr⟩ | hj)
    · refine ⟨by omega, fun k hk => ?_⟩
      rw [ha.childOf_iff] at hk
      split at hk
      · exact hk.elim hjl hjr
      · exact hnone k hk
    · refine ⟨by omega, fun k hk => ?_⟩
      rw [ha.childOf_iff] at hk
      split at hk
      · rcases hk with rfl | rfl
        · exact hl hj
        · exact hr hj
      · have hck := h.table.childOf_lt (by omega) hk
        omega
  · rintro ⟨hj, hnone⟩
    by_cases hjc : j.toNat = e.nodeCount.toNat
    · exact .inr hjc
    refine .inl ⟨⟨by omega, fun k hk => hnone k ?_⟩, ?_⟩
    · rw [ha.childOf_iff, if_neg (Nat.ne_of_lt (h.table.childOf_lt (by omega) hk).2)]
      exact hk
    · have hnew := hnone (BitVec.ofNat 9 e.nodeCount.toNat)
      rw [ha.childOf_iff, if_pos hidx, not_or] at hnew
      exact hnew

/-- One turn of the leaf loop (R179). -/
theorem addLeaf (hp : p.pqMax ≤ 511) (h : Growing p e₀ cs e) (hall : e.nodeCount.toNat = cs.length) (c : Byte) :
    Yields (e.addLeaf p c) (fun e' => Growing p e₀ (cs ++ [c].filter (fun c => e₀.freqAt c ≠ 0)) e' ∧
      e'.nodeCount.toNat = (cs ++ [c].filter (fun c => e₀.freqAt c ≠ 0)).length) := by
  rw [Engine.addLeaf, Engine.freqAt_congr h.freq]
  by_cases h0 : e₀.freqAt c = 0
  · rw [if_pos h0, List.filter_cons_of_neg (by simpa using h0), List.filter_nil, List.append_nil]
    exact .ok ⟨h, hall⟩
  · rw [if_neg h0, List.filter_cons_of_pos (by simpa using h0), List.filter_nil]
    have hnil : ¬ e.queued nil := fun hq => absurd (Engine.lt_of_queued hq) (by decide)
    intro e' hr
    have ha := Engine.nodeAlloc_enqueue_added hp h.queue h.ordered h.cap h.table.count_le (fun i hi => h.not_queued_of_le i hi.ge)
      rfl rfl hnil hnil e' hr
    have hne : nil.toNat ≠ e.nodeCount.toNat := Nat.ne_of_gt ha.count_lt
    refine ⟨h.add ha (h.table.addLeaf hall ha) hne hne, ?_⟩
    rw [ha.count, hall, List.length_append, List.length_singleton]

/-- The leaf loop adds a leaf for each counted symbol of the list, in its order (R179). -/
theorem addLeaves (hp : p.pqMax ≤ 511) (l : List Byte) (h : Growing p e₀ cs e) (hall : e.nodeCount.toNat = cs.length) :
    Yields (l.foldlM (Engine.addLeaf p) e) (Growing p e₀ (cs ++ l.filter (fun c => e₀.freqAt c ≠ 0))) := by
  induction l generalizing e cs with
  | nil =>
    rw [List.filter_nil, List.append_nil]
    exact .ok h
  | cons c l ih =>
    rw [List.foldlM_cons, ← List.singleton_append, List.filter_append, ← List.append_assoc]
    exact (h.addLeaf hp hall c).bind fun e' he => ih he.1 he.2

/-- The node over the two extracted ones joins the two lightest (R179, R181 item 4). -/
theorem merged_new (h : Growing p e₀ cs e) {e₁ e₂ : Engine} {n : Node} (h₁ : Extracted p e n.left e₁) (h₂ : Extracted p e₁ n.right e₂)
    (ha : Added p e n e') (hleaf : n.leaf = false) (htree : n.inTree = true) {i : NodeIdx} (hi : i.toNat = e.nodeCount.toNat) :
    Merged e' i := by
  obtain ⟨hright, hne⟩ := (h₁.queued _).mp h₂.first
  have hl := ((h.queued _).mp h₁.first).1
  have hr := ((h.queued _).mp hright).1
  have hold : ∀ j : NodeIdx, j.toNat < e.nodeCount.toNat → e'.record j = e.record j := fun j hj => ha.old j (Nat.ne_of_lt hj)
  refine ⟨?_, ?_, ?_, ?_, ?_, ?_, ?_⟩
  all_goals rw [ha.new i hi]
  · exact hleaf
  · exact htree
  · exact hl.trans_eq hi.symm
  · exact hr.trans_eq hi.symm
  · exact hne.symm
  · rw [hold _ hl, hold _ hr]
    exact h₁.least _ hright
  · intro j hj hjl hjr hlater
    rw [hi] at hj
    have hjq : e.queued j := by
      refine (h.queued j).mpr ⟨hj, fun k hk => ?_⟩
      have hkc := (h.table.childOf_lt (by have := ha.count_lt; omega) hk).2
      have hik := hlater k (by rwa [Engine.childOf, hold k hkc])
      omega
    rw [hold _ hr, hold j hj, ← h₁.record, ← h₁.record]
    exact h₂.least j ((h₁.queued j).mpr ⟨hjq, hjl⟩)

/-- One merge (R179). -/
theorem mergeOnce (hp : p.pqMax ≤ 511) (h : Growing p e₀ cs e) : Yields (e.mergeOnce p) (Growing p e₀ cs) := by
  refine .bind (Engine.dequeue_extracted hp h.queue h.ordered) fun a h₁ => ?_
  refine .bind (Engine.dequeue_extracted hp h₁.queue h₁.ordered) fun b h₂ => .read fun x => .read fun y => ?_
  let n := Node.newInternal (x.weight + y.weight) a.1 b.1
  have hcount : b.2.nodeCount = e.nodeCount := h₂.count.trans h₁.count
  have hfree : ∀ j, ¬ e.queued j → ¬ b.2.queued j := fun j hj hb => hj ((h₁.queued j).mp ((h₂.queued j).mp hb).1).1
  have hleft : ¬ b.2.queued n.left := fun hb => ((h₁.queued _).mp ((h₂.queued _).mp hb).1).2 rfl
  have hright : ¬ b.2.queued n.right := fun hb => ((h₂.queued _).mp hb).2 rfl
  intro e' hr
  have hadd := Engine.nodeAlloc_enqueue_added hp h₂.queue h₂.ordered ((congrArg BitVec.toNat (h₂.cap.trans h₁.cap)).trans h.cap)
    (hcount ▸ h.table.count_le) (fun i hi => hfree i (h.not_queued_of_le i (hcount ▸ hi.ge))) (n := n) rfl rfl hleft hright e' hr
  have ha : Added p e n e' := Added.of_extracted h₁ h₂ hadd
  have hl := ((h.queued _).mp h₁.first).1
  have hrt := ((h.queued _).mp ((h₁.queued _).mp h₂.first).1).1
  exact h.add ha (h.table.merge ha fun i hi => h.merged_new h₁ h₂ ha rfl rfl hi) (Nat.ne_of_lt hl) (Nat.ne_of_lt hrt)

theorem mergeAll (hp : p.pqMax ≤ 511) (fuel : Nat) (h : Growing p e₀ cs e) : Yields (Engine.mergeAll p fuel e) (Growing p e₀ cs) := by
  induction fuel generalizing e with
  | zero => exact .ok h
  | succ fuel ih => exact .ite (.bind (h.mergeOnce hp) fun e' he => ih he) (.ok h)

theorem start {p : Params} (hp : p.pqMax ≤ 511) (e : Engine) : Growing p e [] (e.buildStart p) where
  table :=
    { le_count := Nat.zero_le _
      count_le := Nat.zero_le _
      empty := fun i _ => congrArg (Node.withSlot · 0) (e.nodeAt_clearArena i)
      leaf := fun j c hj => by simp at hj
      merged := fun i _ hi => absurd hi (Nat.not_lt_zero _) }
  freq := rfl
  cap := slot_toNat hp
  queue := QueueOk.of_empty rfl e.heapAt_clearArena (fun i => not_queued_of_eq_empty (e.nodeAt_clearArena i)) (slot_toNat hp).le
  ordered := .of_pqSize_eq_zero rfl
  queued i := iff_of_false (not_queued_of_eq_empty (e.nodeAt_clearArena i)) fun h => Nat.not_lt_zero _ h.1

end Growing

/-- TREE_BUILD leaves a table over the counted symbols (R179, R181). -/
theorem Engine.buildTree_table {p : Params} (hp : p.pqMax ≤ 511) (e : Engine) : Yields (e.buildTree p) (Table e e.present) := by
  refine .bind ((Growing.start hp e).addLeaves hp symbols rfl) fun e₁ h₁ => .bind (h₁.mergeAll hp _) fun e₂ h₂ => ?_
  exact .bind (Engine.dequeue_extracted hp h₂.queue h₂.ordered) fun r hr => .ok (h₂.table.congr hr.count hr.record)

end Sys2Proof.Machine
end

section
/-! SUPPORT. TREE_BUILD is a function of FREQ (spec/43_tree_builder.md R181 item 5): two runs with the same counts, whatever the
parameters and the rest of the engine, go through the same tables and the same heaps. -/

namespace Sys2Proof.Machine

/-! ### Two runs side by side -/

/-- Whenever both runs answer, their answers are related. -/
def Agree {α β : Type} (r : Run α) (r' : Run β) (R : α → β → Prop) : Prop := ∀ a b, r = .ok a → r' = .ok b → R a b

namespace Agree

variable {α β γ : Type} {R : α → α → Prop} {Q : β → β → Prop}

theorem ok {a b : α} (h : R a b) : Agree (.ok a) (.ok b) R := by
  rintro _ _ ⟨⟩ ⟨⟩
  exact h

theorem raise (k : ErrorKind) (r : Run α) : Agree (Machine.raise k) r R := fun _ _ h => absurd h raise_ne_ok

theorem bind {r r' : Run α} {f f' : α → Run β} (h : Agree r r' R) (hf : ∀ a b, R a b → Agree (f a) (f' b) Q) :
    Agree (r >>= f) (r' >>= f') Q := by
  intro x y hx hy
  obtain ⟨a, ha, hx⟩ := Run.bind_eq_ok.mp hx
  obtain ⟨b, hb, hy⟩ := Run.bind_eq_ok.mp hy
  exact hf a b (h a b ha hb) x y hx hy

/-- Both runs read the same value and go on with it. -/
theorem read {r r' : Run γ} {f f' : γ → Run β} (h : Agree r r' Eq) (hf : ∀ a, Agree (f a) (f' a) Q) : Agree (r >>= f) (r' >>= f') Q :=
  bind h fun a _ hab => hab ▸ hf a

theorem ite {c c' : Prop} [Decidable c] [Decidable c'] {r r' x x' : Run α} (hc : c ↔ c') (h : Agree r r' R) (hx : Agree x x' R) :
    Agree (if c then r else x) (if c' then r' else x') R := by
  by_cases h1 : c
  · rw [if_pos h1, if_pos (hc.mp h1)]; exact h
  · rw [if_neg h1, if_neg (mt hc.mpr h1)]; exact hx

theorem foldlM {f f' : α → γ → Run α} (hf : ∀ a b c, R a b → Agree (f a c) (f' b c) R) (l : List γ) {a b : α} (h : R a b) :
    Agree (l.foldlM f a) (l.foldlM f' b) R := by
  induction l generalizing a b with
  | nil => exact ok h
  | cons c l ih =>
    rw [List.foldlM_cons, List.foldlM_cons]
    exact bind (hf a b c h) fun _ _ h => ih h

end Agree

/-- The two engines agree on all that the loops of TREE_BUILD read. -/
structure SameWork (a b : Engine) : Prop where
  freq : a.freq = b.freq
  nodes : a.nodes = b.nodes
  nodeCount : a.nodeCount = b.nodeCount
  heap : a.heap = b.heap
  pqSize : a.pqSize = b.pqSize

/-! ### One lemma per procedure -/

namespace SameWork

variable {p q : Params} {a b : Engine}

theorem withSize (h : SameWork a b) (k : BitVec 9) : SameWork { a with pqSize := k } { b with pqSize := k } :=
  { h with pqSize := rfl }

theorem withCount (h : SameWork a b) (k : BitVec 10) : SameWork { a with nodeCount := k } { b with nodeCount := k } :=
  { h with nodeCount := rfl }

theorem readNode (h : SameWork a b) (i : Nat) : Agree (a.readNode i) (b.readNode i) Eq := by
  intro x y hx hy
  rw [(Engine.readNode_eq_ok.mp hx).2, (Engine.readNode_eq_ok.mp hy).2]
  exact Engine.nodeAt_congr h.nodes _

theorem writeNode (h : SameWork a b) (i : Nat) (n : Node) : Agree (a.writeNode i n) (b.writeNode i n) SameWork := by
  intro x y hx hy
  rw [(Engine.writeNode_eq_ok.mp hx).2, (Engine.writeNode_eq_ok.mp hy).2]
  exact { h with nodes := congrArg (Vector.setIfInBounds · (BitVec.ofNat 9 i).toNat n) h.nodes }

theorem setSlot (h : SameWork a b) (i : NodeIdx) (k : Nat) : Agree (a.setSlot i k) (b.setSlot i k) SameWork :=
  .read (h.readNode _) fun _ => h.writeNode _ _

theorem readHeap (h : SameWork a b) (k : Nat) : Agree (a.readHeap p k) (b.readHeap q k) Eq := by
  intro x y hx hy
  obtain ⟨-, -, -, rfl⟩ := Engine.readHeap_eq_ok hx
  obtain ⟨-, -, -, rfl⟩ := Engine.readHeap_eq_ok hy
  exact Engine.heapAt_congr h.heap k

theorem writeHeap (h : SameWork a b) (k : Nat) (i : NodeIdx) : Agree (a.writeHeap p k i) (b.writeHeap q k i) SameWork := by
  intro x y hx hy
  rw [(Engine.writeHeap_eq_ok.mp hx).2, (Engine.writeHeap_eq_ok.mp hy).2]
  exact { h with heap := congrArg (Vector.setIfInBounds · (k - 1) i) h.heap }

theorem cmpHeap (h : SameWork a b) (i j : Nat) : Agree (a.cmpHeap p i j) (b.cmpHeap q i j) Eq :=
  .read (h.readHeap i) fun _ => .read (h.readHeap j) fun _ => .read (h.readNode _) fun _ => .read (h.readNode _) fun _ => .ok rfl

theorem swap (h : SameWork a b) (i j : Nat) : Agree (a.swap p i j) (b.swap q i j) SameWork :=
  .read (h.readHeap i) fun _ => .read (h.readHeap j) fun _ => .bind (h.writeHeap i _) fun _ _ h => .bind (h.writeHeap j _) fun _ _ h =>
    .bind (h.setSlot _ i) fun _ _ h => h.setSlot _ j

theorem siftUpLoop (fuel : Nat) (h : SameWork a b) (k : Nat) :
    Agree (Engine.siftUpLoop p fuel a k) (Engine.siftUpLoop q fuel b k) SameWork := by
  induction fuel generalizing a b k with
  | zero => exact .ok h
  | succ fuel ih =>
    exact .ite Iff.rfl (.read (h.cmpHeap _ _) fun _ => .ite Iff.rfl (.bind (h.swap _ _) fun _ _ h => ih h _) (.ok h)) (.ok h)

theorem smallerChild (h : SameWork a b) (k : Nat) : Agree (a.smallerChild p k) (b.smallerChild q k) Eq :=
  .ite (by rw [h.pqSize]) (.read (h.cmpHeap _ _) fun _ => .ok rfl) (.ok rfl)

theorem siftDownLoop (fuel : Nat) (h : SameWork a b) (k : Nat) :
    Agree (Engine.siftDownLoop p fuel a k) (Engine.siftDownLoop q fuel b k) SameWork := by
  induction fuel generalizing a b k with
  | zero => exact .ok h
  | succ fuel ih =>
    exact .ite (by rw [h.pqSize]) (.ok h) <| .read (h.smallerChild k) fun _ => .read (h.cmpHeap _ _) fun _ =>
      .ite Iff.rfl (.bind (h.swap _ _) fun _ _ h => ih h _) (.ok h)

theorem siftDown (h : SameWork a b) (k : Nat) : Agree (a.siftDown p k) (b.siftDown q k) SameWork := by
  rw [Engine.siftDown, Engine.siftDown, h.pqSize]
  exact h.siftDownLoop _ k

theorem enqueue (h : SameWork a b) (i : NodeIdx) : Agree (a.enqueue p i) (b.enqueue q i) SameWork := by
  rw [Engine.enqueue, Engine.enqueue, h.pqSize]
  exact .bind ((h.withSize _).writeHeap _ i) fun _ _ h => .bind (h.setSlot i _) fun _ _ h => h.siftUpLoop _ _

theorem dequeue (h : SameWork a b) : Agree (a.dequeue p) (b.dequeue q) (fun x y => x.1 = y.1 ∧ SameWork x.2 y.2) := by
  rw [Engine.dequeue, Engine.dequeue, h.pqSize]
  exact .read (h.readHeap 1) fun _ => .read (h.readHeap _) fun _ => .bind (h.writeHeap _ nil) fun _ _ h => .ite Iff.rfl
    (.bind ((h.withSize _).writeHeap 1 _) fun _ _ h => .bind (h.setSlot _ 1) fun _ _ h => .bind (h.siftDown 1) fun _ _ h =>
      .bind (h.setSlot _ 0) fun _ _ h => .ok ⟨rfl, h⟩)
    (.bind (.ok (h.withSize _)) fun _ _ h => .bind (h.setSlot _ 0) fun _ _ h => .ok ⟨rfl, h⟩)

theorem nodeAlloc (h : SameWork a b) (n : Node) : Agree (a.nodeAlloc n) (b.nodeAlloc n) (fun x y => x.1 = y.1 ∧ SameWork x.2 y.2) := by
  rw [Engine.nodeAlloc, Engine.nodeAlloc, h.nodeCount]
  exact .ite Iff.rfl (.raise _ _) (.bind (h.writeNode _ n) fun _ _ h => .ok ⟨rfl, h.withCount _⟩)

theorem nodeAlloc_enqueue (h : SameWork a b) (n : Node) :
    Agree (a.nodeAlloc n >>= fun r => r.2.enqueue p r.1) (b.nodeAlloc n >>= fun r => r.2.enqueue q r.1) SameWork :=
  .bind (h.nodeAlloc n) fun _ _ ⟨hi, h⟩ => hi ▸ h.enqueue _

theorem addLeaf (h : SameWork a b) (c : Byte) : Agree (a.addLeaf p c) (b.addLeaf q c) SameWork := by
  rw [Engine.addLeaf, Engine.addLeaf, Engine.freqAt_congr h.freq]
  exact .ite Iff.rfl (.ok h) (h.nodeAlloc_enqueue _)

theorem mergeOnce (h : SameWork a b) : Agree (a.mergeOnce p) (b.mergeOnce q) SameWork :=
  .bind h.dequeue fun (i, _) (_, _) ⟨hi, h⟩ => .bind h.dequeue fun (j, _) (_, _) ⟨hj, h⟩ => by
    subst hi hj
    exact .read (h.readNode _) fun _ => .read (h.readNode _) fun _ => h.nodeAlloc_enqueue _

theorem mergeLoop (fuel : Nat) (h : SameWork a b) : Agree (Engine.mergeAll p fuel a) (Engine.mergeAll q fuel b) SameWork := by
  induction fuel generalizing a b with
  | zero => exact .ok h
  | succ fuel ih => exact .ite (by rw [h.pqSize]) (.bind h.mergeOnce fun _ _ h => ih h) (.ok h)

theorem mergeAll (h : SameWork a b) : Agree (Engine.mergeAll p a.pqSize.toNat a) (Engine.mergeAll q b.pqSize.toNat b) SameWork := by
  rw [h.pqSize]
  exact h.mergeLoop _

/-- TREE_BUILD begins with the same empty table and heap everywhere (R179). -/
theorem buildStart (h : a.freq = b.freq) : SameWork (a.buildStart p) (b.buildStart q) := ⟨h, rfl, rfl, rfl, rfl⟩

end SameWork

/-- Equal counts give equal trees (R181 item 5). -/
theorem Engine.buildTree_agree {p q : Params} {a b : Engine} (h : a.freq = b.freq) :
    Agree (a.buildTree p) (b.buildTree q) (fun x y => x.nodes = y.nodes ∧ x.nodeCount = y.nodeCount ∧ x.root = y.root) := by
  refine .bind (.foldlM (fun _ _ c h => h.addLeaf c) symbols (SameWork.buildStart h)) fun _ _ h => ?_
  exact .bind h.mergeAll fun _ _ h => .bind h.dequeue fun _ _ ⟨hi, h⟩ => .ok ⟨h.nodes, h.nodeCount, hi⟩

end Sys2Proof.Machine
end

section
/-! SUPPORT. Settles what TREE_BUILD makes (spec/43_tree_builder.md R179 to R181): the one tree that its loops leave in the arena, read
off the table of its nodes. -/

namespace Sys2Proof.Machine

/-! ### Leaves, weights and the order of the indices -/

theorem Shape.leaves_sublist (t : Shape) : t.leaves.Sublist t.indices := by
  induction t with
  | leaf i => exact List.Sublist.refl _
  | branch i l r hl hr => exact (hl.append hr).cons i

/-- The leaves of a tree the arena holds are its nodes with the leaf flag. -/
theorem Shape.mem_leaves_iff {e : Engine} {t : Shape} (h : t.fits e = true) (i : NodeIdx) :
    i ∈ t.leaves ↔ i ∈ t.indices ∧ (e.nodeAt i).leaf = true := by
  induction t with
  | leaf j =>
    rw [Shape.leaves, Shape.indices, List.mem_singleton]
    exact iff_self_and.mpr fun hij => hij ▸ (Shape.fits_leaf h).2.1
  | branch j l r ihl ihr =>
    obtain ⟨-, hleaf, -, -, -, -, -, hl, hr⟩ := Shape.fits_branch h
    rw [Shape.leaves, Shape.indices, List.mem_append, ihl hl, ihr hr, ← or_and_right, List.mem_cons, List.mem_append]
    refine and_congr_left fun hi => (or_iff_right ?_).symm
    rintro rfl
    exact Bool.false_ne_true (hleaf.symm.trans hi)

/-- The weight of a tree is the sum of its leaves' weights (R181 item 3). -/
theorem Shape.weight_eq_sum {e : Engine} {t : Shape} (h : t.fits e = true) :
    (e.nodeAt t.root).weight.toNat = (t.leaves.map (fun i => (e.nodeAt i).weight.toNat)).sum := by
  induction t with
  | leaf i => simp [Shape.leaves]
  | branch i l r ihl ihr =>
    obtain ⟨-, -, -, -, -, -, hweight, hl, hr⟩ := Shape.fits_branch h
    rw [Shape.root_branch, hweight, ihl hl, ihr hr, Shape.leaves, List.map_append, List.sum_append]

/-- Where children stand below their parents, the root stands above all (R181 item 1). -/
theorem Table.le_root {e₀ e : Engine} {cs : List Byte} {t : Shape} (h : Table e₀ cs e) (hf : t.fits e = true) :
    ∀ i ∈ t.indices, i.toNat ≤ t.root.toNat := by
  induction t with
  | leaf i => exact fun j hj => (congrArg BitVec.toNat (List.mem_singleton.mp hj)).le
  | branch i l r ihl ihr =>
    obtain ⟨-, -, -, -, hleft, hright, -, hl, hr⟩ := Shape.fits_branch hf
    have hlt := (h.childOf_lt (k := i) (Shape.fits_root_lt hl) (.inl hleft)).1
    have hrt := (h.childOf_lt (k := i) (Shape.fits_root_lt hr) (.inr hright)).1
    intro j hj
    rw [Shape.root_branch]
    simp only [Shape.indices, List.mem_cons, List.mem_append] at hj
    rcases hj with rfl | hj | hj
    · exact Nat.le_refl _
    · exact (ihl hl j hj).trans hlt.le
    · exact (ihr hr j hj).trans hrt.le

/-! ### The tree and its table -/

theorem Engine.present_ne_nil_iff {e : Engine} : e.present ≠ [] ↔ ∃ c, e.freqAt c ≠ 0 := by
  simp [Engine.present, List.filter_eq_nil_iff, mem_symbols]

/-- TREE_BUILD's check: some symbol is counted (R179). -/
theorem Engine.all_zero_iff {e : Engine} : symbols.all (fun c => e.freqAt c == 0) = true ↔ e.present = [] := by
  simp [Engine.present, List.filter_eq_nil_iff]

theorem Engine.present_congr {a b : Engine} (h : a.freq = b.freq) : a.present = b.present := by
  simp only [Engine.present, Engine.freqAt_congr h]

/-- With some symbol counted, TREE_BUILD ends with one tree, whose nodes stand in the table. -/
theorem Engine.buildTree_tree {p : Params} (hp : ParamsOk p) {e : Engine} (hne : e.present ≠ []) :
    ∃ e' t, Building p (e.buildStart p) e' [t] [] ∧ Table e e.present e' ∧
      e.buildTree p = .ok ({ e' with root := t.root }.setRes t.root.toNat) := by
  obtain ⟨c, hc⟩ := Engine.present_ne_nil_iff.mp hne
  obtain ⟨e', t, hb, hr⟩ := Engine.buildTree_ok hp hc
  have htable := Engine.buildTree_table hp.pqMax_le e _ hr
  exact ⟨e', t, hb, htable.congr (e' := e') rfl (fun _ => rfl), hr⟩

theorem treeBuild_completes {s : State} {e : Engine} (hne : s.engine.present ≠ []) (hr : s.engine.buildTree s.params = .ok e) :
    Completes .treeBuild s e := .of_rule rfl ((if_neg (mt Engine.all_zero_iff.mp hne)).trans hr)

theorem treeBuild_fails {s : State} (h : s.engine.present = []) : FailsWith .treeBuild s 2 :=
  .of_rule .invalidArgument rfl (if_pos (Engine.all_zero_iff.mpr h))

namespace Building

variable {p : Params} {e₀ e e' : Engine} {t : Shape} {cs : List Byte}

theorem mem_indices (hb : Building p e₀ e [t] []) (i : NodeIdx) : i ∈ t.indices ↔ i.toNat < e.nodeCount.toNat := by
  simpa using hb.mem i

theorem indices_nodup (hb : Building p e₀ e [t] []) : t.indices.Nodup := by simpa using hb.nodup

/-- The one tree is the tree under ROOT, and holds every node of the arena (R181). -/
theorem treeIs (hb : Building p e₀ e [t] []) (hn : e'.nodes = e.nodes) (hr : e'.root = t.root) : TreeIs e' t := by
  have hat : ∀ i, e'.nodeAt i = e.nodeAt i := Engine.nodeAt_congr hn
  have hfits := hb.fits t (List.mem_singleton_self t)
  refine ⟨hr.symm, (Shape.fits_congr fun i _ => hat i).trans hfits, hb.indices_nodup, fun i => ?_, ?_⟩
  · rw [hat]
    refine ⟨fun hi => ?_, fun hi => (Shape.fits_mem hfits i hi).2⟩
    by_contra hout
    rw [hb.mem_indices, Nat.not_lt] at hout
    rw [hb.empty i hout] at hi
    exact Bool.false_ne_true hi
  · simpa [Engine.leafSymbols, hat] using hb.symbols_nodup

/-- The leaves are the nodes of the table's leaves: one per counted symbol (R181 item 1). -/
theorem leaves_perm (hb : Building p e₀ e [t] []) (ht : Table e' cs e) :
    t.leaves.Perm ((List.range cs.length).map (BitVec.ofNat 9)) := by
  have hfits := hb.fits t (List.mem_singleton_self t)
  have hle := ht.le_count
  have hmax := ht.count_le
  have hidx : ∀ j, j < cs.length → (BitVec.ofNat 9 j).toNat = j := fun j hj => slot_toNat (by omega)
  refine (List.perm_ext_iff_of_nodup (hb.indices_nodup.sublist t.leaves_sublist) (List.nodup_range.map_on ?_)).mpr fun i => ?_
  · intro j hj k hk h
    rw [← hidx j (List.mem_range.mp hj), ← hidx k (List.mem_range.mp hk), h]
  · have hmem : i ∈ (List.range cs.length).map (BitVec.ofNat 9) ↔ i.toNat < cs.length := by
      rw [List.mem_map]
      constructor
      · rintro ⟨j, hj, rfl⟩
        rw [hidx j (List.mem_range.mp hj)]
        exact List.mem_range.mp hj
      · exact fun hi => ⟨i.toNat, List.mem_range.mpr hi, by simp⟩
    rw [hmem, Shape.mem_leaves_iff hfits, hb.mem_indices]
    exact ⟨fun ⟨hi, hleaf⟩ => (ht.leaf_iff hi).mp hleaf, fun hi => ⟨hi.trans_le hle, (ht.leaf_iff (hi.trans_le hle)).mpr hi⟩⟩

theorem length_leaves (hb : Building p e₀ e [t] []) (ht : Table e' cs e) : t.leaves.length = cs.length := by
  rw [(hb.leaves_perm ht).length_eq, List.length_map, List.length_range]

/-- n leaves make 2n - 1 nodes (R181 item 1). -/
theorem count_eq (hb : Building p e₀ e [t] []) (ht : Table e' cs e) : e.nodeCount.toNat + 1 = 2 * cs.length := by
  have hcount : e.nodeCount.toNat = t.indices.length := by simpa using hb.count
  rw [hcount, t.length_indices, hb.length_leaves ht]

/-- The root is the last node made (R181 item 1). -/
theorem root_eq (hb : Building p e₀ e [t] []) (ht : Table e' cs e) : t.root.toNat + 1 = e.nodeCount.toNat := by
  have hroot := (hb.mem_indices _).mp t.root_mem
  have hmax := ht.count_le
  have hidx : (BitVec.ofNat 9 (e.nodeCount.toNat - 1)).toNat = e.nodeCount.toNat - 1 := slot_toNat (by omega)
  have hlast := ht.le_root (hb.fits t (List.mem_singleton_self t)) _ ((hb.mem_indices (BitVec.ofNat 9 (e.nodeCount.toNat - 1))).mpr (by omega))
  omega

theorem nodeAt_leaf (hb : Building p e₀ e [t] []) (ht : Table e' cs e) {j : Nat} {c : Byte} (hj : cs[j]? = some c) :
    e.nodeAt (BitVec.ofNat 9 j) = Node.newLeaf true c ((e'.freqAt c).setWidth 64) := by
  rw [← Engine.record_eq_nodeAt (fun hq => List.not_mem_nil ((hb.queued _).mp hq))]
  exact ht.leaf j c hj

/-- The root's weight is the sum of the counts (R181 item 3). -/
theorem root_weight (hb : Building p e₀ e [t] []) (ht : Table e' cs e) :
    (e.nodeAt t.root).weight.toNat = (cs.map (fun c => (e'.freqAt c).toNat)).sum := by
  rw [Shape.weight_eq_sum (hb.fits t (List.mem_singleton_self t)), ((hb.leaves_perm ht).map _).sum_eq, List.map_map]
  congr 1
  refine List.ext_getElem (by simp) fun j h1 h2 => ?_
  rw [List.length_map] at h2
  rw [List.getElem_map, List.getElem_map, List.getElem_range, Function.comp_apply, hb.nodeAt_leaf ht (List.getElem?_eq_getElem h2)]
  exact BitVec.toNat_setWidth_of_le (by decide)

end Building

/-! ### The vector T4 -/

/-- An engine with the counts of "ABCD" (vector T4 of spec/95_test_vectors.md). -/
def abcdEngine : Engine :=
  ((((Engine.reset Params.default).setFreq 0x41 1).setFreq 0x42 1).setFreq 0x43 1).setFreq 0x44 1

theorem abcdEngine_freqAt : ∀ c : Byte, abcdEngine.freqAt c = if 0x41 ≤ c.toNat ∧ c.toNat ≤ 0x44 then 1 else 0 := by decide +kernel

theorem Engine.freq_ext {a b : Engine} (h : ∀ c, a.freqAt c = b.freqAt c) : a.freq = b.freq := by
  refine Vector.ext fun i hi => ?_
  have hidx : (BitVec.ofNat 8 i).toNat = i := Nat.mod_eq_of_lt hi
  simpa only [Engine.freqAt, hidx] using h (BitVec.ofNat 8 i)

theorem Run.exists_ok {α : Type} {r : Run α} (P : α → Prop) [DecidablePred P] (h : r.toOption.any (fun a => decide (P a)) = true) :
    ∃ a, r = .ok a ∧ P a := by
  cases r with
  | ok a => exact ⟨a, rfl, of_decide_eq_true h⟩
  | error _ => exact absurd h Bool.false_ne_true

theorem abcdEngine_tree : ∃ e, abcdEngine.buildTree Params.default = .ok e ∧ (e.root = 6 ∧
    e.nodeAt 4 = ⟨true, false, true, 0, 2, 0, 3, 0⟩ ∧ e.nodeAt 5 = ⟨true, false, true, 0, 2, 2, 1, 0⟩ ∧
    e.nodeAt 6 = ⟨true, false, true, 0, 4, 4, 5, 0⟩) := Run.exists_ok _ (by decide +kernel)

/-! ### The statements -/

/-- Settles O46: the tree of the loops with its table; two runs with equal counts agree, so that of "ABCD" is the one evaluated. -/
theorem treeBuildMakesTheTree : Obligations.TreeBuildMakesTheTree := by
  intro s hp
  refine ⟨fun hne => ?_, fun hfreq => ?_, fun h0 => treeBuild_fails (not_not.mp (mt Engine.present_ne_nil_iff.mp fun ⟨c, hc⟩ => hc (h0 c)))⟩
  · obtain ⟨e', t, hb, ht, hr⟩ := Engine.buildTree_tree hp hne
    have hcount := hb.count_eq ht
    have hroot := hb.root_eq ht
    refine ⟨_, t, treeBuild_completes hne hr, ?_, hb.cap, ?_, fun i hq => List.not_mem_nil ((hb.queued i).mp hq), hb.treeIs rfl rfl,
      hb.length_leaves ht, ?_, ?_, ?_, fun j c hj => hb.nodeAt_leaf ht hj, hb.empty, hb.root_weight ht, fun s' hp' hf => ?_⟩
    · have hsize : e'.pqSize = 0 := BitVec.eq_of_toNat_eq hb.size
      rw [hb.frame, hsize]
      rfl
    · intro k
      obtain rfl | hk := Nat.eq_zero_or_pos k
      · exact Engine.heapAt_zero _
      · exact hb.queue.vacant k (hb.size.trans_lt hk)
    · exact Nat.eq_sub_of_add_eq hcount
    · show t.root.toNat = _
      omega
    · exact congrArg Engine.res (Engine.setRes_toNat { e' with root := t.root } t.root)
    · obtain ⟨e₂, t₂, -, -, hr₂⟩ := Engine.buildTree_tree hp' (Engine.present_congr hf ▸ hne)
      exact ⟨_, treeBuild_completes (Engine.present_congr hf ▸ hne) hr₂, Engine.buildTree_agree hf _ _ hr₂ hr⟩
  · have hf : s.engine.freq = abcdEngine.freq := Engine.freq_ext fun c => (hfreq c).trans (abcdEngine_freqAt c).symm
    have hne : s.engine.present ≠ [] := Engine.present_ne_nil_iff.mpr ⟨0x41, by rw [hfreq]; decide⟩
    obtain ⟨e', t, -, -, hr⟩ := Engine.buildTree_tree hp hne
    obtain ⟨e₄, hr₄, hroot, h4, h5, h6⟩ := abcdEngine_tree
    obtain ⟨hnodes, -, hroots⟩ := Engine.buildTree_agree hf _ _ hr hr₄
    exact ⟨_, treeBuild_completes hne hr, hroots.trans hroot, (Engine.nodeAt_congr hnodes 4).trans h4,
      (Engine.nodeAt_congr hnodes 5).trans h5, (Engine.nodeAt_congr hnodes 6).trans h6⟩

/-- Settles O47: every internal node of the table merged the two lightest. -/
theorem treeBuildMergesTheTwoLightest : Obligations.TreeBuildMergesTheTwoLightest := by
  intro s t hp hexec hok i hin hinternal l r
  obtain ⟨e, hr, rfl⟩ : ∃ e, s.engine.buildTree s.params = .ok e ∧ t = s.complete e := by
    rcases State.finish_eq_next (s := s) hexec with ⟨e, he, rfl⟩ | ⟨k, -, rfl⟩
    · exact ⟨e, (ite_raise_eq_ok.mp he).2, rfl⟩
    · exact absurd hok k.code_ne_zero
  have ht : Table s.engine s.engine.present e := Engine.buildTree_table hp.pqMax_le s.engine e hr
  have hi : i.toNat < e.nodeCount.toNat := (ht.inTree_iff i).mp hin
  have hlow : s.engine.present.length ≤ i.toNat := Nat.le_of_not_lt fun hlt =>
    Bool.false_ne_true (hinternal.symm.trans ((ht.leaf_iff hi).mpr hlt))
  obtain ⟨-, -, hl, hrt, hne, hle, hleast⟩ := ht.merged i hlow hi
  refine ⟨hl, hrt, hne, (ht.inTree_iff l).mpr (hl.trans hi), (ht.inTree_iff r).mpr (hrt.trans hi), hle, fun j hj hji hjl hjr hlater => ?_⟩
  have hmax := ht.count_le
  exact hleast j hji hjl hjr fun k hk => hlater k ((ht.inTree_iff k).mpr (ht.childOf_lt (by omega) hk).2) hk

end Sys2Proof.Machine
end

section
/-! SUPPORT. Settles what the encoding-map commands answer and how they fail (spec/44_encoding_map.md R200 to R203): the map of a tree
is read off its paths. -/

namespace Sys2Proof.Machine

/-- Settles O53: each reader checks the entry and answers one of its fields, zero-extended. -/
theorem mapGetReadsTheEntry : Obligations.MapGetReadsTheEntry := by
  intro s symbol
  refine ⟨fun hvalid => ?_, fun habsent => ?_⟩
  · have hpass : ¬ (!(s.engine.mapAt symbol).valid) = true := by simp [hvalid]
    refine ⟨.of_rule rfl ((if_neg hpass).trans (congrArg Except.ok ?_)),
      .of_rule rfl ((if_neg hpass).trans (congrArg Except.ok (s.engine.setRes_toNat _)))⟩
    rw [Engine.setRes_toNat, BitVec.setWidth_eq]
  · have hfail : (!(s.engine.mapAt symbol).valid) = true := by simp [habsent]
    exact ⟨.of_rule .symbolNotFound rfl (if_pos hfail), .of_rule .symbolNotFound rfl (if_pos hfail)⟩

/-! ### The entry of a symbol -/

namespace Shape

variable {e : Engine} {t : Shape}

/-- A path of the tree ends at one of its leaves. -/
theorem mem_leaves_of_path {i : NodeIdx} {bits : List Bool} (h : (i, bits) ∈ t.paths) : i ∈ t.leaves := by
  rw [← t.paths_leaves]
  exact List.mem_map_of_mem (f := fun x : NodeIdx × List Bool => x.1) h

/-- With no symbol twice, the path found for a leaf's symbol is that leaf's. -/
theorem pathOf_of_path (hs : (t.leaves.map (fun i => (e.nodeAt i).symbol)).Nodup) {i : NodeIdx} {bits : List Bool}
    (h : (i, bits) ∈ t.paths) : t.pathOf e (e.nodeAt i).symbol = some bits := by
  rw [← t.paths_leaves, List.map_map] at hs
  have hfound : (t.paths.find? (fun x => decide ((e.nodeAt x.1).symbol = (e.nodeAt i).symbol))).isSome :=
    List.find?_isSome.mpr ⟨(i, bits), h, decide_eq_true rfl⟩
  obtain ⟨x, hx⟩ := Option.isSome_iff_exists.mp hfound
  have hsame : (e.nodeAt x.1).symbol = (e.nodeAt i).symbol := by simpa using List.find?_some hx
  have heq : x = (i, bits) := List.inj_on_of_nodup_map hs (List.mem_of_find?_eq_some hx) h hsame
  rw [pathOf, hx, heq]
  rfl

/-- A symbol of no leaf has no path. -/
theorem pathOf_of_not_mem {c : Byte} (hc : c ∉ t.leaves.map (fun i => (e.nodeAt i).symbol)) : t.pathOf e c = none := by
  have hnone : t.paths.find? (fun x => decide ((e.nodeAt x.1).symbol = c)) = none :=
    List.find?_eq_none.mpr fun x hx hsym => hc (List.mem_map.mpr ⟨x.1, mem_leaves_of_path hx, of_decide_eq_true hsym⟩)
  rw [pathOf, hnone]
  rfl

theorem entry_of_path (hs : (t.leaves.map (fun i => (e.nodeAt i).symbol)).Nodup) {i : NodeIdx} {bits : List Bool}
    (h : (i, bits) ∈ t.paths) :
    t.entry e (e.nodeAt i).symbol = CodeEntry.present (BitVec.ofNat 64 (pathCode bits)) (max bits.length 1) := by
  rw [entry, pathOf_of_path hs h]
  rfl

theorem entry_of_not_mem {c : Byte} (hc : c ∉ t.leaves.map (fun i => (e.nodeAt i).symbol)) : t.entry e c = CodeEntry.absent := by
  rw [entry, pathOf_of_not_mem hc]
  rfl

/-- Exactly the symbols of the leaves have an entry (R201). -/
theorem entry_valid_iff (hs : (t.leaves.map (fun i => (e.nodeAt i).symbol)).Nodup) (c : Byte) :
    (t.entry e c).valid = true ↔ c ∈ t.leaves.map (fun i => (e.nodeAt i).symbol) := by
  by_cases hc : c ∈ t.leaves.map (fun i => (e.nodeAt i).symbol)
  · obtain ⟨i, hi, rfl⟩ := List.mem_map.mp hc
    obtain ⟨bits, hbits⟩ := exists_path hi
    rw [entry_of_path hs hbits]
    exact iff_of_true rfl hc
  · rw [entry_of_not_mem hc]
    exact iff_of_false Bool.false_ne_true hc

end Shape

/-! ### The map MAP_BUILD makes -/

/-- Appending one branch to a code makes it the code's last bit (R200). -/
theorem codeWord_snoc (n : Nat) (b : Bool) :
    (if b then BitVec.ofNat 64 n <<< 1 ||| 1 else BitVec.ofNat 64 n <<< 1) = BitVec.ofNat 64 (2 * n + b.toNat) := by
  have hshift : BitVec.ofNat 64 n <<< 1 = BitVec.ofNat 64 (2 * n) := by
    rw [BitVec.shiftLeft_eq_mul_twoPow, BitVec.ofNat_mul, BitVec.mul_comm]
    rfl
  cases b with
  | false => exact hshift
  | true =>
    have hor : 2 ^ 1 * n + 1 = 2 ^ 1 * n ||| 1 := Nat.two_pow_add_eq_or_of_lt (by decide) n
    rw [if_pos rfl, hshift, Bool.toNat_true, show 2 * n + 1 = 2 * n ||| 1 from hor, BitVec.ofNat_or]
    rfl

/-- The codes `assign` makes are the paths read as numbers, cut to 64 bits (R200). -/
theorem pathWord_zero (bits : List Bool) : pathWord 0 bits = BitVec.ofNat 64 (pathCode bits) := by
  suffices h : ∀ n, pathWord (BitVec.ofNat 64 n) bits = BitVec.ofNat 64 (bits.foldl (fun c b => 2 * c + b.toNat) n) from h 0
  induction bits with
  | nil => exact fun n => rfl
  | cons b bits ih => exact fun n => (congrArg (pathWord · bits) (codeWord_snoc n b)).trans (ih _)

/-- Everything the filling of the map can do on a tree: each symbol gets its entry (R200, R201). -/
theorem Engine.fillMap_ok {e : Engine} {t : Shape} (ht : TreeIs e t) :
    ∃ e', e.fillMap (e.nodeAt e.root) = .ok e' ∧ e' = { e with codeMap := e'.codeMap } ∧ ∀ c, e'.mapAt c = t.entry e c := by
  cases t with
  | leaf i =>
    have hroot : e.root = i := ht.root_eq.symm
    refine ⟨_, if_pos (hroot ▸ (Shape.fits_leaf ht.fits).2.1), rfl, fun c => ?_⟩
    rw [hroot, Engine.mapAt_setMap]
    by_cases hc : c = (e.nodeAt i).symbol
    · rw [if_pos hc, hc, Shape.entry_of_path ht.symbols_nodup (List.mem_singleton_self (i, []))]
      rfl
    · rw [if_neg hc, Engine.mapAt_clearMap, Shape.entry_of_not_mem (by simpa [Shape.leaves] using hc)]
  | branch i l r =>
    have hroot : e.root = i := ht.root_eq.symm
    have hinternal : ¬ (e.nodeAt e.root).leaf = true := hroot ▸ ne_true_of_eq_false (Shape.fits_branch ht.fits).2.1
    have hfits : (Shape.branch i l r).fits e.clearMap = true := (Shape.fits_congr (a := e) (b := e.clearMap) (fun _ _ => rfl)).trans ht.fits
    obtain ⟨e', hr, hf, hpaths, hothers⟩ := Engine.assign_ok hfits ht.symbols_nodup ht.height_lt 0 0
    refine ⟨e', (if_neg hinternal).trans (ht.root_eq ▸ hr), hf, fun c => ?_⟩
    by_cases hc : c ∈ (Shape.branch i l r).leaves.map (fun j => (e.nodeAt j).symbol)
    · obtain ⟨j, hj, rfl⟩ := List.mem_map.mp hc
      obtain ⟨bits, hbits⟩ := Shape.exists_path hj
      rw [Shape.entry_of_path ht.symbols_nodup hbits, Nat.max_eq_left (Shape.paths_length_pos hbits), ← pathWord_zero]
      exact (hpaths j bits hbits).trans (by rw [Nat.zero_add])
    · rw [Shape.entry_of_not_mem hc]
      exact (hothers c hc).trans (Engine.mapAt_clearMap e c)

/-- MAP_COUNT counts the symbols with an entry (spec/10_state.md R32). -/
theorem Engine.mapCount_eq (e : Engine) : e.mapCount = symbols.countP (fun c => (e.mapAt c).valid) := by
  have htable : e.codeMap.toList = symbols.map e.mapAt := by
    refine List.ext_getElem (by simp [symbols]) fun i h1 h2 => ?_
    have hi : i < 256 := by simpa using h1
    simp [symbols, Engine.mapAt, Nat.mod_eq_of_lt hi]
  rw [Engine.mapCount, htable, List.countP_map]
  rfl

/-- A map with an entry for each symbol of a tree has as many entries as the tree has leaves (R201). -/
theorem Engine.mapCount_of_tree {e e' : Engine} {t : Shape} (ht : TreeIs e t) (hmap : ∀ c, e'.mapAt c = t.entry e c) :
    e'.mapCount = t.leaves.length := by
  have hperm : (symbols.filter (fun c => (e'.mapAt c).valid)).Perm (t.leaves.map (fun i => (e.nodeAt i).symbol)) :=
    (List.perm_ext_iff_of_nodup (symbols_nodup.filter _) ht.symbols_nodup).mpr fun c => by
      rw [List.mem_filter, hmap, Shape.entry_valid_iff ht.symbols_nodup, and_iff_right (mem_symbols c)]
  rw [Engine.mapCount_eq, List.countP_eq_length_filter, hperm.length_eq, List.length_map]

/-- MAP_BUILD's rule on a tree, after the check of ROOT: the check of the height, then the filling (R201). -/
theorem mapBuild_rule {s : State} {t : Shape} (ht : TreeIs s.engine t) :
    exec .mapBuild s = s.finish (if (!(s.engine.nodeAt s.engine.root).leaf && decide (codeW < t.height)) = true
      then raise .codeLengthExceeded
      else s.engine.fillMap (s.engine.nodeAt s.engine.root) >>= fun e => .ok (e.setRes e.mapCount)) := by
  have hroot : s.engine.root.toNat < 511 := ht.root_eq ▸ Shape.fits_root_lt ht.fits
  refine congrArg s.finish ((if_neg ht.root_ne_nil).trans ?_)
  rw [Engine.readNode_ok _ hroot, Run.ok_bind, Engine.rootHeight_ok ht, Run.ok_bind]

/-- Settles O51: the check on the height lets a tree of height at most 64 pass, one-leaf trees among them, and `assign` does the rest. -/
theorem mapBuildRecordsThePaths : Obligations.MapBuildRecordsThePaths := by
  intro s t ht
  refine ⟨fun hle => ?_, fun hlt => .of_rule .codeLengthExceeded (mapBuild_rule ht) (if_pos ?_)⟩
  · obtain ⟨e, hr, hf, hmap⟩ := Engine.fillMap_ok ht
    refine ⟨e.setRes e.mapCount, .of_rule (mapBuild_rule ht) ((if_neg ?_).trans ?_), ?_, hmap⟩
    · simp [Nat.not_lt.mpr hle]
    · rw [hr, Run.ok_bind]
    · rw [Engine.mapCount_of_tree ht hmap]
      exact congrArg (fun x : Engine => x.setRes t.leaves.length) hf
  · rw [← ht.root_eq]
    cases t with
    | leaf i => exact absurd hlt (by simp [Shape.height])
    | branch i l r => simp [(Shape.fits_branch ht.fits).2.1, hlt]

end Sys2Proof.Machine
end

section
/-! SUPPORT. Settles that no code of the map begins another (spec/44_encoding_map.md R204 items 2 and 5): no path of a tree begins another,
MAP_BUILD records paths, and every other command leaves MAP as it is or empties it. -/

namespace Sys2Proof.Machine

/-! ### The bits of an entry -/

/-- Bit `k` of a path's number is the branch `k` places before its last (R200). -/
theorem pathCode_testBit (bits : List Bool) (k : Nat) : (pathCode bits).testBit k = (bits.reverse[k]?).getD false := by
  induction bits using List.reverseRecOn generalizing k with
  | nil => simp [pathCode]
  | append_singleton bits b ih =>
    have hcode : pathCode (bits ++ [b]) = Nat.bit b (pathCode bits) := by
      rw [pathCode, List.foldl_append, Nat.bit_val]
      rfl
    rw [hcode, List.reverse_append]
    cases k with
    | zero => rw [Nat.testBit_bit_zero]; rfl
    | succ k => rw [Nat.testBit_bit_succ, ih]; rfl

/-- The entry of a path of 1 to 64 branches reads back as that path (R200, R202). -/
theorem CodeEntry.bits_present {bits : List Bool} (hne : bits ≠ []) (hle : bits.length ≤ 64) :
    (CodeEntry.present (BitVec.ofNat 64 (pathCode bits)) (max bits.length 1)).bits = bits := by
  have hpos : 1 ≤ bits.length := List.length_pos_iff.mpr hne
  have hlen : (BitVec.ofNat 7 (max bits.length 1)).toNat = bits.length := by
    rw [Nat.max_eq_left hpos, BitVec.toNat_ofNat, Nat.mod_eq_of_lt (by omega)]
  refine List.ext_getElem (by simp [CodeEntry.bits, CodeEntry.present, hlen]) fun j _ hj => ?_
  have hback : bits.reverse[bits.length - 1 - j]? = some bits[j] := by
    rw [List.getElem?_reverse (by omega), show bits.length - 1 - (bits.length - 1 - j) = j by omega, List.getElem?_eq_getElem hj]
  have hbit : (BitVec.ofNat 64 (pathCode bits)).getLsbD (bits.length - 1 - j) = bits[j] := by
    rw [BitVec.getLsbD_ofNat, decide_eq_true (by omega), pathCode_testBit, hback]
    rfl
  simp [CodeEntry.bits, CodeEntry.present, hlen, hbit]

/-! ### The paths of a tree -/

/-- A path that begins another leads to the same leaf: no leaf stands above another (R204 item 2). -/
theorem Shape.eq_of_path_prefix {t : Shape} {i j : NodeIdx} {b c : List Bool} (hi : (i, b) ∈ t.paths) (hj : (j, c) ∈ t.paths)
    (hpre : b <+: c) : i = j := by
  induction t generalizing b c with
  | leaf k =>
    rw [Shape.paths, List.mem_singleton, Prod.mk.injEq] at hi hj
    exact hi.1.trans hj.1.symm
  | branch k l r hl hr =>
    simp only [Shape.paths, List.mem_append, List.mem_map, Prod.mk.injEq, Prod.exists] at hi hj
    rcases hi with ⟨_, b, hb, rfl, rfl⟩ | ⟨_, b, hb, rfl, rfl⟩ <;>
      rcases hj with ⟨_, c, hc, rfl, rfl⟩ | ⟨_, c, hc, rfl, rfl⟩ <;>
      rw [List.cons_prefix_cons] at hpre
    · exact hl hb hc hpre.2
    · exact absurd hpre.1 (by decide)
    · exact absurd hpre.1 (by decide)
    · exact hr hb hc hpre.2

/-- In the map of a tree no higher than 64 no code begins another: the codes are paths to different leaves, neither of them empty. -/
theorem PrefixFree.of_tree {e e' : Engine} {t : Shape} (ht : TreeIs e t) (hh : t.height ≤ 64) (hmap : ∀ c, e'.mapAt c = t.entry e c) :
    PrefixFree e' := by
  intro c d hcd hc hd hpre
  rw [hmap, Shape.entry_valid_iff ht.symbols_nodup, List.mem_map] at hc hd
  obtain ⟨i, hi, rfl⟩ := hc
  obtain ⟨j, hj, rfl⟩ := hd
  obtain ⟨b, hb⟩ := Shape.exists_path hi
  obtain ⟨b', hb'⟩ := Shape.exists_path hj
  have hij : i ≠ j := fun h => hcd (h ▸ rfl)
  have hne : b ≠ [] := by
    rintro rfl
    exact hij (Shape.eq_of_path_prefix hb hb' List.nil_prefix)
  have hne' : b' ≠ [] := by
    rintro rfl
    exact hij (Shape.eq_of_path_prefix hb' hb List.nil_prefix).symm
  rw [hmap, hmap, Shape.entry_of_path ht.symbols_nodup hb, Shape.entry_of_path ht.symbols_nodup hb',
    CodeEntry.bits_present hne ((Shape.paths_length hb).trans hh), CodeEntry.bits_present hne' ((Shape.paths_length hb').trans hh)] at hpre
  exact hij (Shape.eq_of_path_prefix hb hb' hpre)

/-! ### MAP_BUILD -/

/-- A MAP_BUILD that completes found a tree no higher than 64, and the map has its entries (R201). -/
theorem mapBuild_cases {s t : State} (htree : TreeOk s.engine) (h : exec .mapBuild s = .next t) (hok : t.status.errCode = 0) :
    ∃ u, TreeIs s.engine u ∧ u.height ≤ 64 ∧ ∀ c, t.engine.mapAt c = u.entry s.engine c := by
  have hcompleted : ∀ code, FailsWith .mapBuild s code → code = 0 := fun code hfail => by
    cases h.symm.trans hfail
    exact hok
  obtain ⟨u, hu⟩ := htree.exists_tree fun hroot =>
    absurd (hcompleted 2 (treeCommandsFailWithoutATree s hroot).2.2.1) (by decide)
  obtain ⟨hbuild, hdeep⟩ := mapBuildRecordsThePaths s u hu
  have hle : u.height ≤ 64 := Nat.le_of_not_lt fun hlt => absurd (hcompleted 7 (hdeep hlt)) (by decide)
  obtain ⟨e, hcompletes, -, hmap⟩ := hbuild hle
  cases h.symm.trans hcompletes
  exact ⟨u, hu, hle, hmap⟩

/-- Settles O52: the map has the entries of the tree under ROOT. -/
theorem mapBuildIsPrefixFree : Obligations.MapBuildIsPrefixFree := by
  intro s t hinv h hok
  obtain ⟨u, hu, hle, hmap⟩ := mapBuild_cases hinv.tree h hok
  exact .of_tree hu hle hmap

/-! ### The procedures that leave MAP alone -/

namespace Engine

variable {p : Params} {m : Vector CodeEntry 256} {e : Engine}

theorem memWrite_codeMap {sp : Space} {idx : Nat} {v : Byte} (h : e.codeMap = m) : Yields (e.memWrite p sp idx v) (·.codeMap = m) :=
  .ite (.ok ((by cases sp <;> rfl : (e.withSpace sp _).codeMap = e.codeMap).trans h)) (.stuck _)

theorem writeBits_codeMap {v : Word64} {n q : Nat} (h : e.codeMap = m) : Yields (writeBits p v n e q) (·.codeMap = m) := by
  induction n generalizing e q with
  | zero => exact .ok h
  | succ n ih => exact .bind (.read fun _ => memWrite_codeMap h) fun _ h => ih h

theorem bbAppend_codeMap {v : Word64} {n : Nat} (h : e.codeMap = m) : Yields (e.bbAppend p v n) (·.codeMap = m) :=
  .check (.read fun _ => .bind (writeBits_codeMap h) fun _ h => .ok h)

theorem loadByte_codeMap {sp : Space} {index : Nat} (h : e.codeMap = m) : Yields (e.loadByte p sp index) (·.codeMap = m) :=
  .check (.read fun _ => .ok h)

theorem decodeLoop_codeMap {n j q : Nat} (h : e.codeMap = m) : Yields (decodeLoop p n e j q) (·.1.codeMap = m) := by
  induction n generalizing e j q with
  | zero => exact .ok h
  | succ n ih => exact .read fun _ => .bind (memWrite_codeMap h) fun _ h => ih h

theorem writeNode_codeMap {i : Nat} {n : Node} (h : e.codeMap = m) : Yields (e.writeNode i n) (·.codeMap = m) := .ite (.ok h) (.stuck _)

theorem nodeAlloc_codeMap {n : Node} (h : e.codeMap = m) : Yields (e.nodeAlloc n) (·.2.codeMap = m) :=
  .check (.bind (writeNode_codeMap h) fun _ h => .ok h)

theorem countBytes_codeMap {input : List Byte} : (input.foldl countByte e).codeMap = e.codeMap := by
  rw [countBytes_frame]

end Engine

/-! ### The commands that leave MAP alone -/

section Commands

variable {s : State}

/-- The commands whose rule writes MAP. -/
theorem codeMap_mem_partsWritten {i : Instr} (h : Part.codeMap ∈ partsWritten i) : i = .softReset ∨ i = .mapBuild := by
  cases i <;> simp [partsWritten] at h ⊢

/-- A rule that leaves MAP alone makes a command that does. -/
theorem Answers.sameMap {i : Instr} {r : Run Engine} (hi : exec i s = s.finish r) (h : Yields r (·.codeMap = s.engine.codeMap)) :
    Answers (exec i s) (·.codeMap = s.engine.codeMap) := .of_rule hi rfl h

/-- A rule without a check, by the engine state it commits. -/
theorem Answers.commitsMap {i : Instr} (e : Engine) (hi : exec i s = s.finish (.ok e)) (h : e.codeMap = s.engine.codeMap) :
    Answers (exec i s) (·.codeMap = s.engine.codeMap) := .sameMap hi (.ok h)

theorem regRead_codeMap (selector : Nat) : Answers (exec (.regRead selector) s) (·.codeMap = s.engine.codeMap) := by
  refine .sameMap rfl ?_
  cases hv : s.engine.regValue s.params selector with
  | some v => simp only [hv]; exact .ok rfl
  | none => simp only [hv]; exact .raise _

theorem pqInit_codeMap (hinv : Inv s) (capacity : Nat) : Answers (exec (.pqInit capacity) s) (·.codeMap = s.engine.codeMap) :=
  .sameMap rfl <| .check <| by
    obtain ⟨e, hr, hf, -⟩ := hinv.queue.clearSlots_ok hinv.params
    rw [hr, Run.ok_bind]
    exact .ok (by rw [hf]; rfl)

theorem pqInsert_codeMap (hinv : Inv s) (node : Nat) : Answers (exec (.pqInsert node) s) (·.codeMap = s.engine.codeMap) :=
  .sameMap rfl <| Ends.yields <| Engine.validNode_ends fun _ hv => .check fun _ => .check fun hnew => .check fun hfull => by
    obtain ⟨e, _, hr, hf, -⟩ := Engine.enqueue_ok hinv.params.pqMax_le hinv.queue hv hnew
      (Nat.lt_of_le_of_ne hinv.queue.size_le fun heq => hfull (BitVec.eq_of_toNat_eq heq))
    exact .of_ok hr (by rw [hf])

theorem pqExtractMin_codeMap (hinv : Inv s) : Answers (exec .pqExtractMin s) (·.codeMap = s.engine.codeMap) :=
  .sameMap rfl <| Ends.yields <| .check fun hne => by
    obtain ⟨e, hr, hf, -⟩ := Engine.dequeue_ok hinv.params.pqMax_le hinv.queue
      (Nat.one_le_iff_ne_zero.mpr fun h0 => hne (BitVec.eq_of_toNat_eq h0))
    rw [hr, Run.ok_bind]
    exact .ok (by rw [hf]; rfl)

theorem pqChangePriority_codeMap (hinv : Inv s) (node : Nat) :
    Answers (exec (.pqChangePriority node) s) (·.codeMap = s.engine.codeMap) :=
  .sameMap rfl <| Ends.yields <| Engine.validNode_ends fun _ _ => .check fun hslot => by
    obtain ⟨h1, hk, -⟩ := hinv.queue.slot_range hslot
    obtain ⟨e, hr, hm, -⟩ :=
      Engine.reposition_ok hinv.params.pqMax_le hinv.queue.entries (hinv.queue.size_le.trans hinv.queue.cap_le) h1 hk
    exact .of_ok hr (by rw [hm.frame])

theorem treeBuild_codeMap (hinv : Inv s) : Answers (exec .treeBuild s) (·.codeMap = s.engine.codeMap) := by
  by_cases hne : s.engine.present = []
  · intro t ht
    cases ht.symm.trans (treeBuild_fails hne)
    rfl
  · obtain ⟨c, hc⟩ := Engine.present_ne_nil_iff.mp hne
    obtain ⟨e, t, hb, hr⟩ := Engine.buildTree_ok hinv.params hc
    intro u hu
    cases hu.symm.trans (treeBuild_completes hne hr)
    exact (by rw [hb.frame]; rfl : e.codeMap = s.engine.codeMap)

theorem treeFree_codeMap (hinv : Inv s) : Answers (exec .treeFree s) (·.codeMap = s.engine.codeMap) :=
  .sameMap rfl <| Ends.yields <| .check fun hroot => by
    obtain ⟨t, ht⟩ := hinv.tree.exists_tree hroot
    obtain ⟨e, hr, hf, -⟩ := Engine.release_ok ht.fits ht.nodup ht.height_lt
    rw [← ht.root_eq, hr, Run.ok_bind]
    exact .ok (by rw [hf])

/-- From the invariant every command but MAP_BUILD and SOFT_RESET leaves MAP as it is (R204 item 5). -/
theorem exec_codeMap (hinv : Inv s) : ∀ i, Part.codeMap ∉ partsWritten i → Answers (exec i s) (·.codeMap = s.engine.codeMap)
  | .nop, _ => .commitsMap s.engine rfl rfl
  | .clrSticky, _ => by rintro _ ⟨⟩; rfl
  | .regRead selector, _ => regRead_codeMap selector
  | .memWr _ _, _ => .sameMap rfl (.check (Engine.memWrite_codeMap rfl))
  | .memRd _, _ => .sameMap rfl (Engine.loadByte_codeMap rfl)
  | .outRd _, _ => .sameMap rfl (Engine.loadByte_codeMap rfl)
  | .bbNew _, _ => .sameMap rfl (.check (.ok rfl))
  | .bbWrite _ _, _ => .sameMap rfl (.check (.check (Engine.bbAppend_codeMap rfl)))
  | .bbReadBit, _ => .sameMap rfl (.check (.read fun _ => .ok rfl))
  | .bbAdvance, _ => .sameMap rfl (.check (.ok rfl))
  | .bbRewind, _ => .commitsMap (s.engine.setCursor 0) rfl rfl
  | .bbSizeBits, _ => .commitsMap (s.engine.setRes _) rfl rfl
  | .bbByteOffset, _ => .commitsMap (s.engine.setRes _) rfl rfl
  | .bbBitOffset, _ => .commitsMap (s.engine.setRes _) rfl rfl
  | .bbGetByte _, _ => .sameMap rfl (.check (.read fun _ => .ok rfl))
  | .pqInit capacity, _ => pqInit_codeMap hinv capacity
  | .pqInsert node, _ => pqInsert_codeMap hinv node
  | .pqExtractMin, _ => pqExtractMin_codeMap hinv
  | .pqSize, _ => .commitsMap (s.engine.setRes _) rfl rfl
  | .pqChangePriority node, _ => pqChangePriority_codeMap hinv node
  | .pqReadHeap _, _ => .sameMap rfl (.check (.read fun _ => .ok rfl))
  | .freqClear, _ => .commitsMap s.engine.clearFreq rfl rfl
  | .freqSet _, _ => .sameMap rfl (.check (.ok rfl))
  | .freqGet _, _ => .commitsMap (s.engine.setRes _) rfl rfl
  | .freqCount _, _ => .sameMap rfl (.check (.ok Engine.countBytes_codeMap))
  | .nodeNewLeaf _, _ => .sameMap rfl (.bind (Engine.nodeAlloc_codeMap rfl) fun _ h => .ok h)
  | .nodeSetWeight _, _ => .sameMap rfl (.read fun _ => .check (Engine.writeNode_codeMap rfl))
  | .nodeRead field _, _ => .sameMap rfl <| .check <| .read fun n => by
    cases n.fieldValue field with
    | some v => exact .ok rfl
    | none => exact .raise _
  | .arenaReset, _ => .commitsMap s.engine.clearArena rfl rfl
  | .treeBuild, _ => treeBuild_codeMap hinv
  | .treeHeight, _ => .sameMap rfl (.check (.read fun _ => .ok rfl))
  | .treeFree, _ => treeFree_codeMap hinv
  | .mapGetCode _, _ => .sameMap rfl (.check (.ok rfl))
  | .mapGetLen _, _ => .sameMap rfl (.check (.ok rfl))
  | .encode _, _ => .sameMap rfl <| .check <| .check <| .check <|
    .bind (.foldlM (fun _ _ h => Engine.bbAppend_codeMap h) _ rfl) fun _ h => .ok h
  | .encSym _, _ => .sameMap rfl (.check (Engine.bbAppend_codeMap rfl))
  | .decode _, _ => .sameMap rfl (.check (.check (.bind (Engine.decodeLoop_codeMap rfl) fun _ h => .ok h)))
  | .decSym, _ => .sameMap rfl (.check (.read fun _ => .ok rfl))
  | .softReset, h => absurd (by decide) h
  | .mapBuild, h => absurd (by decide) h

end Commands

/-! ### Every step -/

theorem PrefixFree.congr {a b : Engine} (h : PrefixFree a) (hm : b.codeMap = a.codeMap) : PrefixFree b := by
  have hat : b.mapAt = a.mapAt := funext fun c => by simp only [Engine.mapAt, hm]
  rw [PrefixFree, hat]
  exact h

/-- A map without entries has no code that begins another: so it is after reset (spec/10_state.md R43). -/
theorem PrefixFree.reset (p : Params) : PrefixFree (Engine.reset p) := fun c _ _ hc _ => by
  rw [engineReset_mapAt] at hc
  exact absurd hc Bool.false_ne_true

theorem mapBuild_prefixFree {s : State} (hinv : Inv s) (h : PrefixFree s.engine) : Answers (exec .mapBuild s) PrefixFree := by
  intro t ht
  by_cases hok : t.status.errCode = 0
  · exact mapBuildIsPrefixFree s t hinv ht hok
  · rcases exec_eq_next (by decide) (by decide) ht with ⟨e, rfl⟩ | ⟨k, rfl⟩
    · exact absurd rfl hok
    · exact h

/-- Every command from a state of the invariant keeps `PrefixFree` (R204 item 5). -/
theorem exec_prefixFree {s : State} (hinv : Inv s) (h : PrefixFree s.engine) (i : Instr) : Answers (exec i s) PrefixFree := by
  by_cases hw : Part.codeMap ∈ partsWritten i
  · rcases codeMap_mem_partsWritten hw with rfl | rfl
    · rintro _ ⟨⟩
      exact .reset _
    · exact mapBuild_prefixFree hinv h
  · exact fun t ht => h.congr (exec_codeMap hinv i hw t ht)

/-- A host store changes nothing of the engine (spec/10_state.md R20 to R22). -/
theorem State.hostStore_engine (s : State) (width : AccessWidth) (addr : Nat) (v : Word64) :
    Answers (s.hostStore width addr v) (· = s.engine) := by
  rw [State.hostStore]
  cases target s.params.baseAddr width addr with
  | outside => rintro _ ⟨⟩
  | cmd =>
    rintro _ ⟨⟩
    rcases s.storeCmd_cases v with ⟨-, heq⟩ | ⟨-, heq⟩ <;> exact (congrArg State.engine heq).trans rfl
  | nothing | data | res | status | id => rintro _ ⟨⟩; rfl

/-- A host load changes nothing of the engine (spec/20_memory.md R68). -/
theorem State.hostLoad_engine (s : State) (width : AccessWidth) (addr : Nat) : Answers (s.hostLoad width addr) (· = s.engine) := by
  rw [State.hostLoad]
  cases target s.params.baseAddr width addr with
  | outside => rintro _ ⟨⟩
  | nothing | cmd | data | res | status | id => rintro _ ⟨⟩; rfl

theorem State.engineTurn_prefixFree {s : State} (hinv : Inv s) (h : PrefixFree s.engine) : Answers s.engineTurn PrefixFree := by
  intro t ht
  rcases State.engineTurn_eq_next ht with ⟨-, i, -, hexec⟩ | ⟨-, -, rfl⟩ | ⟨-, rfl⟩
  · exact exec_prefixFree hinv h i t hexec
  · exact h
  · exact h

/-- Every event from a state of the invariant keeps `PrefixFree`. -/
theorem State.deliver_prefixFree {s : State} (hinv : Inv s) (h : PrefixFree s.engine) : ∀ ev, Answers (s.deliver ev) PrefixFree
  | .store width addr value => fun t ht => (s.hostStore_engine width addr value t ht).symm ▸ h
  | .load width addr => fun t ht => (s.hostLoad_engine width addr t ht).symm ▸ h
  | .engine => State.engineTurn_prefixFree hinv h
  | .reset => by rintro _ ⟨⟩; exact .reset _

/-- Settles O60: the map is empty after reset, and an event changes it only by MAP_BUILD or a reset. -/
theorem everyStepKeepsTheMapPrefixFree : Obligations.EveryStepKeepsTheMapPrefixFree := by
  refine ⟨.reset, fun s t hinv h ht => ?_⟩
  cases hs : s.schedule with
  | nil =>
    rw [step_idle_schedule hs] at ht
    exact State.engineTurn_prefixFree hinv h t ht
  | cons ev rest =>
    rw [step_event hs] at ht
    have hrest : Inv { s with schedule := rest } :=
      hinv.update rfl hinv.status hinv.engineOk (fun x hx => hs ▸ List.mem_cons_of_mem ev hx)
    exact State.deliver_prefixFree hrest h ev t ht

end Sys2Proof.Machine
end

section
/-! SUPPORT. Settles what ENCODE and ENC_SYM write and how they fail (spec/45_codec.md R211, R212): one append writes one code at the
logical end, and appends one after another write the codes one after another. -/

namespace Sys2Proof.Machine

/-! ### Codes and streams -/

theorem CodeEntry.length_bits (c : CodeEntry) : c.bits.length = c.len.toNat := by rw [CodeEntry.bits, List.length_map, List.length_range]

/-- Bit `j` of a code in stream order is bit len-1-j of its number (spec/20_memory.md R63). -/
theorem CodeEntry.getElem?_bits_eq_some {c : CodeEntry} {j : Nat} {b : Bool} (h : c.bits[j]? = some b) :
    j < c.len.toNat ∧ c.code.getLsbD (c.len.toNat - 1 - j) = b := by
  obtain ⟨hj, hb⟩ := List.getElem?_eq_some_iff.mp h
  rw [CodeEntry.length_bits] at hj
  exact ⟨hj, by simpa [CodeEntry.bits] using hb⟩

namespace Engine

theorem streamHas_nil (e : Engine) (q : Nat) : e.streamHas q [] := fun j b h => by rw [List.getElem?_nil] at h; cases h

theorem streamHas_append {e : Engine} {q : Nat} {xs ys : List Bool} :
    e.streamHas q (xs ++ ys) ↔ e.streamHas q xs ∧ e.streamHas (q + xs.length) ys := by
  induction xs generalizing q with
  | nil => exact (and_iff_right (e.streamHas_nil q)).symm
  | cons x xs ih =>
    rw [List.cons_append, streamHas_cons, streamHas_cons, ih, and_assoc, List.length_cons, Nat.add_assoc, Nat.add_comm 1]

/-- A stream is kept where the bits it covers are. -/
theorem streamHas.congr {a b : Engine} {q : Nat} {bits : List Bool} (h : a.streamHas q bits)
    (hb : ∀ x, x < q + bits.length → b.bitAt x = a.bitAt x) : b.streamHas q bits := by
  intro j x hj
  have hlt : j < bits.length := (List.getElem?_eq_some_iff.mp hj).1
  rw [hb _ (by omega)]
  exact h j x hj

theorem stream_cons (e : Engine) (c : Byte) (cs : List Byte) : e.stream (c :: cs) = (e.mapAt c).bits ++ e.stream cs := rfl

theorem mapAt_congr {a b : Engine} (h : b.codeMap = a.codeMap) (c : Byte) : b.mapAt c = a.mapAt c := by simp only [mapAt, h]

theorem stream_congr {a b : Engine} (h : b.codeMap = a.codeMap) (input : List Byte) : b.stream input = a.stream input := by
  simp only [stream, mapAt_congr h]

theorem length_inputBytes (e : Engine) (n : Nat) : (e.inputBytes n).length = n := by rw [inputBytes, List.length_map, List.length_range]

/-- ENCODE's `total` is the length of the stream (R211). -/
theorem codeBits_eq_length (e : Engine) (input : List Byte) : e.codeBits input = (e.stream input).length := by
  simp only [codeBits, stream, List.length_flatMap, CodeEntry.length_bits]

/-- The cursor's two registers are the quotient and the remainder of its position (spec/10_state.md R34). -/
theorem offsets_of_cursor {e : Engine} {q : Nat} (h : e.cursor = q) : e.bbByteOff.toNat = q / 8 ∧ e.bbBitOff.toNat = q % 8 := by
  have hbit : e.bbBitOff.toNat < 8 := e.bbBitOff.isLt
  unfold cursor at h
  omega

end Engine

/-! ### Growing -/

/-- What is big enough does not grow (spec/41_bitbuffer.md R121). -/
theorem GrownTo.refl {bbMax c need : Nat} (h : need ≤ c) (hc : c ≤ bbMax) : GrownTo bbMax c need c :=
  ⟨0, by omega, by omega, by omega⟩

/-- Growing for one need and then for a larger one is growing for the larger one (R121). -/
theorem GrownTo.trans {bbMax c₀ c₁ c₂ n₁ n₂ : Nat} (h₁ : GrownTo bbMax c₀ n₁ c₁) (h₂ : GrownTo bbMax c₁ n₂ c₂) (hn : n₁ ≤ n₂)
    (hmax : n₂ ≤ bbMax) : GrownTo bbMax c₀ n₂ c₂ := by
  obtain ⟨k, hk, hneed, hmin⟩ := h₁
  obtain ⟨m, hm, hneed', hmin'⟩ := h₂
  by_cases hle : c₀ * 2 ^ k ≤ bbMax
  · obtain rfl : c₁ = c₀ * 2 ^ k := hk.trans (Nat.min_eq_right hle)
    simp only [Nat.mul_assoc, ← Nat.pow_add] at hm hneed' hmin'
    refine ⟨k + m, hm, hneed', fun j hj => ?_⟩
    by_cases hjk : j < k
    · exact (hmin j hjk).trans_le hn
    · have hlt := hmin' (j - k) (by omega)
      rwa [Nat.add_sub_cancel' (by omega)] at hlt
  · obtain rfl : c₁ = bbMax := hk.trans (Nat.min_eq_left (by omega))
    obtain rfl : m = 0 := Nat.eq_zero_of_not_pos fun hpos => by have := hmin' 0 hpos; omega
    exact ⟨k, by omega, by omega, fun j hj => (hmin j hj).trans_le hn⟩

/-! ### Appending -/

/-- `b` is `a` with `bits` appended at the logical end, the cursor behind them (spec/41_bitbuffer.md R119, R121). -/
structure Appended (p : Params) (a b : Engine) (bits : List Bool) : Prop where
  frame : b = { a with bbMem := b.bbMem, bbCap := b.bbCap, bbTotal := b.bbTotal, bbByteOff := b.bbByteOff, bbBitOff := b.bbBitOff }
  total : b.bbTotal.toNat = a.bbTotal.toNat + bits.length
  atEnd : b.cursor = b.bbTotal.toNat
  written : b.streamHas a.bbTotal.toNat bits
  kept : ∀ q, q < a.bbTotal.toNat → b.bitAt q = a.bitAt q
  grown : GrownTo p.bbMax a.bbCap.toNat (ceil8 b.bbTotal.toNat) b.bbCap.toNat
  buffer : BufferOk p b

namespace Appended

variable {p : Params} {a b c : Engine} {xs ys : List Bool}

theorem refl (hb : BufferOk p a) (hend : a.cursor = a.bbTotal.toNat) : Appended p a a [] :=
  ⟨rfl, rfl, hend, a.streamHas_nil _, fun _ _ => rfl, .refl hb.total_le hb.cap_le, hb⟩

theorem trans (h₁ : Appended p a b xs) (h₂ : Appended p b c ys) : Appended p a c (xs ++ ys) where
  frame := h₂.frame.trans (by rw [h₁.frame])
  total := by rw [h₂.total, h₁.total, List.length_append, Nat.add_assoc]
  atEnd := h₂.atEnd
  written := Engine.streamHas_append.mpr ⟨h₁.written.congr fun x hx => h₂.kept x (h₁.total ▸ hx), h₁.total ▸ h₂.written⟩
  kept q hq := (h₂.kept q (by rw [h₁.total]; omega)).trans (h₁.kept q hq)
  grown := by
    refine h₁.grown.trans h₂.grown ?_ (h₂.buffer.total_le.trans h₂.buffer.cap_le)
    rw [h₂.total]
    unfold ceil8
    omega
  buffer := h₂.buffer

theorem codeMap_eq (h : Appended p a b xs) : b.codeMap = a.codeMap := by rw [h.frame]

end Appended

namespace Engine

/-- A code that fits in BB_MAX bytes is appended (R119, R212). -/
theorem appendCode_ok {p : Params} {e : Engine} (hp : ParamsOk p) (hb : BufferOk p e) (c : Byte)
    (hfit : ceil8 (e.bbTotal.toNat + (e.mapAt c).bits.length) ≤ p.bbMax) :
    ∃ e', e.appendCode p c = .ok e' ∧ Appended p e e' (e.mapAt c).bits := by
  rw [CodeEntry.length_bits] at hfit
  obtain ⟨e', hrun, hframe, htotal, hbyte, hbit, hbits, hgrown, hok⟩ := bbAppend_ok hp hb (e.mapAt c).code hfit
  refine ⟨e', hrun, hframe, htotal.trans (by rw [CodeEntry.length_bits]), ?_, fun j b hj => ?_, fun q hq => ?_, hgrown, hok⟩
  · rw [cursor, hbyte, hbit, Nat.div_add_mod]
  · obtain ⟨hlt, hcode⟩ := CodeEntry.getElem?_bits_eq_some hj
    rw [hbits, if_pos (by omega), Nat.add_sub_cancel_left, hcode]
  · rw [hbits, if_neg (by omega)]

/-- The codes of an input are appended in order when all of them fit in BB_MAX bytes (R211). -/
theorem appendCodes_ok {p : Params} {e : Engine} (hp : ParamsOk p) (hb : BufferOk p e) (hend : e.cursor = e.bbTotal.toNat)
    (input : List Byte) (hfit : ceil8 (e.bbTotal.toNat + (e.stream input).length) ≤ p.bbMax) :
    ∃ e', input.foldlM (appendCode p) e = .ok e' ∧ Appended p e e' (e.stream input) := by
  induction input generalizing e with
  | nil => exact ⟨e, rfl, .refl hb hend⟩
  | cons c cs ih =>
    rw [stream_cons, List.length_append, ← Nat.add_assoc] at hfit
    obtain ⟨e₁, hrun₁, h₁⟩ := appendCode_ok hp hb c (by unfold ceil8 at *; omega)
    have hstream : e₁.stream cs = e.stream cs := stream_congr h₁.codeMap_eq cs
    obtain ⟨e₂, hrun₂, h₂⟩ := ih h₁.buffer h₁.atEnd (by rw [hstream, h₁.total]; exact hfit)
    exact ⟨e₂, by rw [List.foldlM_cons, hrun₁, Run.ok_bind, hrun₂], by rw [stream_cons, ← hstream]; exact h₁.trans h₂⟩

end Engine

/-! ### ENCODE -/

/-- ENCODE's check of the symbols finds one without an entry (R211). -/
theorem Engine.any_absent_iff (e : Engine) (input : List Byte) :
    input.any (fun c => !(e.mapAt c).valid) = true ↔ ∃ c ∈ input, (e.mapAt c).valid = false := by
  simp only [List.any_eq_true, Bool.not_eq_true']

theorem Engine.not_any_absent {e : Engine} {input : List Byte} (h : ∀ c ∈ input, (e.mapAt c).valid = true) :
    ¬ input.any (fun c => !(e.mapAt c).valid) = true := fun habsent => by
  obtain ⟨c, hc, hfalse⟩ := (e.any_absent_iff input).mp habsent
  exact Bool.false_ne_true (hfalse.symm.trans (h c hc))

/-- ENCODE's initial capacity lies within BB_MAX (R211). -/
theorem ParamsOk.encodeCap_le {p : Params} (hp : ParamsOk p) {length : Nat} (hlen : length ≤ p.dataMax) : max length 1 ≤ p.bbMax :=
  Nat.max_le.mpr ⟨hlen.trans hp.dataMax_le, hp.dataMax_ge.trans hp.dataMax_le⟩

/-- An ENCODE that passes its three checks appends the stream of its input to a fresh buffer (R211). -/
theorem encode_completes {s : State} {length : Nat} (hp : ParamsOk s.params) (hlen : length ≤ s.params.dataMax)
    (hvalid : ∀ c ∈ s.engine.inputBytes length, (s.engine.mapAt c).valid = true)
    (hfit : ceil8 (s.engine.stream (s.engine.inputBytes length)).length ≤ s.params.bbMax) :
    ∃ e, Completes (.encode length) s (e.setRes e.bbTotal.toNat) ∧
      Appended s.params (s.engine.freshBuffer (max length 1)) e (s.engine.stream (s.engine.inputBytes length)) := by
  have hfresh := (s.engine.freshBuffer_ok hp (Nat.le_max_right length 1) (hp.encodeCap_le hlen)).1
  obtain ⟨e, hrun, he⟩ := Engine.appendCodes_ok hp hfresh rfl (s.engine.inputBytes length) ((Nat.zero_add _).symm ▸ hfit)
  refine ⟨e, .of_rule rfl ((if_neg (Nat.not_lt.mpr hlen)).trans ((if_neg (Engine.not_any_absent hvalid)).trans ((if_neg ?_).trans ?_))), he⟩
  · rw [Engine.codeBits_eq_length]
    exact Nat.not_lt.mpr hfit
  · rw [hrun, Run.ok_bind]

/-- Settles O54: the stream is appended to an empty buffer, so it begins at position 0 and only zeros follow it. -/
theorem encodeWritesTheCodes : Obligations.EncodeWritesTheCodes := by
  intro s length hp input bits hlen hvalid hfit
  obtain ⟨e, hcompletes, he⟩ := encode_completes hp hlen hvalid hfit
  have hfresh := (s.engine.freshBuffer_ok hp (Nat.le_max_right length 1) (hp.encodeCap_le hlen)).2
  have htotal : e.bbTotal.toNat = bits.length := he.total.trans (Nat.zero_add _)
  obtain ⟨hbyte, hbit⟩ := Engine.offsets_of_cursor (he.atEnd.trans htotal)
  refine ⟨_, hcompletes, ?_, htotal, hbyte, hbit, he.written, fun q hq => he.buffer.tail_zero q (htotal ▸ hq), ?_⟩
  · rw [htotal, he.frame]
    rfl
  · have hgrown := he.grown
    rwa [htotal, hfresh] at hgrown

/-- Settles O55: the first check that applies decides. -/
theorem encodeFailsInCheckOrder : Obligations.EncodeFailsInCheckOrder := by
  intro s length input
  refine ⟨fun hlt => .of_rule .invalidArgument rfl (if_pos hlt),
    fun hle habsent => .of_rule .symbolNotFound rfl ((if_neg (Nat.not_lt.mpr hle)).trans
      (if_pos ((s.engine.any_absent_iff input).mpr habsent))),
    fun hle hvalid hfull => .of_rule .allocationFailure rfl ((if_neg (Nat.not_lt.mpr hle)).trans
      ((if_neg (Engine.not_any_absent hvalid)).trans (if_pos ?_)))⟩
  rw [Engine.codeBits_eq_length]
  exact hfull

/-! ### ENC_SYM -/

/-- Settles O56: a symbol with an entry has its code appended, where it fits. -/
theorem encSymAppendsOneCode : Obligations.EncSymAppendsOneCode := by
  intro s symbol hp hb bits
  refine ⟨fun hvalid hfit => ?_, fun habsent => .of_rule .symbolNotFound rfl (if_pos ?_),
    fun hvalid hfull => .of_rule .allocationFailure rfl ((if_neg ?_).trans (Engine.bbAppend_raise ?_))⟩
  · obtain ⟨e, hrun, he⟩ := Engine.appendCode_ok hp hb symbol hfit
    obtain ⟨hbyte, hbit⟩ := Engine.offsets_of_cursor he.atEnd
    exact ⟨e, .of_rule rfl ((if_neg (by simp [hvalid])).trans hrun), he.frame, he.total, hbyte, hbit, he.written, he.kept,
      he.buffer.tail_zero, he.grown⟩
  · simp [habsent]
  · simp [hvalid]
  · rw [← CodeEntry.length_bits]
    exact hfull

end Sys2Proof.Machine
end

section
/-! SUPPORT. Settles what DECODE and DEC_SYM answer and how they fail (spec/45_codec.md R210, R213, R214): from every position the bits
lead to one leaf, whose code ends within the stream or after it. -/

namespace Sys2Proof.Machine

/-! ### Positions of the stream -/

/-- The registers of the cursor hold every position of the stream. -/
theorem BufferOk.cursor_setCursor {p : Params} {e : Engine} (hb : BufferOk p e) (hp : ParamsOk p) {q : Nat} (hq : q ≤ e.bbTotal.toNat)
    (e' : Engine) : (e'.setCursor q).cursor = q := by
  refine Engine.cursor_setCursor e' ?_
  have htotal := hb.total_le
  have hcap := hb.cap_le
  have hmax := hp.bbMax_le
  unfold ceil8 at htotal
  omega

/-- A decoding ends within the logical length (R213). -/
theorem Shape.decodesTo_le {e : Engine} {t : Shape} {cs : List Byte} {q q' : Nat} (h : t.decodesTo e cs q q')
    (hq : q ≤ e.bbTotal.toNat) : q' ≤ e.bbTotal.toNat := by
  induction cs generalizing q with
  | nil => exact (show q = q' from h) ▸ hq
  | cons c cs ih =>
    obtain ⟨_, _, _, _, hm, hrest⟩ := h
    exact ih hrest hm

/-! ### DECODE and DEC_SYM -/

/-- Where the stream does not decode to as many symbols as asked for, DECODE's loop overruns it (R213). -/
theorem Engine.decodeLoop_overrun {p : Params} {e : Engine} {t : Shape} (hb : BufferOk p e) (ht : TreeIs e t) {n q j : Nat}
    (hj : j + n ≤ p.dataMax) (h : ¬ ∃ cs q', cs.length = n ∧ t.decodesTo e cs q q') :
    Engine.decodeLoop p n e j q = raise .cursorOverrun := by
  induction n generalizing e q j with
  | zero => exact absurd ⟨[], q, rfl, rfl⟩ h
  | succ n ih =>
    obtain ⟨i, bits, hpath, hbits⟩ := t.exists_leads e q
    have hleads : t.leads e q i (q + max bits.length 1) := ⟨bits, hpath, hbits, rfl⟩
    rw [Engine.decodeLoop, Engine.walk_ok hb ht hleads]
    by_cases hle : q + max bits.length 1 ≤ e.bbTotal.toNat
    · rw [if_pos hle, Run.ok_bind, Engine.memWrite_ok (show j < spaceSize p .outMem by rw [spaceSize_outMem]; omega), Run.ok_bind]
      refine ih (hb.outMem _) (ht.outMem _) (by omega) ?_
      rintro ⟨cs, q', hlen, hrest⟩
      rw [Shape.decodesTo_outMem] at hrest
      exact h ⟨(e.nodeAt i).symbol :: cs, q', by rw [List.length_cons, hlen], i, _, hleads, rfl, hle, hrest⟩
    · rw [if_neg hle, Run.raise_bind]

/-- DECODE's rule on a tree, after its checks (R213). -/
theorem decode_rule {s : State} {length : Nat} (hroot : s.engine.root ≠ nil) (hlen : length ≤ s.params.dataMax) :
    exec (.decode length) s = s.finish (Engine.decodeLoop s.params length s.engine 0 0 >>= fun r => .ok ((r.1.setCursor r.2).setRes r.2)) :=
  congrArg s.finish ((if_neg (Nat.not_lt.mpr hlen)).trans (if_neg hroot))

/-- Settles O57: the loop walks as often as the stream decodes, and overruns the stream where it does not. -/
theorem decodeWalksTheStream : Obligations.DecodeWalksTheStream := by
  intro s t length hp hb hw ht
  refine ⟨fun hlen cs q hcs hd => ?_, fun hlen hnone => .of_rule .cursorOverrun (decode_rule ht.root_ne_nil hlen) ?_,
    fun hlt => .of_rule .invalidArgument rfl (if_pos hlt)⟩
  · subst hcs
    obtain ⟨e, hrun, hframe, -, hin, hout⟩ := Engine.decodeLoop_ok hb ht hw hd ((Nat.zero_add _).trans_le hlen)
    refine ⟨(e.setCursor q).setRes q, .of_rule (decode_rule ht.root_ne_nil hlen) (by rw [hrun, Run.ok_bind]), ?_, ?_, fun j c hj => ?_,
      fun a ha => hout a (.inr (by omega))⟩
    · rw [hframe]
      rfl
    · exact hb.cursor_setCursor hp (Shape.decodesTo_le hd (Nat.zero_le _)) e
    · exact Nat.zero_add j ▸ hin j c hj
  · rw [Engine.decodeLoop_overrun hb ht ((Nat.zero_add _).trans_le hlen) hnone, Run.raise_bind]

/-- Settles O58: the bits at the cursor lead to one leaf, whose code ends within the stream or after it. -/
theorem decSymWalksOneCode : Obligations.DecSymWalksOneCode := by
  intro s t hp hb ht
  refine ⟨fun i q hleads hle => ?_, fun hall => .of_rule .cursorOverrun rfl ((if_neg ht.root_ne_nil).trans ?_)⟩
  · refine ⟨(s.engine.setCursor q).setRes (s.engine.nodeAt i).symbol.toNat, .of_rule rfl ((if_neg ht.root_ne_nil).trans ?_), ?_,
      hb.cursor_setCursor hp hle s.engine⟩
    · rw [Engine.walk_ok hb ht hleads, if_pos hle, Run.ok_bind]
    · rw [Engine.setRes_toNat]
      rfl
  · obtain ⟨i, bits, hpath, hbits⟩ := t.exists_leads s.engine s.engine.cursor
    have hleads : t.leads s.engine s.engine.cursor i (s.engine.cursor + max bits.length 1) := ⟨bits, hpath, hbits, rfl⟩
    rw [Engine.walk_ok hb ht hleads, if_neg (Nat.not_le.mpr (hall i _ hleads)), Run.raise_bind]

end Sys2Proof.Machine
end

section
/-! SUPPORT. Settles the round trip (spec/45_codec.md R215): the stream of an input decodes to it under the tree the map was built
from, and DECODE reads nothing but the tree and the stream, so that other parts of the engine state may change in between. -/

namespace Sys2Proof.Machine

/-! ### The stream decodes -/

namespace Shape

theorem pathOf_congr {a b : Engine} (h : b.nodes = a.nodes) (t : Shape) (c : Byte) : t.pathOf b c = t.pathOf a c := by
  simp only [pathOf, Engine.nodeAt_congr h]

/-- The entries of a tree depend on its node table alone. -/
theorem entry_congr {a b : Engine} (h : b.nodes = a.nodes) (t : Shape) (c : Byte) : t.entry b c = t.entry a c := by
  rw [entry, entry, pathOf_congr h]

/-- A symbol's code is its path, or one bit in a tree of one leaf, where the path is empty (R210). -/
theorem entry_bits {e : Engine} {t : Shape} (ht : TreeIs e t) (hh : t.height ≤ 64) {i : NodeIdx} {bits : List Bool}
    (h : (i, bits) ∈ t.paths) :
    bits <+: (t.entry e (e.nodeAt i).symbol).bits ∧ (t.entry e (e.nodeAt i).symbol).bits.length = max bits.length 1 := by
  have hle : bits.length ≤ 64 := (paths_length h).trans hh
  rw [entry_of_path ht.symbols_nodup h]
  by_cases hne : bits = []
  · subst hne
    exact ⟨List.nil_prefix, rfl⟩
  · rw [CodeEntry.bits_present hne hle]
    exact ⟨List.prefix_rfl, (Nat.max_eq_left (List.length_pos_iff.mpr hne)).symm⟩

/-- The stream of an input decodes to the input under the tree the map was built from (R215). -/
theorem decodesTo_stream {e : Engine} {t : Shape} (ht : TreeIs e t) (hh : t.height ≤ 64) (hmap : ∀ c, e.mapAt c = t.entry e c)
    {input : List Byte} (hvalid : ∀ c ∈ input, (e.mapAt c).valid = true) {q : Nat} (hs : e.streamHas q (e.stream input))
    (hle : q + (e.stream input).length ≤ e.bbTotal.toNat) : t.decodesTo e input q (q + (e.stream input).length) := by
  induction input generalizing q with
  | nil => rfl
  | cons c cs ih =>
    have hc : c ∈ t.leaves.map (fun i => (e.nodeAt i).symbol) := by
      rw [← entry_valid_iff ht.symbols_nodup, ← hmap]
      exact hvalid c List.mem_cons_self
    obtain ⟨i, hi, rfl⟩ := List.mem_map.mp hc
    obtain ⟨bits, hpath⟩ := exists_path hi
    obtain ⟨⟨rest, hrest⟩, hlen⟩ := entry_bits ht hh hpath
    rw [← hmap] at hrest hlen
    rw [Engine.stream_cons] at hs hle ⊢
    rw [List.length_append, ← Nat.add_assoc] at hle ⊢
    obtain ⟨hcode, hcodes⟩ := Engine.streamHas_append.mp hs
    rw [← hrest] at hcode
    exact ⟨i, _, ⟨bits, hpath, (Engine.streamHas_append.mp hcode).1, by rw [hlen]⟩, rfl, by omega,
      ih (fun c hc => hvalid c (List.mem_cons_of_mem _ hc)) hcodes hle⟩

end Shape

/-! ### What DECODE reads -/

namespace SameTree

variable {a b c : Engine}

theorem of_nodes (hr : b.root = a.root) (hn : b.nodes = a.nodes) : SameTree a b := ⟨hr, fun i _ => Engine.nodeAt_congr hn i⟩

theorem trans (h₁ : SameTree a b) (h₂ : SameTree b c) : SameTree a c :=
  ⟨h₂.1.trans h₁.1, fun i hi => (h₂.2 i ((h₁.2 i hi).symm ▸ hi)).trans (h₁.2 i hi)⟩

end SameTree

namespace Engine

variable {p : Params} {a b : Engine}

/-- The top node of a tree is read alike wherever its nodes are. -/
theorem readNode_root {t : Shape} (hf : t.fits a = true) (hn : ∀ i ∈ t.indices, b.nodeAt i = a.nodeAt i) :
    a.readNode t.root.toNat = .ok (a.nodeAt t.root) ∧ b.readNode t.root.toNat = .ok (a.nodeAt t.root) :=
  ⟨a.readNode_ok (Shape.fits_root_lt hf), hn _ t.root_mem ▸ b.readNode_ok (Shape.fits_root_lt hf)⟩

theorem streamBit_congr (h : b.bbMem = a.bbMem) (q : Nat) : b.streamBit p q = a.streamBit p q := by
  simp only [streamBit, memRead, space_bbMem, h]

/-- The descent reads the nodes of the tree and the bits of the stream (R210). -/
theorem walkLoop_congr {t : Shape} (hf : t.fits a = true) (hn : ∀ i ∈ t.indices, b.nodeAt i = a.nodeAt i) (hm : b.bbMem = a.bbMem)
    (left q : Nat) : walkLoop p b left t.root.toNat q = walkLoop p a left t.root.toNat q := by
  induction t generalizing left q with
  | leaf i =>
    have hleaf := (Shape.fits_leaf hf).2.1
    obtain ⟨ha, hb⟩ : a.readNode i.toNat = .ok (a.nodeAt i) ∧ b.readNode i.toNat = .ok (a.nodeAt i) := readNode_root hf hn
    cases left <;> simp only [walkLoop, ha, hb, Run.ok_bind, Shape.root_leaf, hleaf, if_true]
  | branch i l r ihl ihr =>
    obtain ⟨-, hinternal, -, -, hleft, hright, -, hl, hr⟩ := Shape.fits_branch hf
    obtain ⟨ha, hb⟩ : a.readNode i.toNat = .ok (a.nodeAt i) ∧ b.readNode i.toNat = .ok (a.nodeAt i) := readNode_root hf hn
    cases left with
    | zero => simp only [walkLoop, Shape.root_branch, ha, hb]
    | succ left =>
      simp only [walkLoop, ha, hb, Run.ok_bind, Shape.root_branch, hinternal, Bool.false_eq_true, if_false, streamBit_congr hm,
        hleft, hright]
      refine congrArg (a.streamBit p q >>= ·) (funext fun bit => ?_)
      cases bit with
      | false => exact ihl hl (fun j hj => hn j (by simp [Shape.indices, hj])) left (q + 1)
      | true => exact ihr hr (fun j hj => hn j (by simp [Shape.indices, hj])) left (q + 1)

/-- A walk reads the tree, the stream's bits and its length (R210). -/
theorem walk_congr {t : Shape} (ht : TreeIs a t) (h : SameTree a b) (hm : b.bbMem = a.bbMem) (htotal : b.bbTotal = a.bbTotal) (q : Nat) :
    b.walk p q = a.walk p q := by
  have hn : ∀ i ∈ t.indices, b.nodeAt i = a.nodeAt i := fun i hi => h.2 i ((ht.all i).mpr hi)
  obtain ⟨ha, hb⟩ := readNode_root ht.fits hn
  simp only [walk, h.1, htotal, ← ht.root_eq, ha, hb, walkLoop_congr ht.fits hn hm]

/-- DECODE's loop reads what its walks read, and writes OUT_MEM alone (R213). -/
theorem decodeLoop_congr {t : Shape} (ht : TreeIs a t) (h : SameTree a b) (hm : b.bbMem = a.bbMem) (htotal : b.bbTotal = a.bbTotal)
    (hout : b.outMem = a.outMem) {n j q q' : Nat} {a' : Engine} (hrun : decodeLoop p n a j q = .ok (a', q')) :
    decodeLoop p n b j q = .ok ({ b with outMem := a'.outMem }, q') := by
  induction n generalizing a b j q with
  | zero =>
    cases hrun
    rw [← hout]
    rfl
  | succ n ih =>
    obtain ⟨⟨c, m⟩, hwalk, hrun⟩ := Run.bind_eq_ok.mp hrun
    obtain ⟨a₁, hwrite, hrun⟩ := Run.bind_eq_ok.mp hrun
    obtain ⟨hj, rfl⟩ := memWrite_eq_ok.mp hwrite
    rw [decodeLoop, walk_congr ht h hm htotal, hwalk, Run.ok_bind, memWrite_ok hj, Run.ok_bind]
    exact ih (a := a.withSpace .outMem (a.outMem.write j c)) (b := b.withSpace .outMem (b.outMem.write j c)) (ht.outMem _) h hm htotal
      (congrArg (Memory.write · j c) hout) hrun

end Engine

/-! ### The three commands -/

/-- A command that has ended with ERR_CODE 0 has not failed (spec/60_exceptions.md R245). -/
theorem FailsWith.code_eq_zero {i : Instr} {s t : State} {code : Byte} (hf : FailsWith i s code) (h : exec i s = .next t)
    (hok : t.status.errCode = 0) : code = 0 := by
  cases h.symm.trans hf
  exact hok

/-- A MAP_BUILD that completes leaves the tree and DATA_MEM, and the map of the tree (spec/44_encoding_map.md R201). -/
theorem mapBuild_leaves {s t : State} (htree : TreeOk s.engine) (h : exec .mapBuild s = .next t) (hok : t.status.errCode = 0) :
    ∃ u, TreeIs t.engine u ∧ u.height ≤ 64 ∧ (∀ c, t.engine.mapAt c = u.entry t.engine c) ∧ t.params = s.params ∧
      t.engine.dataMem = s.engine.dataMem := by
  obtain ⟨u, hu, hle, -⟩ := mapBuild_cases htree h hok
  obtain ⟨e, hcompletes, hframe, hmap⟩ := (mapBuildRecordsThePaths s u hu).1 hle
  cases h.symm.trans hcompletes
  have hnodes : e.nodes = s.engine.nodes := by rw [hframe]
  have hat := Engine.nodeAt_congr hnodes
  exact ⟨u, hu.congr (by rw [hframe]) (fun i => by rw [hat]) (fun i _ => by rw [hat]), hle,
    fun c => (hmap c).trans (Shape.entry_congr hnodes u c).symm, rfl, by rw [hframe]⟩

/-- An ENCODE that completes has passed its checks, and has appended its stream to a fresh buffer (R211). -/
theorem encode_cases {s t : State} {length : Nat} (hp : ParamsOk s.params) (h : exec (.encode length) s = .next t)
    (hok : t.status.errCode = 0) :
    length ≤ s.params.dataMax ∧ (∀ c ∈ s.engine.inputBytes length, (s.engine.mapAt c).valid = true) ∧ t.params = s.params ∧
      ∃ e, t.engine = e.setRes e.bbTotal.toNat ∧
        Appended s.params (s.engine.freshBuffer (max length 1)) e (s.engine.stream (s.engine.inputBytes length)) := by
  obtain ⟨hlength, habsent, hfull⟩ := encodeFailsInCheckOrder s length
  have hlen : length ≤ s.params.dataMax := Nat.le_of_not_lt fun hlt => absurd ((hlength hlt).code_eq_zero h hok) (by decide)
  have hvalid : ∀ c ∈ s.engine.inputBytes length, (s.engine.mapAt c).valid = true := fun c hc => by
    by_contra hne
    exact absurd ((habsent hlen ⟨c, hc, Bool.eq_false_of_not_eq_true hne⟩).code_eq_zero h hok) (by decide)
  have hfit := Nat.le_of_not_lt fun hlt => absurd ((hfull hlen hvalid hlt).code_eq_zero h hok) (by decide)
  obtain ⟨e, hcompletes, he⟩ := encode_completes hp hlen hvalid hfit
  cases h.symm.trans hcompletes
  exact ⟨hlen, hvalid, rfl, e, rfl, he⟩

/-- DECODE of a stream that decodes to `cs` in an engine state `a` completes wherever the tree and the stream are those of `a`. -/
theorem decode_completes_of_sameTree {s : State} {a : Engine} {t : Shape} (hb : BufferOk s.params a) (ht : TreeIs a t)
    (htree : SameTree a s.engine) (hm : s.engine.bbMem = a.bbMem) (htotal : s.engine.bbTotal = a.bbTotal) (hw : s.engine.outMem.wf)
    {cs : List Byte} {q : Nat} (hd : t.decodesTo a cs 0 q) (hlen : cs.length ≤ s.params.dataMax) :
    ∃ e, Completes (.decode cs.length) s e ∧ e.res = BitVec.ofNat 64 q ∧ ∀ j c, cs[j]? = some c → e.outMem.read j = c := by
  have htree' := ht.outMem s.engine.outMem
  rw [← Shape.decodesTo_outMem a s.engine.outMem] at hd
  obtain ⟨a', hrun, -, -, hin, -⟩ := Engine.decodeLoop_ok (hb.outMem _) htree' hw hd ((Nat.zero_add _).trans_le hlen)
  have hroot : s.engine.root ≠ nil := htree.1 ▸ ht.root_ne_nil
  refine ⟨({ s.engine with outMem := a'.outMem }.setCursor q).setRes q, .of_rule (decode_rule hroot hlen) ?_, rfl,
    fun j c hj => Nat.zero_add j ▸ hin j c hj⟩
  rw [Engine.decodeLoop_congr htree' htree hm htotal rfl hrun, Run.ok_bind]

/-! ### The round trip -/

/-- The tree and the map of `a` beside the stream of `b`. -/
def Engine.treeBeside (a b : Engine) : Engine := { b with nodes := a.nodes, root := a.root, codeMap := a.codeMap }

theorem TreeIs.treeBeside {a : Engine} {t : Shape} (h : TreeIs a t) (b : Engine) : TreeIs (a.treeBeside b) t :=
  h.congr rfl (fun _ => rfl) (fun _ _ => rfl)

/-- What ENCODE appends to a fresh buffer, with the map of the tree `t`, decodes to its input under `t`. -/
theorem Appended.decodesTo {p : Params} {a b e : Engine} {t : Shape} {cap : Nat} {input : List Byte} (ht : TreeIs a t) (hh : t.height ≤ 64)
    (hentry : ∀ c, a.mapAt c = t.entry a c) (hmap : b.codeMap = a.codeMap) (hvalid : ∀ c ∈ input, (b.mapAt c).valid = true)
    (h : Appended p (b.freshBuffer cap) e (b.stream input)) : t.decodesTo (a.treeBeside e) input 0 e.bbTotal.toNat := by
  have hstream : (a.treeBeside e).stream input = b.stream input := Engine.stream_congr hmap.symm input
  have htotal : e.bbTotal.toNat = 0 + ((a.treeBeside e).stream input).length := hstream ▸ h.total
  rw [htotal]
  exact Shape.decodesTo_stream (ht.treeBeside e) hh (fun c => (hentry c).trans (Shape.entry_congr rfl t c).symm)
    (fun c hc => Engine.mapAt_congr hmap c ▸ hvalid c hc) (hstream ▸ h.written) htotal.ge

/-- Settles O59: the state with MAP_BUILD's tree beside ENCODE's stream decodes to the input, and DECODE cannot tell its own state
from that one. -/
theorem decodeUndoesEncode : Obligations.DecodeUndoesEncode := by
  intro s s₁ u₁ s₂ u₂ length hinv hbuild hok₁ hparams₁ htree₁ hmap₁ hdata₁ hencode hok₂ hparams₂ htree₂ hmem₂ htotal₂ hwf
  obtain ⟨t, ht, hheight, hentry, hparams, hdata⟩ := mapBuild_leaves hinv.tree hbuild hok₁
  obtain ⟨hlen, hvalid, hparams', e, he, happended⟩ := encode_cases ((hparams₁.trans hparams).symm ▸ hinv.params) hencode hok₂
  have hp : u₂.params = u₁.params := hparams₂.trans hparams'
  have hbuffer : BufferOk u₂.params (s₁.engine.treeBeside e) := hp ▸ happended.buffer.congr rfl rfl rfl happended.atEnd.le
  have hframe : SameTree u₁.engine s₂.engine := .of_nodes (by rw [he, happended.frame]; rfl) (by rw [he, happended.frame]; rfl)
  have hsame : SameTree (s₁.engine.treeBeside e) u₂.engine :=
    (SameTree.of_nodes rfl rfl).trans (htree₁.trans (hframe.trans htree₂))
  have hcount := u₁.engine.length_inputBytes length
  obtain ⟨e', hcompletes, hres, hread⟩ := decode_completes_of_sameTree hbuffer (ht.treeBeside e) hsame (by rw [hmem₂, he]; rfl)
    (by rw [htotal₂, he]; rfl) hwf (happended.decodesTo ht hheight hentry hmap₁ hvalid) (by rw [hcount, hp]; exact hlen)
  refine ⟨e', hcount ▸ hcompletes, by rw [hres, he]; rfl, fun j hj => hread j _ ?_⟩
  simp [Engine.inputBytes, hj, hdata₁, hdata]

end Sys2Proof.Machine
end

section
/-! SUPPORT. Settles what the control and data-memory commands answer and how they fail (spec/46_control.md R225 to R231): each
command's rule is evaluated once per outcome. -/

namespace Sys2Proof.Machine

/-! ### NOP, CLR_STICKY and SOFT_RESET -/

/-- Settles O19: NOP's rule commits the engine state as it is, and CLR_STICKY leaves no bit of STATUS set. -/
theorem nopCompletesAndClrStickyClears : Obligations.NopCompletesAndClrStickyClears := fun s =>
  ⟨.of_rule rfl rfl, exec_clrSticky s⟩

/-- `Engine.reset` has the reset value of every element, where PQ_MAX fits its register (spec/10_state.md R43). -/
theorem engineReset_isReset {p : Params} (hp : p.pqMax ≤ 511) : EngineIsReset p (Engine.reset p) where
  res := rfl
  freq := (Engine.reset p).freqAt_clearFreq
  nodes := engineReset_nodeAt p
  nodeCount := rfl
  root := rfl
  heap := engineReset_heapAt p
  pqSize := rfl
  pqCap := slot_toNat hp
  codeMap := engineReset_mapAt p
  bbMem := Memory.read_nil
  bbCap := rfl
  bbTotal := rfl
  bbByteOff := rfl
  bbBitOff := rfl
  dataMem := Memory.read_nil
  outMem := Memory.read_nil

/-- Settles O20: SOFT_RESET puts `Engine.reset` in place of the engine state. -/
theorem softResetKeepsDataAndLatches : Obligations.SoftResetKeepsDataAndLatches := fun s hp =>
  ⟨Engine.reset s.params, engineReset_isReset hp, exec_softReset s⟩

/-! ### REG_READ -/

/-- REG_READ with a selector that names a value (R228). -/
theorem regRead_completes {s : State} {selector v : Nat} (hv : s.engine.regValue s.params selector = some v) :
    Completes (.regRead selector) s (s.engine.setRes v) := .of_rule rfl (by simp only [hv])

/-- REG_READ with a selector that names nothing (R228). -/
theorem regRead_fails {s : State} {selector : Nat} (hv : s.engine.regValue s.params selector = none) :
    FailsWith (.regRead selector) s 2 := .of_rule .invalidArgument rfl (by simp only [hv])

theorem Engine.regValue_none (p : Params) (e : Engine) {selector : Nat} (h : 8 < selector) : e.regValue p selector = none := by
  obtain ⟨k, rfl⟩ := Nat.exists_eq_add_of_le' (show 9 ≤ selector from h)
  rfl

/-- Settles O21: one value per selector, of which only MAP_COUNT is derived. -/
theorem regReadReadsItsSelector : Obligations.RegReadReadsItsSelector := by
  intro s
  refine ⟨regRead_completes rfl, regRead_completes rfl, regRead_completes rfl, regRead_completes rfl, ?_, regRead_completes rfl,
    regRead_completes rfl, regRead_completes rfl, regRead_completes rfl, fun _ h => regRead_fails (s.engine.regValue_none s.params h)⟩
  rw [← List.countP_eq_length_filter, ← Engine.mapCount_eq]
  exact regRead_completes rfl

/-! ### The byte memories -/

/-- Settles O22: after its check the command is one MemWrite of DATA_MEM. -/
theorem memWrSetsOneByte : Obligations.MemWrSetsOneByte := by
  intro s byte index
  refine ⟨fun hwf hlt => ⟨{ s.engine with dataMem := s.engine.dataMem.write index byte }, .of_rule rfl ?_, rfl,
    Memory.wf_write hwf index byte, Memory.read_write_same hwf index byte, fun _ ha => Memory.read_write_other _ ha byte⟩,
    fun hge => .of_rule .invalidArgument rfl (if_pos hge)⟩
  exact (if_neg (Nat.not_le.mpr hlt)).trans (Engine.memWrite_ok (sp := .dataMem) hlt)

/-- A byte below DATA_MAX of a memory of that size is read into RES, zero-extended (R230, R231). -/
theorem Engine.loadByte_ok {p : Params} (e : Engine) {sp : Space} {index : Nat} (hs : spaceSize p sp = p.dataMax)
    (hlt : index < p.dataMax) : e.loadByte p sp index = .ok { e with res := ((e.space sp).read index).setWidth 64 } := by
  rw [Engine.loadByte, if_neg (Nat.not_le.mpr hlt), Engine.memRead_ok (hs ▸ hlt), Run.ok_bind, Engine.setRes_toNat]

theorem Engine.loadByte_raise {p : Params} (e : Engine) (sp : Space) {index : Nat} (hge : p.dataMax ≤ index) :
    e.loadByte p sp index = raise .invalidArgument := if_pos hge

/-- Settles O23: both readers are `loadByte` on a memory of DATA_MAX bytes. -/
theorem memRdAndOutRdReadOneByte : Obligations.MemRdAndOutRdReadOneByte := fun s _ =>
  ⟨fun hlt => ⟨.of_rule rfl (s.engine.loadByte_ok (sp := .dataMem) rfl hlt), .of_rule rfl (s.engine.loadByte_ok (sp := .outMem) rfl hlt)⟩,
   fun hge => ⟨.of_rule .invalidArgument rfl (s.engine.loadByte_raise .dataMem hge),
    .of_rule .invalidArgument rfl (s.engine.loadByte_raise .outMem hge)⟩⟩

end Sys2Proof.Machine
end

section
/-! SUPPORT. Settles how a step and a command end (spec/60_exceptions.md R242 to R246, R255): every step of the invariant has a next
state, an error changes STATUS alone, and the engine's turn runs the latched command or idles. -/

namespace Sys2Proof.Machine

/-- Settles O14: `step_keeps` gives the next state, by the case analysis over all commands and all events that reach the window. -/
theorem stepIsAlwaysDefined : Obligations.StepIsAlwaysDefined := by
  intro s hinv
  obtain ⟨t, ht, -⟩ := step_keeps hinv
  exact ⟨t, ht⟩

/-! ### Commands that fail -/

/-- Only `State.fail` leaves an error code: a rule that completes and the two control commands leave 0 (R226, R227, R245). -/
theorem exec_eq_fail {i : Instr} {s t : State} (h : exec i s = .next t) (hcode : t.status.errCode ≠ 0) : ∃ k, t = s.fail k := by
  by_cases hreset : i = .softReset
  · subst hreset
    cases h
    exact absurd rfl hcode
  by_cases hclear : i = .clrSticky
  · subst hclear
    cases h
    exact absurd rfl hcode
  rcases exec_eq_next hreset hclear h with ⟨e, rfl⟩ | hfail
  · exact absurd rfl hcode
  · exact hfail

/-- Settles O16: such a command ended in `State.fail`, which writes nothing but STATUS. -/
theorem failedCommandsChangeOnlyStatus : Obligations.FailedCommandsChangeOnlyStatus := by
  intro i s t h hcode
  obtain ⟨k, rfl⟩ := exec_eq_fail h hcode
  exact ⟨rfl, rfl, rfl, rfl, rfl, rfl, rfl, rfl, rfl, rfl, k.code_range.2⟩

/-! ### The engine's turn -/

/-- The engine's turn as the next event (R244). -/
theorem step_engine {s : State} {rest : List Event} (h : s.schedule = .engine :: rest) :
    step s = State.engineTurn { s with schedule := rest } := step_event h

/-- A running command completes at the engine's turn (R245). -/
theorem State.engineTurn_of_decode_ok {s : State} {i : Instr} (hb : s.status.busy = true) (hd : decode s.cmdLatch = .ok i) :
    s.engineTurn = exec i s := by
  rw [State.engineTurn, if_pos hb, State.completeCommand, hd]

/-- An idle engine keeps all its state (R255). -/
theorem State.engineTurn_of_idle {s : State} (hb : s.status.busy = false) : s.engineTurn = .next s := by
  rw [State.engineTurn, hb, if_neg Bool.false_ne_true]

/-- Settles O5: both forms of the engine's turn complete the decoded command. -/
theorem stepRunsTheDecodedCommand : Obligations.StepRunsTheDecodedCommand := by
  intro s i hb hd
  refine ⟨fun hs => ?_, fun rest hs => ?_⟩
  · rw [step_idle_schedule hs]
    exact State.engineTurn_of_decode_ok hb hd
  · rw [step_engine hs]
    exact State.engineTurn_of_decode_ok hb hd

/-- Settles O6: both forms of the engine's turn idle. -/
theorem idleEngineKeepsItsState : Obligations.IdleEngineKeepsItsState := by
  intro s hb
  refine ⟨fun hs => ?_, fun rest hs => ?_⟩
  · rw [step_idle_schedule hs]
    exact State.engineTurn_of_idle hb
  · rw [step_engine hs]
    exact State.engineTurn_of_idle hb

end Sys2Proof.Machine
end

section
/-! SUPPORT. Settles what the reset event does (spec/70_reset_and_hazards.md R270): as the next event it gives every state element its
reset value, whatever command was running. -/

namespace Sys2Proof.Machine

/-- The reset event as the next event (R244, R270). -/
theorem step_reset {s : State} {rest : List Event} (h : s.schedule = .reset :: rest) :
    step s = .next { s with schedule := rest }.hardReset := step_event h

/-- Settles O11: the event puts `Engine.reset` in place of the engine state, and 0 in place of DATA, STATUS and the two latches. -/
theorem resetEventGivesTheResetValues : Obligations.ResetEventGivesTheResetValues := fun s _ hp hs =>
  ⟨Engine.reset s.params, engineReset_isReset hp, step_reset hs⟩

end Sys2Proof.Machine
end

section
/-! SUPPORT. Settles the frame of every command (41 to 46 of spec/): for one part of the engine state, first the updates that do not
write it, then the procedures made of them, then the commands. Every lemma holds from any state, the invariant aside. -/

namespace Sys2Proof.Machine

theorem Engine.same_refl (e : Engine) : ∀ x : Part, Part.same e e x
  | .nodeSlot | .nodeWeight | .nodeRest => fun _ => rfl
  | .cursor => ⟨rfl, rfl⟩
  | .res | .freq | .nodeCount | .root | .heap | .pqSize | .pqCap | .codeMap | .bbMem | .bbCap | .bbTotal | .dataMem | .outMem => rfl

/-- A part outside what a rule writes is outside what a step of the rule writes. -/
theorem notMem_mono {vs ws : List Part} {x : Part} (hx : x ∉ ws) (hsub : vs ⊆ ws := by simp [partsWritten]) : x ∉ vs :=
  fun h => hx (hsub h)

/-! ### The updates -/

/-- The part that holds the contents of a memory (spec/20_memory.md R61). -/
def Space.part : Space → Part
  | .dataMem => .dataMem
  | .outMem => .outMem
  | .bbMem => .bbMem

namespace Part.same

variable {a e : Engine} {x : Part}

theorem setRes {v : Nat} (h : Part.same a e x) (hx : x ∉ [.res]) : Part.same a (e.setRes v) x := by
  cases x with
  | res => exact absurd (by decide) hx
  | _ => exact h

theorem setCursor {q : Nat} (h : Part.same a e x) (hx : x ∉ [.cursor]) : Part.same a (e.setCursor q) x := by
  cases x with
  | cursor => exact absurd (by decide) hx
  | _ => exact h

theorem setFreqs {f : Vector Word32 256} (h : Part.same a e x) (hx : x ∉ [.freq]) : Part.same a { e with freq := f } x := by
  cases x with
  | freq => exact absurd (by decide) hx
  | _ => exact h

theorem setMaps {m : Vector CodeEntry 256} (h : Part.same a e x) (hx : x ∉ [.codeMap]) : Part.same a { e with codeMap := m } x := by
  cases x with
  | codeMap => exact absurd (by decide) hx
  | _ => exact h

theorem setHeap {v : Vector NodeIdx 511} (h : Part.same a e x) (hx : x ∉ [.heap]) : Part.same a { e with heap := v } x := by
  cases x with
  | heap => exact absurd (by decide) hx
  | _ => exact h

theorem setPqSize {n : BitVec 9} (h : Part.same a e x) (hx : x ∉ [.pqSize]) : Part.same a { e with pqSize := n } x := by
  cases x with
  | pqSize => exact absurd (by decide) hx
  | _ => exact h

theorem setPqCap {n : BitVec 9} (h : Part.same a e x) (hx : x ∉ [.pqCap]) : Part.same a { e with pqCap := n } x := by
  cases x with
  | pqCap => exact absurd (by decide) hx
  | _ => exact h

theorem setNodes {ns : Vector Node 511} (h : Part.same a e x) (hx : x ∉ [.nodeSlot, .nodeWeight, .nodeRest]) :
    Part.same a { e with nodes := ns } x := by
  cases x with
  | nodeSlot | nodeWeight | nodeRest => exact absurd (by decide) hx
  | _ => exact h

theorem setNodeCount {n : BitVec 10} (h : Part.same a e x) (hx : x ∉ [.nodeCount]) : Part.same a { e with nodeCount := n } x := by
  cases x with
  | nodeCount => exact absurd (by decide) hx
  | _ => exact h

theorem setRoot {i : NodeIdx} (h : Part.same a e x) (hx : x ∉ [.root]) : Part.same a { e with root := i } x := by
  cases x with
  | root => exact absurd (by decide) hx
  | _ => exact h

theorem setBbCap {n : BitVec 17} (h : Part.same a e x) (hx : x ∉ [.bbCap]) : Part.same a { e with bbCap := n } x := by
  cases x with
  | bbCap => exact absurd (by decide) hx
  | _ => exact h

theorem setBbTotal {n : BitVec 20} (h : Part.same a e x) (hx : x ∉ [.bbTotal]) : Part.same a { e with bbTotal := n } x := by
  cases x with
  | bbTotal => exact absurd (by decide) hx
  | _ => exact h

theorem withSpace {sp : Space} {m : Memory} (h : Part.same a e x) (hx : x ∉ [sp.part]) : Part.same a (e.withSpace sp m) x := by
  cases sp with
  | dataMem =>
    cases x with
    | dataMem => exact absurd (by decide) hx
    | _ => exact h
  | outMem =>
    cases x with
    | outMem => exact absurd (by decide) hx
    | _ => exact h
  | bbMem =>
    cases x with
    | bbMem => exact absurd (by decide) hx
    | _ => exact h

theorem clearHeap (h : Part.same a e x) (hx : x ∉ [.heap, .pqSize]) : Part.same a e.clearHeap x := by
  cases x with
  | heap | pqSize => exact absurd (by decide) hx
  | _ => exact h

theorem clearArena (h : Part.same a e x) (hx : x ∉ partsWritten .arenaReset) : Part.same a e.clearArena x := by
  cases x with
  | nodeSlot | nodeWeight | nodeRest | nodeCount | root | heap | pqSize => exact absurd (by decide) hx
  | _ => exact h

theorem freshBuffer {cap : Nat} (h : Part.same a e x) (hx : x ∉ [.bbMem, .bbCap, .bbTotal, .cursor]) :
    Part.same a (e.freshBuffer cap) x := by
  cases x with
  | bbMem | bbCap | bbTotal | cursor => exact absurd (by decide) hx
  | _ => exact h

end Part.same

/-- A record that agrees in a field with the one it replaces changes that field of no node. -/
theorem Engine.nodeField_putNode {α : Type} (f : Node → α) {e : Engine} {i : NodeIdx} {n : Node} (hi : i.toNat < 511)
    (hf : f n = f (e.nodeAt i)) (j : NodeIdx) : f (e.nodeAt j) = f ((e.putNode i n).nodeAt j) := by
  rw [Engine.nodeAt_putNode e hi]
  by_cases hj : j = i
  · rw [if_pos hj, hj, hf]
  · rw [if_neg hj]

/-! ### The procedures -/

namespace Engine

variable {p : Params} {a e : Engine} {x : Part}

theorem memWrite_same {sp : Space} {idx : Nat} {v : Byte} (hx : x ∉ [sp.part]) (h : Part.same a e x) :
    Yields (e.memWrite p sp idx v) (Part.same a · x) := .ite (.ok (h.withSpace hx)) (.stuck _)

theorem loadByte_same {sp : Space} {index : Nat} (hx : x ∉ [.res]) (h : Part.same a e x) :
    Yields (e.loadByte p sp index) (Part.same a · x) := .check (.read fun _ => .ok (h.setRes hx))

theorem countBytes_same {input : List Byte} (hx : x ∉ [.freq]) (h : Part.same a e x) :
    Part.same a (input.foldl countByte e) x := by
  rw [countBytes_frame]
  exact h.setFreqs hx

/-! #### Bit buffer -/

theorem writeBits_same {v : Word64} {n q : Nat} (hx : x ∉ [.bbMem]) (h : Part.same a e x) :
    Yields (writeBits p v n e q) (Part.same a · x) := by
  induction n generalizing e q with
  | zero => exact .ok h
  | succ n ih => exact .bind (.read fun _ => memWrite_same hx h) fun _ h => ih h

theorem bbAppend_same {v : Word64} {n : Nat} (hx : x ∉ [.bbMem, .bbCap, .bbTotal, .cursor]) (h : Part.same a e x) :
    Yields (e.bbAppend p v n) (Part.same a · x) :=
  .check <| .read fun _ => .bind (writeBits_same (notMem_mono hx) (h.setBbCap (notMem_mono hx))) fun _ h =>
    .ok ((h.setBbTotal (notMem_mono hx)).setCursor (notMem_mono hx))

/-! #### Nodes and heap -/

theorem writeNode_same {i : Nat} {n : Node} (hx : x ∉ [.nodeSlot, .nodeWeight, .nodeRest]) (h : Part.same a e x) :
    Yields (e.writeNode i n) (Part.same a · x) := .ite (.ok (h.setNodes hx)) (.stuck _)

theorem nodeAlloc_same {n : Node} (hx : x ∉ [.nodeSlot, .nodeWeight, .nodeRest, .nodeCount]) (h : Part.same a e x) :
    Yields (e.nodeAlloc n) (fun r => Part.same a r.2 x) :=
  .check (.bind (writeNode_same (notMem_mono hx) h) fun _ h => .ok (h.setNodeCount (notMem_mono hx)))

/-- A slot write keeps the weight and the rest of the record it replaces (R151). -/
theorem setSlot_same {i : NodeIdx} {k : Nat} (hx : x ∉ [.nodeSlot]) (h : Part.same a e x) :
    Yields (e.setSlot i k) (Part.same a · x) := by
  intro e' he
  obtain ⟨hi, rfl⟩ := setSlot_eq_ok.mp he
  cases x with
  | nodeSlot => exact absurd (by decide) hx
  | nodeWeight => exact fun j => (h j).trans (nodeField_putNode (·.weight) hi (by rfl) j)
  | nodeRest => exact fun j => (h j).trans (nodeField_putNode (fun n => { n with heapSlot := 0, weight := 0 }) hi (by rfl) j)
  | _ => exact h

/-- NODE_SET_WEIGHT's write keeps the slot and the rest of the record it replaces (R176). -/
theorem writeWeight_same {i : Nat} {n : Node} {w : Word64} (hn : e.validNode i = .ok n) (hx : x ∉ [.nodeWeight]) (h : Part.same a e x) :
    Yields (e.writeNode i { n with weight := w }) (Part.same a · x) := by
  intro e' he
  obtain ⟨hi, rfl⟩ := writeNode_eq_ok.mp he
  have hlt : (BitVec.ofNat 9 i).toNat < 511 := by rw [BitVec.toNat_ofNat]; omega
  rcases e.validNode_cases i with ⟨-, hr⟩ | ⟨-, -, hr⟩
  · exact absurd (hr.symm.trans hn) raise_ne_ok
  · obtain rfl := Except.ok.inj (hr.symm.trans hn)
    cases x with
    | nodeWeight => exact absurd (by decide) hx
    | nodeSlot => exact fun j => (h j).trans (nodeField_putNode (·.heapSlot) hlt (by rfl) j)
    | nodeRest => exact fun j => (h j).trans (nodeField_putNode (fun n => { n with heapSlot := 0, weight := 0 }) hlt (by rfl) j)
    | _ => exact h

theorem writeHeap_same {k : Nat} {i : NodeIdx} (hx : x ∉ [.heap]) (h : Part.same a e x) :
    Yields (e.writeHeap p k i) (Part.same a · x) := .ite (.ok (h.setHeap hx)) (.stuck _)

/-! #### Queue -/

theorem swap_same {i j : Nat} (hx : x ∉ [.nodeSlot, .heap]) (h : Part.same a e x) : Yields (e.swap p i j) (Part.same a · x) :=
  .read fun _ => .read fun _ => .bind (writeHeap_same (notMem_mono hx) h) fun _ h => .bind (writeHeap_same (notMem_mono hx) h) fun _ h =>
    .bind (setSlot_same (notMem_mono hx) h) fun _ h => setSlot_same (notMem_mono hx) h

theorem siftUpLoop_same {fuel k : Nat} (hx : x ∉ [.nodeSlot, .heap]) (h : Part.same a e x) :
    Yields (siftUpLoop p fuel e k) (Part.same a · x) := by
  induction fuel generalizing e k with
  | zero => exact .ok h
  | succ fuel ih => exact .ite (.read fun _ => .ite (.bind (swap_same hx h) fun _ h => ih h) (.ok h)) (.ok h)

theorem siftDownLoop_same {fuel k : Nat} (hx : x ∉ [.nodeSlot, .heap]) (h : Part.same a e x) :
    Yields (siftDownLoop p fuel e k) (Part.same a · x) := by
  induction fuel generalizing e k with
  | zero => exact .ok h
  | succ fuel ih => exact .ite (.ok h) (.read fun _ => .read fun _ => .ite (.bind (swap_same hx h) fun _ h => ih h) (.ok h))

theorem reposition_same {k : Nat} (hx : x ∉ [.nodeSlot, .heap]) (h : Part.same a e x) :
    Yields (e.reposition p k) (Part.same a · x) :=
  have hsift {o : Ordering} : Yields (if o = .gt then e.siftUp p k else e.siftDown p k) (Part.same a · x) :=
    .ite (siftUpLoop_same hx h) (siftDownLoop_same hx h)
  .ite (.read fun _ => hsift) (.read fun _ => hsift)

theorem enqueue_same {i : NodeIdx} (hx : x ∉ [.nodeSlot, .heap, .pqSize]) (h : Part.same a e x) :
    Yields (e.enqueue p i) (Part.same a · x) :=
  .bind (writeHeap_same (notMem_mono hx) (h.setPqSize (notMem_mono hx))) fun _ h => .bind (setSlot_same (notMem_mono hx) h) fun _ h =>
    siftUpLoop_same (notMem_mono hx) h

theorem dequeue_same (hx : x ∉ [.nodeSlot, .heap, .pqSize]) (h : Part.same a e x) :
    Yields (e.dequeue p) (fun r => Part.same a r.2 x) :=
  .read fun _ => .read fun _ => .bind (writeHeap_same (notMem_mono hx) h) fun _ h =>
    have h := h.setPqSize (notMem_mono hx)
    .ite
      (.bind (writeHeap_same (notMem_mono hx) h) fun _ h => .bind (setSlot_same (notMem_mono hx) h) fun _ h =>
        .bind (siftDownLoop_same (notMem_mono hx) h) fun _ h => .bind (setSlot_same (notMem_mono hx) h) fun _ h => .ok h)
      (.read_ok (.bind (setSlot_same (notMem_mono hx) h) fun _ h => .ok h))

theorem clearSlots_same {n : Nat} (hx : x ∉ [.nodeSlot]) (h : Part.same a e x) : Yields (e.clearSlots p n) (Part.same a · x) :=
  .foldlM (fun _ _ h => .read fun _ => setSlot_same hx h) _ h

/-! #### Tree -/

theorem addLeaf_same {c : Byte} (hx : x ∉ partsWritten .treeBuild) (h : Part.same a e x) :
    Yields (e.addLeaf p c) (Part.same a · x) :=
  .ite (.ok h) (.bind (nodeAlloc_same (notMem_mono hx) h) fun _ h => enqueue_same (notMem_mono hx) h)

theorem mergeOnce_same (hx : x ∉ partsWritten .treeBuild) (h : Part.same a e x) : Yields (e.mergeOnce p) (Part.same a · x) :=
  .bind (dequeue_same (notMem_mono hx) h) fun _ h => .bind (dequeue_same (notMem_mono hx) h) fun _ h => .read fun _ => .read fun _ =>
    .bind (nodeAlloc_same (notMem_mono hx) h) fun _ h => enqueue_same (notMem_mono hx) h

theorem mergeAll_same {fuel : Nat} (hx : x ∉ partsWritten .treeBuild) (h : Part.same a e x) :
    Yields (mergeAll p fuel e) (Part.same a · x) := by
  induction fuel generalizing e with
  | zero => exact .ok h
  | succ fuel ih => exact .ite (.bind (mergeOnce_same hx h) fun _ h => ih h) (.ok h)

theorem buildTree_same (hx : x ∉ partsWritten .treeBuild) (h : Part.same a e x) : Yields (e.buildTree p) (Part.same a · x) :=
  .bind (.foldlM (fun _ _ h => addLeaf_same hx h) _ ((h.clearArena (notMem_mono hx)).setPqCap (notMem_mono hx))) fun _ h =>
    .bind (mergeAll_same hx h) fun _ h => .bind (dequeue_same (notMem_mono hx) h) fun _ h =>
      .ok ((h.setRoot (notMem_mono hx)).setRes (notMem_mono hx))

theorem release_same {fuel i : Nat} (hx : x ∉ [.nodeSlot, .nodeWeight, .nodeRest]) (h : Part.same a e x) :
    Yields (release fuel e i) (Part.same a · x) := by
  induction fuel generalizing e i with
  | zero => exact .stuck _
  | succ fuel ih =>
    exact .read fun _ => .ite (writeNode_same hx h) (.bind (ih h) fun _ h => .bind (ih h) fun _ h => writeNode_same hx h)

/-! #### Encoding map and codec -/

theorem assign_same {fuel i : Nat} {c : Word64} {len : Nat} (hx : x ∉ [.codeMap]) (h : Part.same a e x) :
    Yields (assign fuel e i c len) (Part.same a · x) := by
  induction fuel generalizing e i c len with
  | zero => exact .stuck _
  | succ fuel ih => exact .read fun _ => .ite (.ok (h.setMaps hx)) (.bind (ih h) fun _ h => ih h)

theorem fillMap_same {n : Node} (hx : x ∉ [.codeMap]) (h : Part.same a e x) : Yields (e.fillMap n) (Part.same a · x) :=
  .ite (.ok ((h.setMaps hx).setMaps hx)) (assign_same hx (h.setMaps hx))

theorem decodeLoop_same {n j q : Nat} (hx : x ∉ [.outMem]) (h : Part.same a e x) :
    Yields (decodeLoop p n e j q) (fun r => Part.same a r.1 x) := by
  induction n generalizing e j q with
  | zero => exact .ok h
  | succ n ih => exact .read fun _ => .bind (memWrite_same hx h) fun _ h => ih h

end Engine

/-! ### The commands -/

/-- A rule that leaves a part alone makes a command that does. -/
theorem Answers.same {i : Instr} {s : State} {r : Run Engine} {x : Part} (hi : exec i s = s.finish r)
    (h : Yields r (Part.same s.engine · x)) : Answers (exec i s) (Part.same s.engine · x) := .of_rule hi (s.engine.same_refl x) h

/-- A command whose rule writes RES alone, if it completes. -/
theorem Answers.loads {i : Instr} {s : State} {r : Run Engine} {x : Part} (hi : exec i s = s.finish r) (hx : x ∉ [.res])
    (h : Yields r (fun e => ∃ v, e = s.engine.setRes v)) : Answers (exec i s) (Part.same s.engine · x) :=
  .same hi fun e he => by
    obtain ⟨v, rfl⟩ := h e he
    exact (s.engine.same_refl x).setRes hx

/-- Every command leaves each part that its rule does not write. -/
theorem exec_same (s : State) {x : Part} (i : Instr) (hx : x ∉ partsWritten i) : Answers (exec i s) (Part.same s.engine · x) :=
  have h : Part.same s.engine s.engine x := s.engine.same_refl x
  match i, hx with
  | .nop, _ => .same rfl (.ok h)
  | .softReset, hx => absurd (by cases x <;> decide) hx
  | .clrSticky, _ => by rintro _ ⟨⟩; exact h
  | .regRead selector, hx => .loads rfl hx <| by
    cases hv : s.engine.regValue s.params selector with
    | some v => simp only [hv]; exact .ok ⟨v, rfl⟩
    | none => simp only [hv]; exact .raise _
  | .memWr _ _, hx => .same rfl (.check (Engine.memWrite_same hx h))
  | .memRd _, hx => .same rfl (Engine.loadByte_same hx h)
  | .outRd _, hx => .same rfl (Engine.loadByte_same hx h)
  | .bbNew _, hx => .same rfl (.check (.ok (h.freshBuffer hx)))
  | .bbWrite _ _, hx => .same rfl (.check (.check (Engine.bbAppend_same hx h)))
  | .bbReadBit, hx => .loads rfl hx (.check (.read fun _ => .ok ⟨_, rfl⟩))
  | .bbAdvance, hx => .same rfl (.check (.ok (h.setCursor hx)))
  | .bbRewind, hx => .same (r := .ok (s.engine.setCursor 0)) rfl (.ok (h.setCursor hx))
  | .bbSizeBits, hx => .loads rfl hx (.ok ⟨_, rfl⟩)
  | .bbByteOffset, hx => .loads rfl hx (.ok ⟨_, rfl⟩)
  | .bbBitOffset, hx => .loads rfl hx (.ok ⟨_, rfl⟩)
  | .bbGetByte _, hx => .loads rfl hx (.check (.read fun _ => .ok ⟨_, rfl⟩))
  | .pqInit _, hx => .same rfl <| .check <| .bind (Engine.clearSlots_same (notMem_mono hx) h) fun _ h =>
    .ok ((h.clearHeap (notMem_mono hx)).setPqCap (notMem_mono hx))
  | .pqInsert _, hx => .same rfl (.read fun _ => .check (.check (.check (Engine.enqueue_same hx h))))
  | .pqExtractMin, hx => .same rfl <| .check <| .bind (Engine.dequeue_same (notMem_mono hx) h) fun _ h =>
    .ok (h.setRes (notMem_mono hx))
  | .pqSize, hx => .loads rfl hx (.ok ⟨_, rfl⟩)
  | .pqChangePriority _, hx => .same rfl (.read fun _ => .check (Engine.reposition_same hx h))
  | .pqReadHeap _, hx => .loads rfl hx (.check (.read fun _ => .ok ⟨_, rfl⟩))
  | .freqClear, hx => .same rfl (.ok (h.setFreqs hx))
  | .freqSet _, hx => .same rfl (.check (.ok (h.setFreqs hx)))
  | .freqGet _, hx => .loads rfl hx (.ok ⟨_, rfl⟩)
  | .freqCount _, hx => .same rfl (.check (.ok (Engine.countBytes_same hx (h.setFreqs hx))))
  | .nodeNewLeaf _, hx => .same rfl <| .bind (Engine.nodeAlloc_same (notMem_mono hx) h) fun _ h => .ok (h.setRes (notMem_mono hx))
  | .nodeSetWeight _, hx => .same rfl <| .bind (fun _ hn => hn) fun _ hn => .check (Engine.writeWeight_same hn hx h)
  | .nodeRead field _, hx => .loads rfl hx <| .check <| .read fun n => by
    cases n.fieldValue field with
    | some v => exact .ok ⟨v, rfl⟩
    | none => exact .raise _
  | .arenaReset, hx => .same rfl (.ok (h.clearArena hx))
  | .treeBuild, hx => .same rfl (.check (Engine.buildTree_same hx h))
  | .treeHeight, hx => .loads rfl hx (.check (.read fun _ => .ok ⟨_, rfl⟩))
  | .treeFree, hx => .same rfl <| .check <| .bind (Engine.release_same (notMem_mono hx) h) fun _ h =>
    .ok (h.setRoot (notMem_mono hx))
  | .mapBuild, hx => .same rfl <| .check <| .read fun _ => .read fun _ => .check <|
    .bind (Engine.fillMap_same (notMem_mono hx) h) fun _ h => .ok (h.setRes (notMem_mono hx))
  | .mapGetCode _, hx => .loads rfl hx (.check (.ok ⟨_, rfl⟩))
  | .mapGetLen _, hx => .loads rfl hx (.check (.ok ⟨_, rfl⟩))
  | .encode _, hx => .same rfl <| .check <| .check <| .check <|
    .bind (.foldlM (fun _ _ h => Engine.bbAppend_same (notMem_mono hx) h) _ (h.freshBuffer (notMem_mono hx))) fun _ h =>
      .ok (h.setRes (notMem_mono hx))
  | .encSym _, hx => .same rfl (.check (Engine.bbAppend_same hx h))
  | .decode _, hx => .same rfl <| .check <| .check <| .bind (Engine.decodeLoop_same (notMem_mono hx) h) fun _ h =>
    .ok ((h.setCursor (notMem_mono hx)).setRes (notMem_mono hx))
  | .decSym, hx => .same rfl <| .check <| .read fun _ => .ok ((h.setCursor (notMem_mono hx)).setRes (notMem_mono hx))

/-- Settles O17: `exec_same` goes through the 40 rules, each made of updates that do not write the part. -/
theorem commandsWriteOnlyTheirParts : Obligations.CommandsWriteOnlyTheirParts :=
  fun i s t ht _ hx => exec_same s i hx t ht

end Sys2Proof.Machine
end
